-- ==== Sys2Proof/Word.lean ====
section
/-! DEFINITION. The words of the Huffman coding core: a register (00_scope.md R6, `REG_BITS` = 32) and one character of
the table text (10_state.md R33). -/

namespace Sys2Proof

/-- A register, a command word, a FREQ cell: 32 bits (R6, R21, R30, R81). -/
abbrev Word := BitVec 32

/-- A TBL cell, one character of the table text (R33, R95); also the width of a SYM cell (R6, R31). -/
abbrev Byte := BitVec 8

end Sys2Proof
end

