-- ==== Sys2Proof/Config.lean ====
section
/-! DEFINITION. What an implementation fixes (00_scope.md R6) and the free values (20_memory.md R70): the record of
parameters with its reference values, and the constants without a body that stand for every value the spec leaves open. -/

namespace Sys2Proof

/-- The implementation parameters of R6. `REG_BITS` is fixed at 32 and is the type `Word`. -/
structure Params where
  alphabet : Nat     -- A: symbols are 0 .. A-1
  symBits : Nat      -- SYM_BITS
  freqBits : Nat     -- FREQ_BITS
  codeLenMax : Nat   -- CODE_LEN_MAX
  symCap : Nat       -- SYM_CAP
  bitCap : Nat       -- BIT_CAP
  tblCap : Nat       -- TBL_CAP
  deriving DecidableEq, Repr

/-- The reference configuration: the defaults of R6. DESIGN CHOICE (unsafe, log 1): R6 lets a model fix them. -/
def Config.params : Params :=
  { alphabet := 256, symBits := 8, freqBits := 32, codeLenMax := 255,
    symCap := 65536, bitCap := 1048576, tblCap := 131072 }

/-- The value of an unspecified cell of width `w` (R45, R70, U4, U8, U13): the cell `index` of the space with id
`space`, in the memory's `epoch`-th unspecified contents. A free value (safe, log 2): it has no body, so nothing can be
proved of it, and two epochs need not agree on any cell. -/
opaque Config.freeCell (w space epoch index : Nat) : BitVec w

/-- STATUS.TREE_VALID as a poll reads it while BUILD or LOAD is running in an implementation that takes time (R239),
at the `n`-th such poll: the spec does not state it. A free value (safe, log 6). -/
opaque Config.busyTreeValid (n : Nat) : Bool

end Sys2Proof
end

