-- ==== Sys2Proof/Syntax.lean ====
section
/-! DEFINITION. The commands of the core: one constructor per row of spec/opcode_table.json (30_encoding.md R82). -/

namespace Sys2Proof

/-- The five commands (R2, R82). A command carries no operand (R84): it works on fixed registers and memories. -/
inductive Instr where
  | build    -- BUILD: FREQ to TREE, NLEAF (R120)
  | save     -- SAVE: TREE to TBL, TBL_LEN (R140)
  | load     -- LOAD: TBL, TBL_LEN to TREE, NLEAF (R150)
  | encode   -- ENCODE: TREE, SYM, SYM_LEN to BIT, BIT_LEN (R170)
  | decode   -- DECODE: TREE, BIT, BIT_LEN to SYM, SYM_LEN (R180)
  deriving DecidableEq, Repr

end Sys2Proof
end

