-- ==== Sys2Proof/Machine/HostPort.lean ====
section
/-! DEFINITION. The five address spaces (20_memory.md R50) and the host's accesses (R58 to R61), with the two further
events that are not accesses: reset (70_reset_and_hazards.md R230) and, for an implementation in which a command takes time
(R239), the completion of the command that runs. -/

namespace Sys2Proof.Machine

/-- The address spaces of R50. -/
inductive Space where
  | reg | freq | sym | bit | tbl
  deriving DecidableEq, Repr

/-- The space ids of R50. -/
def Space.id : Space → Nat
  | .reg => 0
  | .freq => 1
  | .sym => 2
  | .bit => 3
  | .tbl => 4

/-- The number of cells of a space (R50). -/
def Space.cells : Space → Nat
  | .reg => 8
  | .freq => Config.params.alphabet
  | .sym => Config.params.symCap
  | .bit => Config.params.bitCap
  | .tbl => Config.params.tblCap

/-- The width of a cell of a space in bits (R50). -/
def Space.width : Space → Nat
  | .reg => 32
  | .freq => Config.params.freqBits
  | .sym => Config.params.symBits
  | .bit => 1
  | .tbl => 8

/-- What can happen to the core, one at a time (R64, R65). An index and a value are natural numbers here, so that the
accesses U6 and U7 speak of can be written down; the step refuses them. -/
inductive HostEvent where
  /-- `HostRead(SPACE, i)` (R58, R60). -/
  | read (sp : Space) (i : Nat)
  /-- `HostWrite(SPACE, i, v)` (R59, R61). `write .reg 0 w` issues the command `w`, as one atomic step (R13, R22). -/
  | write (sp : Space) (i v : Nat)
  /-- The host writes `w` to CMD and the implementation takes time: BUSY is 1 from now on (R239).
  DESIGN CHOICE, log 6. -/
  | start (w : Nat)
  /-- The command that runs completes: all its results are written and BUSY is 0 again (R239). DESIGN CHOICE, log 6. -/
  | complete
  /-- Reset, from outside the core (R230). -/
  | reset
  deriving DecidableEq, Repr

end Sys2Proof.Machine
end

