-- ==== Sys2Proof/WellFormed.lean ====
section
/-! DEFINITION. Well-formedness: of the parameters (00_scope.md R6), of a command (30_encoding.md R84: it carries no operand, so there
is nothing to check), and of a host access (20_memory.md R58 to R62). -/

namespace Sys2Proof

/-- The constraints of R6. -/
def Params.wf (p : Params) : Bool :=
  2 ≤ p.alphabet && p.alphabet ≤ 2 ^ p.symBits && p.symBits ≤ 32 &&
  1 ≤ p.freqBits && p.freqBits ≤ 32 && p.alphabet - 1 ≤ p.codeLenMax &&
  1 ≤ p.symCap && p.symCap < 2 ^ 32 && 1 ≤ p.bitCap && p.bitCap < 2 ^ 32 &&
  1 ≤ p.tblCap && p.tblCap < 2 ^ 32

/-- A command has no operands (R84), so every command is well formed. -/
def Instr.wf : Instr → Bool
  | .build | .save | .load | .encode | .decode => true

namespace Machine

/-- A host access is well formed when its index lies in its space (R62, U6) and the value fits the cell (R59, R61, U7). -/
def HostEvent.wf : HostEvent → Bool
  | .read sp i => i < sp.cells
  | .write sp i v => i < sp.cells && v < 2 ^ sp.width
  | .start w => w < 2 ^ 32
  | .complete => true
  | .reset => true

end Machine

end Sys2Proof
end

