-- ==== Sys2Proof/Decode.lean ====
section
/-! DEFINITION. The command word (30_encoding.md R81 to R83): the decoder, total on 32-bit words and rejecting by name, and the
encoder. A command word is a value written whole to CMD, so no byte order enters (20_memory.md R54). -/

namespace Sys2Proof

/-- Why a word is no command (R83). -/
inductive DecodeReject where
  /-- A bit of `w[31:8]` is not 0. -/
  | reservedBits
  /-- `OP` is not in 1 .. 5. -/
  | reservedOp (op : BitVec 8)
  deriving DecidableEq, Repr

/-- `w[7:0]`, the operation code (R81). -/
def opField (w : Word) : BitVec 8 := w.extractLsb' 0 8

/-- `w[31:8]`, reserved, must be 0 (R81). -/
def zeroField (w : Word) : BitVec 24 := w.extractLsb' 8 24

/-- The decoder of command words of R82: `w` is a legal command exactly when `w[31:8] = 0` and `w[7:0]` is in 1 .. 5;
the command is then selected by `w[7:0]`. -/
def decodeCmd (w : Word) : Except DecodeReject Instr :=
  if zeroField w ≠ 0 then .error .reservedBits
  else if opField w = 0x01 then .ok .build
  else if opField w = 0x02 then .ok .save
  else if opField w = 0x03 then .ok .load
  else if opField w = 0x04 then .ok .encode
  else if opField w = 0x05 then .ok .decode
  else .error (.reservedOp (opField w))

/-- The operation code of a command (R82). -/
def opcode : Instr → BitVec 8
  | .build => 0x01
  | .save => 0x02
  | .load => 0x03
  | .encode => 0x04
  | .decode => 0x05

/-- The command word of a command (R81, R82): OP in bits 7:0, zero above. -/
def encode (i : Instr) : Word := (0 : BitVec 24) ++ opcode i

/-- The word of a table row: its low `nbits` bits. -/
def tableWord (nbits w : Nat) : Nat := w % 2 ^ nbits

/-- The instruction the decoder reads from an instruction word of `nbits` bits, numbered as spec/opcode_table.json
numbers them. A value that does not fit a command word is no command. -/
def decodeTableWord (nbits w : Nat) : Option Instr :=
  if tableWord nbits w < 2 ^ 32 then
    match decodeCmd (BitVec.ofNat 32 (tableWord nbits w)) with
    | .ok i => some i
    | .error _ => none
  else none

end Sys2Proof
end

