-- ==== Sys2Proof/Machine/Tree.lean ====
section
/-! DEFINITION. Code trees (00_scope.md R10) with the pair list, the code of a symbol and the invariants of a valid TREE
(10_state.md R34 to R42). A path is a list of branches, `false` for 0 (left) and `true` for 1 (right) (30_encoding.md R88). -/

namespace Sys2Proof.Machine

/-- A Tree or NONE (R10): `absent` is NONE, an absent child or the absent TREE (log 10). -/
inductive OptTree where
  | absent
  | leaf (sym : Nat)
  | node (left right : OptTree)
  deriving DecidableEq, Repr

/-- `child(n, b)` (R10): the left child for 0, the right child for 1. A leaf and NONE have no child. -/
def OptTree.child : OptTree → Bool → OptTree
  | .node l r, b => if b then r else l
  | .leaf _, _ => .absent
  | .absent, _ => .absent

/-- "node with child b set to t" of 41_codec.md R153; the other child is left as it is. -/
def OptTree.setChild : OptTree → Bool → OptTree → OptTree
  | .node l r, b, t => if b then .node l t else .node t r
  | .leaf s, _, _ => .leaf s
  | .absent, _, _ => .absent

/-- `walk` and `walk_opt` of R41: the pairs below a node, the path from the root accumulated in `p`. -/
def OptTree.walk : OptTree → List Bool → List (Nat × List Bool)
  | .absent, _ => []
  | .leaf s, p => [(s, p)]
  | .node l r, p => l.walk (p ++ [false]) ++ r.walk (p ++ [true])

/-- `pairs(T)` of R41: the (symbol, path) pairs of the leaves in pre-order. -/
def OptTree.pairs (t : OptTree) : List (Nat × List Bool) := t.walk []

/-- `code_of(T, s)` of R42: the path of the pair of `s`, NONE when no leaf holds `s`. -/
def OptTree.codeOf (t : OptTree) (s : Nat) : Option (List Bool) :=
  (t.pairs.find? fun e => e.1 == s).map Prod.snd

/-- The codes of a sequence of symbols one after the other, with nothing between them (30_encoding.md R90, 42_transcoder.md
R172). -/
def OptTree.codes (t : OptTree) (syms : List Nat) : List Bool :=
  syms.flatMap fun s => (t.codeOf s).getD []

/-- Where a cursor at the node is after following the branches of a path (42_transcoder.md R181); NONE once a child is missing. -/
def OptTree.descend : OptTree → List Bool → OptTree
  | t, [] => t
  | t, b :: p => (t.child b).descend p

/-- The number of leaves (R26). -/
def OptTree.leafCount : OptTree → Nat
  | .absent => 0
  | .leaf _ => 1
  | .node l r => l.leafCount + r.leafCount

/-- The symbols of the leaves, left to right. -/
def OptTree.symbols : OptTree → List Nat
  | .absent => []
  | .leaf s => [s]
  | .node l r => l.symbols ++ r.symbols

/-- The length of the longest path to a leaf (R39). -/
def OptTree.depth : OptTree → Nat
  | .absent => 0
  | .leaf _ => 0
  | .node l r => max l.depth r.depth + 1

/-- The sum of the frequencies `f` of the symbols below a node: the frequency of an item of BUILD (40_builder.md R129). -/
def OptTree.weight (f : Nat → Nat) (t : OptTree) : Nat := (t.symbols.map f).sum

/-- The weighted sum of 40_builder.md R130 (d): frequency times code length, over all leaves. -/
def OptTree.cost (f : Nat → Nat) (t : OptTree) : Nat := (t.pairs.map fun e => f e.1 * e.2.length).sum

/-- The sum of the frequencies of all Internal nodes (40_builder.md R130 (e)). -/
def OptTree.internalSum (f : Nat → Nat) : OptTree → Nat
  | .absent => 0
  | .leaf _ => 0
  | .node l r => (OptTree.node l r).weight f + l.internalSum f + r.internalSum f

/-- R36: an Internal node. -/
def OptTree.isNode : OptTree → Bool
  | .node _ _ => true
  | .leaf _ => false
  | .absent => false

/-- R37: every Internal node of the tree has at least one child. -/
def OptTree.noBareNode : OptTree → Bool
  | .absent => true
  | .leaf _ => true
  | .node l r => (l != .absent || r != .absent) && l.noBareNode && r.noBareNode

/-- R40: every Internal node has exactly two children. -/
def OptTree.full : OptTree → Bool
  | .absent => false
  | .leaf _ => true
  | .node l r => l.full && r.full

/-- A valid TREE over the alphabet 0 .. `A`-1 with codes of at most `lenMax` bits (R36 to R39): an Internal root, no bare
Internal node, symbols of the alphabet each at one leaf only, no leaf deeper than `lenMax`. Fullness is not among them
(R40, 90_conflicts.md C1). -/
abbrev OptTree.Valid (A lenMax : Nat) (t : OptTree) : Prop :=
  t.isNode = true ∧ t.noBareNode = true ∧ (∀ s ∈ t.symbols, s < A) ∧ t.symbols.Nodup ∧ t.depth ≤ lenMax

end Sys2Proof.Machine
end

