-- ==== Sys2Proof/Machine/State.lean ====
section
/-! DEFINITION. The state of the core (10_state.md R20 to R46) as plain data, the failures of a command (30_encoding.md R85, R86),
the reasons a step can stop, and the state after reset (R45, R231). -/

namespace Sys2Proof.Machine

/-- The failures of a command with their sub-causes (R85, R86, 60_exceptions.md R201). -/
inductive Failure where
  | invalidInput
  | badSymbol | emptyCode | badCodeChar | dupSymbol | pathConflict | emptyTable   -- MalformedTable
  | unknownSymbol
  | incompleteCode
  | malformedStream
  | noTree
  | inputLen | outputFull | codeTooLong   -- CapacityExceeded
  | illegalCommand
  deriving DecidableEq, Repr

/-- `raise E(sub, pos)` of 00_scope.md R11: a failure (with its sub-cause) and the position reported in ERRPOS. -/
structure Raise where
  failure : Failure
  pos : Nat
  deriving DecidableEq, Repr

/-- A command either succeeds or raises exactly one failure (00_scope.md R12). -/
abbrev Result (α : Type) := Except Raise α

/-- One of the memories FREQ, SYM, BIT, TBL: the cells that hold a known value, by strictly rising index, and the
number of the current unspecified contents of all the others (20_memory.md R70). An index that is not listed holds the
free value `Config.freeCell` gives for this epoch (log 2); a listed cell may hold any value. -/
structure Memory (w : Nat) where
  epoch : Nat
  cells : List (Nat × BitVec w)
  deriving DecidableEq, Repr

/-- The whole state. CMD stores nothing (R22), STATUS is a view of `running` and `tree` (R23). -/
structure State where
  err : Word               -- ERR (R24)
  errpos : Word            -- ERRPOS (R24)
  symLen : Word            -- SYM_LEN (R25)
  bitLen : Word            -- BIT_LEN (R25)
  tblLen : Word            -- TBL_LEN (R25)
  nleaf : Word             -- NLEAF (R26)
  freq : Memory 32         -- FREQ (R30)
  sym : Memory 8           -- SYM (R31)
  bit : Memory 1           -- BIT (R32)
  tbl : Memory 8           -- TBL (R33)
  tree : OptTree           -- TREE, hidden (R34)
  running : Option Instr   -- the command in progress, STATUS.BUSY (R23, R45, R239)
  pending : List HostEvent -- the model's own: the host's events to come, oldest first (log 4)
  rdata : Option Word      -- the model's own: what the latest host read returned (log 5)
  polls : Nat              -- the model's own: counter of the free bit of a poll (log 6)
  deriving DecidableEq, Repr

/-- What stops the machine with a fault. -/
inductive Fault where
  /-- Raised by the step when the host makes an access other than a read of STATUS while BUSY is 1 (R239, U5), in an
  implementation where a command takes time. A race between host and core: its effect is unspecified, so the run has no
  next state. Safe. -/
  | hostAccessWhileBusy
  deriving DecidableEq, Repr

/-- What the model gives no meaning to. -/
inductive Refusal where
  /-- Raised by the dispatcher for a command that has no meaning yet; no arm raises it now. Safe. -/
  | notModelled (mnemonic : String)
  /-- Raised by the step for a host access whose index is outside its space, a register number above 7 included
  (R27, R62, U6: refuse). Safe. -/
  | noSuchCell (sp : Space) (i : Nat)
  /-- Raised by the step for a host write of a value that does not fit the cell (R59, U7: refuse). Safe. -/
  | valueTooWide (sp : Space) (v : Nat)
  deriving DecidableEq, Repr

/-- A memory right after reset: every cell unspecified (R45). Epoch 0 is the model's own counter, DESIGN CHOICE (log 3). -/
def Memory.unwritten (w : Nat) : Memory w := { epoch := 0, cells := [] }

/-- The state after reset (R45, R231): registers 0, no tree, no command in progress, every cell unspecified. The model's
own fields start empty (logs 3 to 6). -/
def State.reset : State :=
  { err := 0, errpos := 0, symLen := 0, bitLen := 0, tblLen := 0, nleaf := 0,
    freq := Memory.unwritten 32, sym := Memory.unwritten 8, bit := Memory.unwritten 1, tbl := Memory.unwritten 8,
    tree := .absent, running := none, pending := [], rdata := none, polls := 0 }

end Sys2Proof.Machine
end

