-- ==== Sys2Proof/Machine/Flags.lean ====
section
/-! DEFINITION. The status indications of the core (10_state.md R29): the words of ERR (R24, 30_encoding.md R85, R86) and of STATUS
(R23). The core has no arithmetic flags. -/

namespace Sys2Proof.Machine

/-- ERR.CODE of a failure (R85). -/
def Failure.code : Failure → Nat
  | .invalidInput => 1
  | .badSymbol | .emptyCode | .badCodeChar | .dupSymbol | .pathConflict | .emptyTable => 2
  | .unknownSymbol => 3
  | .incompleteCode => 4
  | .malformedStream => 5
  | .noTree => 6
  | .inputLen | .outputFull | .codeTooLong => 7
  | .illegalCommand => 8

/-- ERR.SUB of a failure (R86); 0 for a failure with a single cause. -/
def Failure.sub : Failure → Nat
  | .badSymbol => 1
  | .emptyCode => 2
  | .badCodeChar => 3
  | .dupSymbol => 4
  | .pathConflict => 5
  | .emptyTable => 6
  | .inputLen => 1
  | .outputFull => 2
  | .codeTooLong => 3
  | .invalidInput | .unknownSymbol | .incompleteCode | .malformedStream | .noTree | .illegalCommand => 0

/-- The ERR word of a failure (60_exceptions.md R206 (a)): `CODE(E) + 256 * sub`. -/
def errWord (f : Failure) : Word := BitVec.ofNat 32 (f.code + 256 * f.sub)

/-- ERR.CODE, ERR[7:0] (R24). -/
def errCode (w : Word) : BitVec 8 := w.extractLsb' 0 8

/-- ERR.SUB, ERR[15:8] (R24). -/
def errSub (w : Word) : BitVec 8 := w.extractLsb' 8 8

/-- A STATUS word (R23): BUSY in bit 0, TREE_VALID in bit 1, bits 31:2 read as 0. -/
def mkStatus (busy treeValid : Bool) : Word :=
  (0 : BitVec 30) ++ BitVec.ofBool treeValid ++ BitVec.ofBool busy

/-- STATUS.TREE_VALID (R23): 1 when `TREE != NONE`. -/
def State.treeValid (s : State) : Bool := s.tree != .absent

/-- STATUS as read when no command is in progress or when the command in progress leaves TREE alone (R23). -/
def State.status (s : State) : Word := mkStatus s.running.isSome s.treeValid

/-- Does the command write TREE (R52)? -/
def writesTree : Instr → Bool
  | .build | .load => true
  | .save | .encode | .decode => false

/-- STATUS as a poll reads it while `i` is in progress (R239): BUSY is 1; TREE_VALID is the view of TREE, but while
BUILD or LOAD is rewriting TREE it is a free bit (log 6). -/
def State.busyStatus (i : Instr) (s : State) : Word :=
  mkStatus true (if writesTree i then Config.busyTreeValid s.polls else s.treeValid)

end Sys2Proof.Machine
end

