-- ==== Sys2Proof/Machine/Ops.lean ====
section
/-! DEFINITION. The operations every command and every host access is made of: one cell of a memory (20_memory.md R51), a run of cells,
making a memory unspecified (R70), the registers as the host reads and writes them (R60, R61), the outcome of a command
(60_exceptions.md R206, R207), an illegal command word (30_encoding.md R83), and reset (70_reset_and_hazards.md R230). The core has no
exception entry and no return from one (R200, R208, R210): `fail` is all that a failure does. -/

namespace Sys2Proof.Machine

/-- The known value of a cell in a list of cells. -/
def lookupCell {w : Nat} : List (Nat × BitVec w) → Nat → Option (BitVec w)
  | [], _ => none
  | (a, v) :: rest, i => if a = i then some v else lookupCell rest i

/-- Set one cell, keeping the indexes strictly rising. -/
def insertCell {w : Nat} : List (Nat × BitVec w) → Nat → BitVec w → List (Nat × BitVec w)
  | [], i, v => [(i, v)]
  | (a, u) :: rest, i, v =>
    if i < a then (i, v) :: (a, u) :: rest
    else if i = a then (i, v) :: rest
    else (a, u) :: insertCell rest i v

/-- The canonical form of a memory: strictly rising indexes. An unlisted index has no known value, so no entry can equal
what an unlisted index holds. -/
abbrev Memory.wf {w : Nat} (m : Memory w) : Prop := m.cells.Pairwise fun x y => x.1 < y.1

/-- Every listed cell exists: its index lies below the number of cells of the space (R51). -/
abbrev Memory.within {w : Nat} (cap : Nat) (m : Memory w) : Prop := ∀ x ∈ m.cells, x.1 < cap

/-- The known value of cell `i`, none when the cell is unspecified (R70). -/
def Memory.known {w : Nat} (m : Memory w) (i : Nat) : Option (BitVec w) := lookupCell m.cells i

/-- `MemRead(SPACE, i)` (R51): the known value, or the free value of an unspecified cell (R70, U4, U8, U13). -/
def Memory.read {w : Nat} (sp : Space) (m : Memory w) (i : Nat) : BitVec w :=
  (m.known i).getD (Config.freeCell w sp.id m.epoch i)

/-- `MemWrite(SPACE, i, v)` (R51). -/
def Memory.write {w : Nat} (m : Memory w) (i : Nat) (v : BitVec w) : Memory w :=
  { m with cells := insertCell m.cells i v }

/-- Write a sequence to consecutive cells from cell `i` on (R55: element `k` of a sequence is at cell `k`). -/
def Memory.writeList {w : Nat} (m : Memory w) (i : Nat) : List (BitVec w) → Memory w
  | [] => m
  | v :: vs => (m.write i v).writeList (i + 1) vs

/-- Every cell becomes unspecified (R70 (a), (b)): nothing is known of any, and the free contents are new ones. -/
def Memory.scramble {w : Nat} (m : Memory w) : Memory w := { epoch := m.epoch + 1, cells := [] }

/-- What a host read of register `n` returns (R60). CMD reads 0 (R22). Numbers 8 and up do not exist (R27): the step refuses
them before it comes here. -/
def regRead (s : State) (n : Nat) : Word :=
  if n = 1 then s.status
  else if n = 2 then s.err
  else if n = 3 then s.errpos
  else if n = 4 then s.symLen
  else if n = 5 then s.bitLen
  else if n = 6 then s.tblLen
  else if n = 7 then s.nleaf
  else 0

/-- What a host write of a register other than CMD does (R61): the three length registers store the value unchanged
(R25), STATUS, ERR, ERRPOS and NLEAF ignore it. -/
def regWrite (s : State) (n : Nat) (v : Word) : State :=
  if n = 4 then { s with symLen := v }
  else if n = 5 then { s with bitLen := v }
  else if n = 6 then { s with tblLen := v }
  else s

/-- The value a host read returns (R58, R60), seen as a 32-bit value. -/
def cellRead (s : State) : Space → Nat → Word
  | .reg, i => regRead s i
  | .freq, i => s.freq.read .freq i
  | .sym, i => (s.sym.read .sym i).setWidth 32
  | .bit, i => (s.bit.read .bit i).setWidth 32
  | .tbl, i => (s.tbl.read .tbl i).setWidth 32

/-- Does the cell hold an unspecified value (R70)? A register never does (R45). -/
def State.unspecified (s : State) : Space → Nat → Bool
  | .reg, _ => false
  | .freq, i => (s.freq.known i).isNone
  | .sym, i => (s.sym.known i).isNone
  | .bit, i => (s.bit.known i).isNone
  | .tbl, i => (s.tbl.known i).isNone

/-- What a host write other than a CMD write does (R59, R61). The step has checked index and value (R62, U6, U7). -/
def cellWrite (s : State) : Space → Nat → Nat → State
  | .reg, i, v => regWrite s i (BitVec.ofNat 32 v)
  | .freq, i, v => { s with freq := s.freq.write i (BitVec.ofNat 32 v) }
  | .sym, i, v => { s with sym := s.sym.write i (BitVec.ofNat 8 v) }
  | .bit, i, v => { s with bit := s.bit.write i (BitVec.ofNat 1 v) }
  | .tbl, i, v => { s with tbl := s.tbl.write i (BitVec.ofNat 8 v) }

/-- The completion of a command that succeeds (R207): `ERR <- 0`, `ERRPOS <- 0`, and BUSY is 0. -/
def succeed (s : State) : State := { s with err := 0, errpos := 0, running := none }

/-- The output a failing command invalidates (R206 (b)). -/
def invalidate (s : State) : Instr → State
  | .build => { s with tree := .absent, nleaf := 0 }
  | .load => { s with tree := .absent, nleaf := 0 }
  | .save => { s with tblLen := 0, tbl := s.tbl.scramble }
  | .encode => { s with bitLen := 0, bit := s.bit.scramble }
  | .decode => { s with symLen := 0, sym := s.sym.scramble }

/-- `raise E(sub, pos)` in command `i` (R206): (a) ERR and ERRPOS, (b) the output invalidated, (c) nothing else,
(d) BUSY is 0. -/
def fail (i : Instr) (r : Raise) (s : State) : State :=
  { invalidate s i with err := errWord r.failure, errpos := BitVec.ofNat 32 r.pos, running := none }

/-- An illegal command word (R83): only ERR and ERRPOS are written. -/
def illegalCommand (s : State) : State :=
  { s with err := errWord .illegalCommand, errpos := 0 }

/-- Reset (R230, R231): the registers and TREE as after reset, a command in progress abandoned, every cell of every
memory unspecified. The host's own side (its events to come, what it has read) is no part of the core (log 11). -/
def resetCore (s : State) : State :=
  { State.reset with
    freq := s.freq.scramble, sym := s.sym.scramble, bit := s.bit.scramble, tbl := s.tbl.scramble,
    pending := s.pending, rdata := s.rdata, polls := s.polls }

end Sys2Proof.Machine
end

