-- ==== Sys2Proof/Machine/Operands.lean ====
section
/-! DEFINITION. The operands of the commands (30_encoding.md R84): a command word carries none; each command takes its input
from fixed memories and length registers, and each output goes to fixed places. -/

namespace Sys2Proof.Machine

/-- FREQ, all `A` cells, in ascending order of symbol (R30, R121): element `s` is the count of symbol `s`. -/
def freqInput (s : State) : List Nat :=
  (List.range Config.params.alphabet).map fun i => (s.freq.read .freq i).toNat

/-- The symbol sequence `SYM[0 .. SYM_LEN-1]` (R25, R31). -/
def symInput (s : State) : List Nat :=
  (List.range s.symLen.toNat).map fun i => (s.sym.read .sym i).toNat

/-- The bit sequence `BIT[0 .. BIT_LEN-1]` (R25, R32): `true` for a cell that holds 1. -/
def bitInput (s : State) : List Bool :=
  (List.range s.bitLen.toNat).map fun i => s.bit.read .bit i == 1#1

/-- The table text `TBL[0 .. TBL_LEN-1]` (R25, R33). -/
def tblInput (s : State) : List Byte :=
  (List.range s.tblLen.toNat).map fun i => s.tbl.read .tbl i

/-- A successful BUILD or LOAD (R127, R158): the new TREE and its number of leaves. -/
def putTree (s : State) (t : OptTree) (n : Nat) : State :=
  { s with tree := t, nleaf := BitVec.ofNat 32 n }

/-- The output of a successful SAVE (R145). -/
def putText (s : State) (text : List Byte) : State :=
  { s with tbl := s.tbl.writeList 0 text, tblLen := BitVec.ofNat 32 text.length }

/-- The output of a successful ENCODE (R176). -/
def putBits (s : State) (bits : List Bool) : State :=
  { s with bit := s.bit.writeList 0 (bits.map BitVec.ofBool), bitLen := BitVec.ofNat 32 bits.length }

/-- The output of a successful DECODE (R187). A symbol of a valid TREE fits its SYM cell (R6, R38; log 10). -/
def putSyms (s : State) (syms : List Nat) : State :=
  { s with sym := s.sym.writeList 0 (syms.map (BitVec.ofNat 8)), symLen := BitVec.ofNat 32 syms.length }

end Sys2Proof.Machine
end

