-- ==== Sys2Proof/Machine/Builder.lean ====
section
/-! DEFINITION. The Code Tree Builder: BUILD (40_builder.md R120 to R131). Frequencies are exact natural numbers (R129). -/

namespace Sys2Proof.Machine

/-- An item of the collection `Q` (R121): frequency, sequence number, tree. -/
structure Item where
  freq : Nat
  seq : Nat
  tree : OptTree
  deriving DecidableEq, Repr

/-- The order of the collection (R123): by frequency, then by sequence number. -/
def Item.before (x y : Item) : Bool := x.freq < y.freq || (x.freq == y.freq && x.seq < y.seq)

/-- Step 1 (R121): one item per symbol with a frequency above 0, in ascending order of symbol. -/
def leafItems (freqs : List Nat) : List Item :=
  (freqs.zipIdx.filter fun e => 0 < e.1).map fun e => { freq := e.1, seq := e.2, tree := .leaf e.2 }

/-- `remove_min(Q)` (R126): the item that comes first, and the others. -/
def removeMin : List Item → Option (Item × List Item)
  | [] => none
  | x :: xs =>
    match removeMin xs with
    | none => some (x, [])
    | some (m, rest) => if x.before m then some (x, xs) else some (m, x :: rest)

/-- The combine loop (R124) with its counter `k`; the first argument bounds the number of passes (each shortens the
collection by one item, 70_reset_and_hazards.md R245). The first removed becomes the left child. -/
def combine (A : Nat) : Nat → Nat → List Item → List Item
  | 0, _, q => q
  | fuel + 1, k, q =>
    match removeMin q with
    | none => q
    | some (x, q₁) =>
      match removeMin q₁ with
      | none => q
      | some (y, q₂) =>
        combine A fuel (k + 1) (q₂ ++ [{ freq := x.freq + y.freq, seq := A + k, tree := .node x.tree y.tree }])

/-- The tree made of the items (R124, R125): one item alone becomes the left child of a root without a right child. -/
def itemsTree (A : Nat) (q : List Item) : OptTree :=
  match q with
  | [x] => .node x.tree .absent
  | _ => ((combine A q.length 0 q).head?.map Item.tree).getD .absent

/-- BUILD as a function of the frequencies (R126, R131): the tree and its number of leaves. -/
def buildTree (A : Nat) (freqs : List Nat) : Result (OptTree × Nat) :=
  if leafItems freqs = [] then .error { failure := .invalidInput, pos := 0 }
  else .ok (itemsTree A (leafItems freqs), (leafItems freqs).length)

/-- BUILD (R120, R126 to R128). -/
def execBuild (s : State) : Host.Outcome State Fault Refusal :=
  .next <|
    match buildTree Config.params.alphabet (freqInput s) with
    | .ok (t, n) => succeed (putTree s t n)
    | .error r => fail .build r s

end Sys2Proof.Machine
end

