-- ==== Sys2Proof/Machine/Text.lean ====
section
/-! DEFINITION. The persisted code table format (30_encoding.md R94 to R105): the text SAVE writes, and the lines, entries, symbols
and code-strings LOAD reads. -/

namespace Sys2Proof.Machine

/-- The line feed (R95). -/
def lineFeed : Byte := 0x0A

/-- The character of a decimal digit (R95): 0x30 to 0x39. -/
def digitChar (d : Nat) : Byte := BitVec.ofNat 8 (0x30 + d)

/-- Is the byte one of the ten digits (R95)? -/
def isDigit (c : Byte) : Bool := 0x30 ≤ c.toNat && c.toNat ≤ 0x39

/-- Is the byte one of the two code characters (R95, R102)? -/
def isBitChar (c : Byte) : Bool := c == 0x30 || c == 0x31

/-- The digits of `n`, most significant first, put before `acc`; the first argument bounds the number of digits. -/
def decDigits : Nat → Nat → List Byte → List Byte
  | 0, _, acc => acc
  | fuel + 1, n, acc =>
    if n < 10 then digitChar n :: acc else decDigits fuel (n / 10) (digitChar (n % 10) :: acc)

/-- `dec(s)` (R96): the shortest decimal representation. -/
def decText (n : Nat) : List Byte := decDigits (n + 1) n []

/-- The character of a branch (R88, R97). -/
def bitChar (b : Bool) : Byte := if b then 0x31 else 0x30

/-- The branch of a code character (R102): 0x30 gives 0, 0x31 gives 1. -/
def charBit (c : Byte) : Bool := c == 0x31

/-- One entry of the text (R99): the symbol line and the code line, each with its line feed. -/
def entryText (s : Nat) (p : List Bool) : List Byte :=
  decText s ++ [lineFeed] ++ p.map bitChar ++ [lineFeed]

/-- `fmt(P)` (R99). -/
def fmt : List (Nat × List Bool) → List Byte
  | [] => []
  | (s, p) :: rest => entryText s p ++ fmt rest

/-- The bound of 00_scope.md R7 (b) on the length of a table: `A` entries, each with at most the digits of `A - 1` and
`CODE_LEN_MAX` code characters, and two line feeds. -/
def tableBytesMax : Nat :=
  Config.params.alphabet * ((decText (Config.params.alphabet - 1)).length + 1 + Config.params.codeLenMax + 1)

/-- `lines(text)` (R100): cut at every line feed; the empty piece after a last line feed is no line. -/
def lines : List Byte → List (List Byte)
  | [] => []
  | c :: cs =>
    if c = lineFeed then [] :: lines cs
    else match lines cs with
      | [] => [[c]]
      | l :: ls => (c :: l) :: ls

/-- The entries of a table (R103): a symbol line and a code line, the code line missing after an odd last line. -/
def pairLines : List (List Byte) → List (List Byte × Option (List Byte))
  | [] => []
  | [sl] => [(sl, none)]
  | sl :: cl :: rest => (sl, some cl) :: pairLines rest

/-- The number a line of digits writes in base ten, most significant first (R101). -/
def decValue (line : List Byte) : Nat := line.foldl (fun v c => v * 10 + (c.toNat - 0x30)) 0

/-- `parse_sym(line)` (R101), none for BAD_SYMBOL: at least one byte, digits only, a value below `A`. -/
def parseSym (A : Nat) (line : List Byte) : Option Nat :=
  if line = [] ∨ line.all isDigit = false then none
  else if decValue line < A then some (decValue line) else none

/-- `parse_code(line)` (R102), the code line missing being an empty one (R103): the three checks in order, on the whole
line, then one branch per byte. -/
def parseCode (lenMax : Nat) : Option (List Byte) → Except Failure (List Bool)
  | none => .error .emptyCode
  | some line =>
    if line = [] then .error .emptyCode
    else if line.all isBitChar = false then .error .badCodeChar
    else if lenMax < line.length then .error .codeTooLong
    else .ok (line.map charBit)

end Sys2Proof.Machine
end

