-- ==== Sys2Proof/Machine/Codec.lean ====
section
/-! DEFINITION. The Code Table Codec: SAVE (41_codec.md R140 to R146) and LOAD (R150 to R161). -/

namespace Sys2Proof.Machine

/-- The loop of SAVE (R143, R144) from pair `k` on, with `n` bytes written so far: the bytes still to write. -/
def saveLoop (cap : Nat) : List (Nat × List Bool) → Nat → Nat → Result (List Byte)
  | [], _, _ => .ok []
  | (s, p) :: rest, k, n =>
    if cap < n + (entryText s p).length then .error { failure := .outputFull, pos := k }
    else match saveLoop cap rest (k + 1) (n + (entryText s p).length) with
      | .ok text => .ok (entryText s p ++ text)
      | .error r => .error r

/-- SAVE as a function of TREE (R141 to R144): the text. -/
def saveTree (cap : Nat) (t : OptTree) : Result (List Byte) :=
  if t = .absent then .error { failure := .noTree, pos := 0 }
  else saveLoop cap t.pairs 0 0

/-- SAVE (R140, R144, R145). -/
def execSave (s : State) : Host.Outcome State Fault Refusal :=
  .next <|
    match saveTree Config.params.tblCap s.tree with
    | .ok text => succeed (putText s text)
    | .error r => fail .save r s

/-- `insert(node, s, path)` (R153), none for a conflict (R154). `node` is an Internal node and the path is not empty. -/
def insertPath (s : Nat) : List Bool → OptTree → Option OptTree
  | [], _ => none
  | [b], n =>
    match n.child b with
    | .absent => some (n.setChild b (.leaf s))
    | .leaf _ => none
    | .node _ _ => none
  | b :: c :: rest, n =>
    match n.child b with
    | .absent => (insertPath s (c :: rest) (.node .absent .absent)).map (n.setChild b)
    | .leaf _ => none
    | .node l r => (insertPath s (c :: rest) (.node l r)).map (n.setChild b)

/-- One entry of the table (R152), its six checks in order: the tree with the entry's leaf, and its symbol. -/
def loadEntry (A lenMax : Nat) (e : List Byte × Option (List Byte)) (root : OptTree) (placed : List Nat) :
    Except Failure (OptTree × Nat) :=
  match parseSym A e.1 with
  | none => .error .badSymbol
  | some s =>
    match parseCode lenMax e.2 with
    | .error f => .error f
    | .ok c =>
      if s ∈ placed then .error .dupSymbol
      else match insertPath s c root with
        | none => .error .pathConflict
        | some t => .ok (t, s)

/-- The loop of LOAD (R152, R157) from entry `k` on. -/
def loadLoop (A lenMax : Nat) : List (List Byte × Option (List Byte)) → Nat → OptTree → List Nat → Result OptTree
  | [], _, root, _ => .ok root
  | e :: rest, k, root, placed =>
    match loadEntry A lenMax e root placed with
    | .error f => .error { failure := f, pos := k }
    | .ok (t, s) => loadLoop A lenMax rest (k + 1) t (s :: placed)

/-- The entries of a text (R151). -/
def entries (text : List Byte) : List (List Byte × Option (List Byte)) := pairLines (lines text)

/-- LOAD as a function of the text (R151 to R157): the tree and its number of entries. -/
def loadTable (A lenMax : Nat) (text : List Byte) : Result (OptTree × Nat) :=
  if entries text = [] then .error { failure := .emptyTable, pos := 0 }
  else match loadLoop A lenMax (entries text) 0 (.node .absent .absent) [] with
    | .ok t => .ok (t, (entries text).length)
    | .error r => .error r

/-- LOAD with its check of the input length (R151, R157). -/
def loadInput (s : State) : Result (OptTree × Nat) :=
  if Config.params.tblCap < s.tblLen.toNat then .error { failure := .inputLen, pos := 0 }
  else loadTable Config.params.alphabet Config.params.codeLenMax (tblInput s)

/-- LOAD (R150, R157, R158). -/
def execLoad (s : State) : Host.Outcome State Fault Refusal :=
  .next <|
    match loadInput s with
    | .ok (t, n) => succeed (putTree s t n)
    | .error r => fail .load r s

end Sys2Proof.Machine
end

