-- ==== Sys2Proof/Machine/Transcoder.lean ====
section
/-! DEFINITION. The Stream Transcoder: ENCODE (42_transcoder.md R170 to R177) and DECODE (R180 to R189). -/

namespace Sys2Proof.Machine

/-- The loop of ENCODE (R175) from input item `i` on, with `n` bits written so far: the bits still to write. -/
def encodeLoop (cap : Nat) (t : OptTree) : List Nat → Nat → Nat → Result (List Bool)
  | [], _, _ => .ok []
  | s :: rest, i, n =>
    match t.codeOf s with
    | none => .error { failure := .unknownSymbol, pos := i }
    | some p =>
      if cap < n + p.length then .error { failure := .outputFull, pos := i }
      else match encodeLoop cap t rest (i + 1) (n + p.length) with
        | .ok bits => .ok (p ++ bits)
        | .error r => .error r

/-- ENCODE with its first two checks (R174, R175): the bits. -/
def encodeInput (s : State) : Result (List Bool) :=
  if s.tree = .absent then .error { failure := .noTree, pos := 0 }
  else if Config.params.symCap < s.symLen.toNat then .error { failure := .inputLen, pos := 0 }
  else encodeLoop Config.params.bitCap s.tree (symInput s) 0 0

/-- ENCODE (R170, R175, R176). -/
def execEncode (s : State) : Host.Outcome State Fault Refusal :=
  .next <|
    match encodeInput s with
    | .ok bits => succeed (putBits s bits)
    | .error r => fail .encode r s

/-- The loop of DECODE (R186) from bit `i` on: the cursor, its depth, and the number `m` of symbols emitted so far; the
symbols still to emit. At the end of the bits `i` is BIT_LEN (R184). -/
def decodeLoop (cap : Nat) (root : OptTree) : List Bool → Nat → OptTree → Nat → Nat → Result (List Nat)
  | [], i, _, depth, _ => if 0 < depth then .error { failure := .incompleteCode, pos := i } else .ok []
  | b :: rest, i, cur, depth, m =>
    match cur.child b with
    | .absent => .error { failure := .malformedStream, pos := i }
    | .leaf s =>
      if m = cap then .error { failure := .outputFull, pos := i }
      else match decodeLoop cap root rest (i + 1) root 0 (m + 1) with
        | .ok syms => .ok (s :: syms)
        | .error r => .error r
    | .node l r => decodeLoop cap root rest (i + 1) (.node l r) (depth + 1) m

/-- DECODE with its first two checks (R185, R186): the symbols. -/
def decodeInput (s : State) : Result (List Nat) :=
  if s.tree = .absent then .error { failure := .noTree, pos := 0 }
  else if Config.params.bitCap < s.bitLen.toNat then .error { failure := .inputLen, pos := 0 }
  else decodeLoop Config.params.symCap s.tree (bitInput s) 0 s.tree 0 0

/-- DECODE (R180, R186, R187). -/
def execDecode (s : State) : Host.Outcome State Fault Refusal :=
  .next <|
    match decodeInput s with
    | .ok syms => succeed (putSyms s syms)
    | .error r => fail .decode r s

end Sys2Proof.Machine
end

