-- ==== Sys2Proof/Machine/HostAccess.lean ====
section
/-! DEFINITION. What one event does to the core (20_memory.md R58 to R65): host reads and writes, commands, and, for an implementation
in which a command takes time, polls and the completion of a command (70_reset_and_hazards.md R239). -/

namespace Sys2Proof.Machine

/-- A host write of `w` to CMD (10_state.md R22): the command it encodes runs to completion; an illegal word is IllegalCommand
(30_encoding.md R83). -/
def issue (w : Word) (s : State) : Host.Outcome State Fault Refusal :=
  match decodeCmd w with
  | .ok i => exec i s
  | .error _ => .next (illegalCommand s)

/-- A CMD write in an implementation that takes time (R239): BUSY is 1 from now on. An illegal word completes at once
(R83). -/
def begin (w : Word) (s : State) : State :=
  match decodeCmd w with
  | .ok i => { s with running := some i }
  | .error _ => illegalCommand s

/-- The command in progress completes, with all its results (R239); without one the core is idle (R213; log 6). -/
def finish (s : State) : Host.Outcome State Fault Refusal :=
  match s.running with
  | some i => exec i s
  | none => .next s

/-- One event while the core is idle. -/
def idleEvent (ev : HostEvent) (s : State) : Host.Outcome State Fault Refusal :=
  match ev with
  | .read sp i =>
    if i < sp.cells then .next { s with rdata := some (cellRead s sp i) } else .refused (.noSuchCell sp i)
  | .write sp i v =>
    if sp.cells ≤ i then .refused (.noSuchCell sp i)
    else if 2 ^ sp.width ≤ v then .refused (.valueTooWide sp v)
    else if sp = .reg ∧ i = 0 then issue (BitVec.ofNat 32 v) s
    else .next (cellWrite s sp i v)
  | .start w =>
    if 2 ^ 32 ≤ w then .refused (.valueTooWide .reg w) else .next (begin (BitVec.ofNat 32 w) s)
  | .complete => finish s
  | .reset => .next (resetCore s)

/-- One event while command `i` is in progress (R239): the host may read STATUS and must make no other access. -/
def busyEvent (i : Instr) (ev : HostEvent) (s : State) : Host.Outcome State Fault Refusal :=
  match ev with
  | .read sp n =>
    if sp = .reg ∧ n = 1 then .next { s with rdata := some (s.busyStatus i), polls := s.polls + 1 }
    else .fault .hostAccessWhileBusy
  | .write _ _ _ => .fault .hostAccessWhileBusy
  | .start _ => .fault .hostAccessWhileBusy
  | .complete => finish s
  | .reset => .next (resetCore s)

/-- One event. -/
def hostEvent (ev : HostEvent) (s : State) : Host.Outcome State Fault Refusal :=
  match s.running with
  | none => idleEvent ev s
  | some i => busyEvent i ev s

end Sys2Proof.Machine
end

