-- ==== Sys2Proof/Machine/Step.lean ====
section
/-! DEFINITION. One step of the machine: the oldest event that is pending, performed whole (00_scope.md R13, 20_memory.md R64, R65). The core
fetches nothing (10_state.md R28): a command comes with the host's write to CMD. -/

namespace Sys2Proof.Machine

/-- One step. Without a pending event the core does nothing but complete a command in progress (R213, R245; log 9). -/
def step (s : State) : Host.Outcome State Fault Refusal :=
  match s.pending with
  | [] => finish s
  | ev :: rest => hostEvent ev { s with pending := rest }

/-- `s` with the command word placed where the next step takes it from: a CMD write as the next event of the host, and no
command in progress (log 4). -/
def State.withFetchWord (s : State) (nbits w : Nat) : State :=
  { s with pending := .write .reg 0 (tableWord nbits w) :: s.pending, running := none }

end Sys2Proof.Machine
end

