-- ==== Sys2Proof/Machine/Script.lean ====
section
/-! DEFINITION. The host script notation (30_encoding.md R106, R107): a script is a list of host accesses, placed in the queue the step
reads. It is notation for the host's side; the core itself has no program (10_state.md R28). -/

namespace Sys2Proof.Machine

/-- `BUILD`, `SAVE`, `LOAD`, `ENCODE`, `DECODE` (R106): a host write of the command word to CMD. -/
def cmdLine (i : Instr) : HostEvent := .write .reg 0 (encode i).toNat

/-- `WR SYM_LEN, v`, `WR BIT_LEN, v`, `WR TBL_LEN, v` (R106): registers 4, 5, 6 (10_state.md R21). -/
def wrSymLen (v : Nat) : HostEvent := .write .reg 4 v

def wrBitLen (v : Nat) : HostEvent := .write .reg 5 v

def wrTblLen (v : Nat) : HostEvent := .write .reg 6 v

/-- `FILL SPACE[i..j], v` (R107), both ends included. -/
def fillLines (sp : Space) (i j v : Nat) : List HostEvent :=
  (List.range (j + 1 - i)).map fun k => .write sp (i + k) v

/-- `PUT SPACE[i], [v0, ..., vm]` (R107). -/
def putLines (sp : Space) (i : Nat) (vs : List Nat) : List HostEvent :=
  (vs.zipIdx i).map fun e => .write sp e.2 e.1

/-- `PUTSYM [v0, ..., vm]` (R107). -/
def putSymLines (vs : List Nat) : List HostEvent := putLines .sym 0 vs ++ [wrSymLen vs.length]

/-- `PUTBITS "b0b1...bm"` (R107). -/
def putBitsLines (bs : List Bool) : List HostEvent := putLines .bit 0 (bs.map Bool.toNat) ++ [wrBitLen bs.length]

/-- `PUTTBL "text"` (R107). -/
def putTblLines (text : List Byte) : List HostEvent :=
  putLines .tbl 0 (text.map BitVec.toNat) ++ [wrTblLen text.length]

/-- A state with a script as the host's next accesses. -/
def State.withScript (s : State) (evs : List HostEvent) : State := { s with pending := evs ++ s.pending }

end Sys2Proof.Machine
end

