-- ==== Sys2Proof/Safety.lean ====
section
/-! DEFINITION. What counts as a safe step, what the host owes for it (20_memory.md R58 to R62, 70_reset_and_hazards.md R239), and the
invariant of the machine: the canonical form of the memories, a valid TREE (10_state.md R36 to R39), NLEAF (R26), and the
legal contents of ERR and ERRPOS (R24). -/

namespace Sys2Proof.Machine

/-- A safe step: the machine goes on. -/
def Safe (s : State) : Prop := ∃ t, step s = .next t

/-- May the host make this access now? While the core is idle: a well-formed access (R58 to R62, U6, U7). While a command is
in progress: only a read of STATUS (R239); completion and reset are no accesses of the host. -/
def HostEvent.allowed (busy : Bool) (ev : HostEvent) : Bool :=
  if busy then
    match ev with
    | .read sp n => sp == .reg && n == 1
    | .write _ _ _ => false
    | .start _ => false
    | .complete => true
    | .reset => true
  else ev.wf

/-- The host's next access, if there is one, is one it may make. -/
def HostObeys (s : State) : Prop := ∀ ev ∈ s.pending.head?, ev.allowed s.running.isSome = true

/-- Every cell of the space reads as before and is unspecified just when it was before (R70). -/
def SameCells (sp : Space) (s t : State) : Prop :=
  ∀ i, cellRead t sp i = cellRead s sp i ∧ t.unspecified sp i = s.unspecified sp i

/-- What a table entry reads as (30_encoding.md R101, R102): its symbol, none for BAD_SYMBOL, and its code-string or what is wrong with
it. -/
def readEntry (e : List Byte × Option (List Byte)) : Option Nat × Except Failure (List Bool) :=
  (parseSym Config.params.alphabet e.1, parseCode Config.params.codeLenMax e.2)

/-- A valid TREE of the reference configuration (R36 to R39). -/
abbrev ValidTree (t : OptTree) : Prop := t.Valid Config.params.alphabet Config.params.codeLenMax

/-- The invariant. -/
structure Inv (s : State) : Prop where
  freqWf : s.freq.wf
  symWf : s.sym.wf
  bitWf : s.bit.wf
  tblWf : s.tbl.wf
  freqIn : s.freq.within Space.freq.cells
  symIn : s.sym.within Space.sym.cells
  bitIn : s.bit.within Space.bit.cells
  tblIn : s.tbl.within Space.tbl.cells
  tree : s.tree = .absent ∨ ValidTree s.tree
  nleaf : s.nleaf.toNat = s.tree.leafCount
  err : (s.err = 0 ∧ s.errpos = 0) ∨ ∃ f, s.err = errWord f

/-- The states a host script leads to from reset (R45, R65). -/
inductive Reachable : State → Prop
  | reset (evs : List HostEvent) : Reachable (State.reset.withScript evs)
  | step {s t : State} : Reachable s → step s = .next t → Reachable t

end Sys2Proof.Machine
end

