-- ==== Sys2Proof/Certificates/Slice0/Obligations.lean ====
section
/-! DEFINITION. The statements about the core, from the numbered rules of spec/. -/

open Sys2Proof Sys2Proof.Machine

/-! ## Reset, registers and memories -/

/-- R231 (and R45): the state after reset. Every register reads 0, there is no tree, no command is in progress, and every
cell of the four memories is unspecified. -/
def Obligations.ResetStateIsTheSpecs : Prop :=
  (∀ n, n < 8 → regRead State.reset n = 0) ∧ State.reset.tree = .absent ∧ State.reset.running = none ∧
    ∀ sp, sp ≠ .reg → ∀ i, State.reset.unspecified sp i = true

/-- R230: a reset event, at any time, also while a command runs (which is abandoned): idle, no tree, every register 0, every
cell unspecified. -/
def Obligations.ResetEventGivesTheResetState : Prop :=
  ∀ (s : State) (rest : List HostEvent), s.pending = .reset :: rest →
    ∃ t, step s = .next t ∧ (∀ n, n < 8 → regRead t n = 0) ∧ t.tree = .absent ∧ t.running = none ∧
      (∀ sp, sp ≠ .reg → ∀ i, t.unspecified sp i = true) ∧ t.pending = rest

/-- R60: what a host read of each register returns, and that it changes nothing (`rdata` is what the host was given, log
5). STATUS is spelled out bit by bit (R23). -/
def Obligations.HostReadOfRegister : Prop :=
  ∀ (s : State) (rest : List HostEvent) (n : Nat), s.running = none → s.pending = .read .reg n :: rest → n < 8 →
    ∃ v : Word, step s = .next { s with pending := rest, rdata := some v } ∧
      (n = 0 → v = 0) ∧
      (n = 1 → v.getLsbD 0 = false ∧ (v.getLsbD 1 = true ↔ s.tree ≠ .absent) ∧ ∀ k, 2 ≤ k → v.getLsbD k = false) ∧
      (n = 2 → v = s.err) ∧ (n = 3 → v = s.errpos) ∧ (n = 4 → v = s.symLen) ∧ (n = 5 → v = s.bitLen) ∧
      (n = 6 → v = s.tblLen) ∧ (n = 7 → v = s.nleaf ∧ (Inv s → v.toNat = s.tree.leafCount))

/-- R61: what a host write of each register does. CMD issues a command, the length registers store the value, the others
ignore it. -/
def Obligations.HostWriteOfRegister : Prop :=
  ∀ (s : State) (rest : List HostEvent) (n v : Nat), s.running = none → s.pending = .write .reg n v :: rest → n < 8 →
    v < 2 ^ 32 →
    (n = 0 → step s = issue (BitVec.ofNat 32 v) { s with pending := rest }) ∧
    (n = 4 → step s = .next { s with pending := rest, symLen := BitVec.ofNat 32 v }) ∧
    (n = 5 → step s = .next { s with pending := rest, bitLen := BitVec.ofNat 32 v }) ∧
    (n = 6 → step s = .next { s with pending := rest, tblLen := BitVec.ofNat 32 v }) ∧
    (n = 1 ∨ n = 2 ∨ n = 3 ∨ n = 7 → step s = .next { s with pending := rest })

/-- R58: a host read of a memory cell returns its current value (the known one, where the cell is not unspecified), and
changes nothing. -/
def Obligations.HostReadOfCell : Prop :=
  ∀ (s : State) (rest : List HostEvent) (sp : Space) (i : Nat), s.running = none → s.pending = .read sp i :: rest →
    sp ≠ .reg → i < sp.cells →
    ∃ v : Word, step s = .next { s with pending := rest, rdata := some v } ∧ v.toNat < 2 ^ sp.width ∧
      (∀ x, sp = .freq → s.freq.known i = some x → v.toNat = x.toNat) ∧
      (∀ x, sp = .sym → s.sym.known i = some x → v.toNat = x.toNat) ∧
      (∀ x, sp = .bit → s.bit.known i = some x → v.toNat = x.toNat) ∧
      (∀ x, sp = .tbl → s.tbl.known i = some x → v.toNat = x.toNat)

/-- R59: a host write of a memory cell sets the cell and changes nothing else: no other cell of any memory, no register
(no length register, not ERR), not TREE. -/
def Obligations.HostWriteOfCell : Prop :=
  ∀ (s : State) (rest : List HostEvent) (sp : Space) (i v : Nat), s.running = none →
    s.pending = .write sp i v :: rest → sp ≠ .reg → i < sp.cells → v < 2 ^ sp.width →
    ∃ t, step s = .next t ∧ (cellRead t sp i).toNat = v ∧ t.unspecified sp i = false ∧
      (∀ j, j ≠ i → cellRead t sp j = cellRead s sp j ∧ t.unspecified sp j = s.unspecified sp j) ∧
      (∀ sp', sp' ≠ sp → SameCells sp' s t) ∧
      t.tree = s.tree ∧ t.running = none ∧ t.pending = rest ∧ t.rdata = s.rdata

/-- The machine goes on exactly when the host makes an access it may make: an index inside the space (R62), a value that
fits the cell (R59), and, while a command is in progress, nothing but a read of STATUS (R239). Any other access stops it, by
name (logs 7 and 8). -/
def Obligations.StepGoesOnIffHostObeys : Prop :=
  (∀ s : State, Safe s ↔ HostObeys s) ∧
  (∀ (s : State) (rest : List HostEvent) (sp : Space) (i v : Nat), s.running = none →
    (sp.cells ≤ i →
      (s.pending = .read sp i :: rest → step s = .refused (.noSuchCell sp i)) ∧
      (s.pending = .write sp i v :: rest → step s = .refused (.noSuchCell sp i))) ∧
    (i < sp.cells → 2 ^ sp.width ≤ v → s.pending = .write sp i v :: rest → step s = .refused (.valueTooWide sp v))) ∧
  (∀ (s : State) (rest : List HostEvent) (w : Nat), s.running = none → 2 ^ 32 ≤ w → s.pending = .start w :: rest →
    step s = .refused (.valueTooWide .reg w)) ∧
  ∀ (s : State) (rest : List HostEvent) (ev : HostEvent), s.running ≠ none → s.pending = ev :: rest →
    ev.allowed true = false → step s = .fault .hostAccessWhileBusy

/-! ## The command word -/

/-- R82: `w` is a legal command exactly when `w[31:8] = 0` and `w[7:0]` is in 1 .. 5; equivalently, the whole word is one of
the five. -/
def Obligations.LegalCommandWords : Prop :=
  (∀ w : Word, (∃ i, decodeCmd w = .ok i) ↔
    w.extractLsb' 8 24 = 0 ∧ 1 ≤ (w.extractLsb' 0 8).toNat ∧ (w.extractLsb' 0 8).toNat ≤ 5) ∧
  ∀ w : Word, (decodeCmd w = .ok .build ↔ w = 0x00000001) ∧ (decodeCmd w = .ok .save ↔ w = 0x00000002) ∧
    (decodeCmd w = .ok .load ↔ w = 0x00000003) ∧ (decodeCmd w = .ok .encode ↔ w = 0x00000004) ∧
    (decodeCmd w = .ok .decode ↔ w = 0x00000005)

/-- Decode and encode agree, both ways (R81, R82). -/
def Obligations.CommandWordRoundTrip : Prop :=
  (∀ i : Instr, i.wf = true ∧ decodeCmd (encode i) = .ok i) ∧ ∀ (w : Word) (i : Instr), decodeCmd w = .ok i → w = encode i

/-- R83: every other word is IllegalCommand; only ERR and ERRPOS are written. The second part says it of a step. -/
def Obligations.IllegalCommandOnlyReports : Prop :=
  (∀ (s : State) (w : Word), w ≠ 1 → w ≠ 2 → w ≠ 3 → w ≠ 4 → w ≠ 5 →
    issue w s = .next { s with err := 0x00000008, errpos := 0 }) ∧
  ∀ (s : State) (rest : List HostEvent) (w : Nat), s.running = none → s.pending = .write .reg 0 w :: rest → w < 2 ^ 32 →
    (w = 0 ∨ 6 ≤ w) → step s = .next { s with pending := rest, err := 0x00000008, errpos := 0 }

/-- A step runs the decoded command (R13, R22): a CMD write of its word, by the host's next access or placed there by
`withFetchWord`, is one step that is the command's meaning. -/
def Obligations.StepRunsTheIssuedCommand : Prop :=
  (∀ (s : State) (rest : List HostEvent) (w : Nat) (i : Instr), s.running = none → s.pending = .write .reg 0 w :: rest →
    w < 2 ^ 32 → decodeCmd (BitVec.ofNat 32 w) = .ok i → step s = exec i { s with pending := rest }) ∧
  ∀ (s : State) (nbits w : Nat) (i : Instr), decodeTableWord nbits w = some i →
    step (s.withFetchWord nbits w) = exec i { s with running := none }

/-! ## BUILD -/

/-- R127: BUILD with a frequency above 0 succeeds: TREE is the tree of the algorithm (R126), NLEAF its number of leaves,
ERR and ERRPOS are 0, STATUS reads TREE_VALID 1; FREQ, SYM, BIT, TBL and the length registers are unchanged. The tree is
valid and its leaves are exactly the symbols with a frequency above 0 (R130 (a), (b)). -/
def Obligations.BuildSucceeds : Prop :=
  ∀ (s : State) (a : Nat), a < 256 → s.freq.read .freq a ≠ 0 →
    ∃ (t : OptTree) (u : State), buildTree 256 (freqInput s) = .ok (t, t.leafCount) ∧ exec .build s = .next u ∧
      u = { s with tree := t, nleaf := BitVec.ofNat 32 t.leafCount, err := 0, errpos := 0, running := none } ∧
      u.status = 0x00000002 ∧ ValidTree t ∧ t.leafCount ≤ 256 ∧
      t.symbols.Perm ((List.range 256).filter fun b => s.freq.read .freq b ≠ 0)

/-- R122, R128: BUILD of a table of zeros fails with InvalidInput, SUB 0, position 0; TREE and NLEAF are lost and STATUS reads
TREE_VALID 0, also when there was a valid tree; nothing else changes. -/
def Obligations.BuildOfZerosFails : Prop :=
  ∀ s : State, (∀ a, a < 256 → s.freq.read .freq a = 0) →
    ∃ u, exec .build s = .next u ∧ u.status = 0 ∧
      u = { s with tree := .absent, nleaf := 0, err := 0x00000001, errpos := 0, running := none }

/-- R125: one symbol alone is the left child of a root without a right child; its code is the one bit 0. -/
def Obligations.BuildOfSingleSymbol : Prop :=
  ∀ (s : State) (a : Nat), a < 256 → s.freq.read .freq a ≠ 0 → (∀ b, b < 256 → b ≠ a → s.freq.read .freq b = 0) →
    exec .build s = .next { s with tree := .node (.leaf a) .absent, nleaf := 1, err := 0, errpos := 0, running := none } ∧
      (OptTree.node (.leaf a) .absent).codeOf a = some [false]

/-- Two symbols (R133, R123, R124): the one of lower frequency is the left child, and of two equal ones the lower
symbol. -/
def Obligations.BuildOfTwoSymbols : Prop :=
  ∀ (s : State) (a b : Nat), a < b → b < 256 → s.freq.read .freq a ≠ 0 → s.freq.read .freq b ≠ 0 →
    (∀ c, c < 256 → c ≠ a → c ≠ b → s.freq.read .freq c = 0) →
    exec .build s = .next { s with
      tree := if (s.freq.read .freq a).toNat ≤ (s.freq.read .freq b).toNat then .node (.leaf a) (.leaf b)
              else .node (.leaf b) (.leaf a)
      nleaf := 2, err := 0, errpos := 0, running := none }

/-- With two or more symbols the built tree is full (R40, R130 (a)). -/
def Obligations.BuildOfManyIsFull : Prop :=
  ∀ (s t : State) (a b : Nat), a < b → b < 256 → s.freq.read .freq a ≠ 0 → s.freq.read .freq b ≠ 0 →
    exec .build s = .next t → t.tree.full = true ∧ t.tree.depth < t.tree.leafCount

/-- Optimality (R130 (d)): no assignment of codes that are not empty and of which none is a prefix of another's gives a
smaller sum of frequency times code length. -/
def Obligations.BuildIsOptimal : Prop :=
  ∀ (s t : State), exec .build s = .next t → t.err = 0 → ∀ c : Nat → List Bool,
    (∀ a b, a < 256 → b < 256 → s.freq.read .freq a ≠ 0 → s.freq.read .freq b ≠ 0 → a ≠ b → ¬ c a <+: c b) →
    (∀ a, a < 256 → s.freq.read .freq a ≠ 0 → c a ≠ []) →
    ((List.range 256).map fun a => (s.freq.read .freq a).toNat * ((t.tree.codeOf a).getD []).length).sum
      ≤ ((List.range 256).map fun a => (s.freq.read .freq a).toNat * (c a).length).sum

/-- R130 (e): the weighted sum of a built tree is the sum of the frequencies of its Internal nodes, and the frequency of
the root is the sum of all FREQ cells. -/
def Obligations.BuildCostIsInternalSum : Prop :=
  ∀ (s t : State), exec .build s = .next t → t.err = 0 →
    ((List.range 256).map fun a => (s.freq.read .freq a).toNat * ((t.tree.codeOf a).getD []).length).sum
      = t.tree.internalSum (fun a => (s.freq.read .freq a).toNat) ∧
    t.tree.weight (fun a => (s.freq.read .freq a).toNat)
      = ((List.range 256).map fun a => (s.freq.read .freq a).toNat).sum

/-- R131: BUILD is a function of the 256 FREQ cells alone. -/
def Obligations.BuildDependsOnFreqOnly : Prop :=
  ∀ (s s' t t' : State), (∀ a, a < 256 → s.freq.read .freq a = s'.freq.read .freq a) →
    exec .build s = .next t → exec .build s' = .next t' →
    t.tree = t'.tree ∧ t.nleaf = t'.nleaf ∧ t.err = t'.err ∧ t.errpos = t'.errpos

/-- Equal frequencies (R133): with all 256 cells equal and not 0 the code of a symbol is the symbol in 8 binary digits,
most significant first. -/
def Obligations.BuildOfEqualFrequencies : Prop :=
  ∀ (s : State) (f : Word), f ≠ 0 → (∀ a, a < 256 → s.freq.read .freq a = f) →
    ∃ t, exec .build s = .next t ∧ t.nleaf = 256 ∧
      ∀ a, a < 256 → t.tree.codeOf a = some ((List.range 8).map fun k => a.testBit (7 - k))

/-- `remove_min` (R123, R126): it removes the item that comes first by frequency and then sequence number, and where an item
stands in the collection has no meaning. -/
def Obligations.QueueRemovesTheLeast : Prop :=
  (∀ (q rest : List Item) (x : Item), removeMin q = some (x, rest) → (q.map Item.seq).Nodup →
    q.Perm (x :: rest) ∧ ∀ y ∈ rest, x.freq < y.freq ∨ (x.freq = y.freq ∧ x.seq < y.seq)) ∧
  (∀ q : List Item, q ≠ [] → ∃ x rest, removeMin q = some (x, rest)) ∧
  ∀ (A : Nat) (q q' : List Item), q.Perm q' → (q.map Item.seq).Nodup → (∀ x ∈ q, x.seq < A) →
    itemsTree A q = itemsTree A q'

/-- What BUILD and LOAD leave alone (R52, R120, R150), whether they succeed or fail: every cell of every memory, every length
register. -/
def Obligations.TreeWritersFrame : Prop :=
  ∀ (i : Instr) (s t : State), i = .build ∨ i = .load → exec i s = .next t →
    SameCells .freq s t ∧ SameCells .sym s t ∧ SameCells .bit s t ∧ SameCells .tbl s t ∧
    t.symLen = s.symLen ∧ t.bitLen = s.bitLen ∧ t.tblLen = s.tblLen ∧ t.pending = s.pending ∧ t.rdata = s.rdata

/-! ## SAVE -/

/-- R145 (with R142): what SAVE writes on success and on failure; and that with a valid tree it succeeds (R7 (b)). -/
def Obligations.SaveWritesTheTable : Prop :=
  (∀ s : State, Inv s → s.tree ≠ .absent → ∃ t, exec .save s = .next t ∧ t.err = 0) ∧
  (∀ s t : State, exec .save s = .next t → t.err = 0 →
    t.errpos = 0 ∧ t.tblLen.toNat = (fmt s.tree.pairs).length ∧ tblInput t = fmt s.tree.pairs ∧
    (∀ k, (fmt s.tree.pairs).length ≤ k → t.tbl.read .tbl k = s.tbl.read .tbl k) ∧ t.tree = s.tree) ∧
  ∀ s t : State, exec .save s = .next t → t.err ≠ 0 →
    t.tblLen = 0 ∧ (∀ k, t.unspecified .tbl k = true) ∧
    (∃ r : Raise, saveTree 131072 s.tree = .error r ∧ t.err = errWord r.failure ∧ t.errpos = BitVec.ofNat 32 r.pos) ∧ t.tree = s.tree

/-- R141 (with R174, R185, R205): without a tree SAVE, ENCODE and DECODE fail with NoTree, sub-cause 0, position 0, before anything
else is checked; the output length is 0 and the output memory unspecified; nothing else changes. -/
def Obligations.NoTreeComesFirst : Prop :=
  ∀ s : State, s.tree = .absent →
    exec .save s = .next { s with err := 0x00000006, errpos := 0, tblLen := 0, tbl := s.tbl.scramble, running := none } ∧
    exec .encode s = .next { s with err := 0x00000006, errpos := 0, bitLen := 0, bit := s.bit.scramble, running := none } ∧
    exec .decode s = .next { s with err := 0x00000006, errpos := 0, symLen := 0, sym := s.sym.scramble, running := none }

/-- R143: for every capacity, SAVE writes the whole text when it fits, and otherwise fails with OUTPUT_FULL at the first
pair that does not fit; with the reference capacity and a valid tree it fits. -/
def Obligations.SaveFailsAtFirstPairThatDoesNotFit : Prop :=
  (∀ (cap : Nat) (t : OptTree), t ≠ .absent → (fmt t.pairs).length ≤ cap → saveTree cap t = .ok (fmt t.pairs)) ∧
  (∀ (cap : Nat) (t : OptTree), t ≠ .absent → cap < (fmt t.pairs).length →
    ∃ k, k < t.pairs.length ∧ (fmt (t.pairs.take k)).length ≤ cap ∧ cap < (fmt (t.pairs.take (k + 1))).length ∧
      saveTree cap t = .error { failure := .outputFull, pos := k }) ∧
  ∀ t : OptTree, ValidTree t → (fmt t.pairs).length ≤ 131072

/-! ## The table text -/

/-- R99: the text of a pair list, and its length. -/
def Obligations.TextOfPairList : Prop :=
  fmt [] = [] ∧
  (∀ (s : Nat) (p : List Bool) (rest : List (Nat × List Bool)),
    fmt ((s, p) :: rest) = decText s ++ [0x0A] ++ p.map (fun b => if b then 0x31 else 0x30) ++ [0x0A] ++ fmt rest) ∧
  ∀ P : List (Nat × List Bool), (fmt P).length = (P.map fun e => (decText e.1).length + e.2.length + 2).sum

/-- R96: `dec(s)` is made of digits, writes `s`, has no leading zero, and no other string of digits that writes `s` is
shorter; with the rule's examples. -/
def Obligations.DecimalIsShortest : Prop :=
  decText 0 = [0x30] ∧ decText 65 = [0x36, 0x35] ∧ decText 102 = [0x31, 0x30, 0x32] ∧ decText 7 = [0x37] ∧
  ∀ n : Nat, decText n ≠ [] ∧ (∀ c ∈ decText n, 0x30 ≤ c.toNat ∧ c.toNat ≤ 0x39) ∧
    Nat.ofDigits 10 ((decText n).map fun c => c.toNat - 0x30).reverse = n ∧
    (0 < n → (decText n).head? ≠ some 0x30) ∧
    ∀ line : List Byte, line ≠ [] → (∀ c ∈ line, 0x30 ≤ c.toNat ∧ c.toNat ≤ 0x39) →
      Nat.ofDigits 10 (line.map fun c => c.toNat - 0x30).reverse = n → (decText n).length ≤ line.length

/-- R100: the lines of a text. No line holds a line feed; the lines, each with a line feed after it, are the text, completed
with one where it is missing at the end; and there are as many as line feeds, or one more. With the rule's examples. -/
def Obligations.LinesOfText : Prop :=
  (∀ t : List Byte, (∀ l ∈ lines t, (0x0A : Byte) ∉ l) ∧
    (lines t).flatMap (fun l => l ++ [0x0A]) = (if t = [] ∨ t.getLast? = some 0x0A then t else t ++ [0x0A]) ∧
    (lines t).length = t.count 0x0A + if t = [] ∨ t.getLast? = some 0x0A then 0 else 1) ∧
  lines [0x36, 0x35, 0x0A, 0x30, 0x0A] = [[0x36, 0x35], [0x30]] ∧ lines [0x36, 0x35, 0x0A, 0x30] = [[0x36, 0x35], [0x30]] ∧
  lines [0x36, 0x35, 0x0A] = [[0x36, 0x35]] ∧ lines [0x36, 0x35, 0x0A, 0x0A] = [[0x36, 0x35], []] ∧
  lines [0x0A] = [[]] ∧ lines [] = []

/-- R101: what a symbol line reads as, for every alphabet size. The value is exact: nothing wraps. -/
def Obligations.SymbolLineReads : Prop :=
  ∀ (A : Nat) (line : List Byte) (v : Nat), parseSym A line = some v ↔
    line ≠ [] ∧ (∀ c ∈ line, 0x30 ≤ c.toNat ∧ c.toNat ≤ 0x39) ∧
    Nat.ofDigits 10 (line.map fun c => c.toNat - 0x30).reverse = v ∧ v < A

/-- R102, R103: how lines pair up into entries, and what a code line reads as, its three checks in order on the whole line. -/
def Obligations.EntriesAndCodeLines : Prop :=
  (∀ L : List (List Byte), (pairLines L).length = (L.length + 1) / 2 ∧
    ∀ k, k < (L.length + 1) / 2 → (pairLines L)[k]? = some (L.getD (2 * k) [], L[2 * k + 1]?)) ∧
  ∀ (lenMax : Nat), parseCode lenMax none = .error .emptyCode ∧ parseCode lenMax (some []) = .error .emptyCode ∧
    ∀ line : List Byte, line ≠ [] →
      ((∃ c ∈ line, c ≠ 0x30 ∧ c ≠ 0x31) → parseCode lenMax (some line) = .error .badCodeChar) ∧
      ((∀ c ∈ line, c = 0x30 ∨ c = 0x31) →
        (lenMax < line.length → parseCode lenMax (some line) = .error .codeTooLong) ∧
        (line.length ≤ lenMax → parseCode lenMax (some line) = .ok (line.map fun c => c = 0x31)))

/-- R105: the format round-trips exactly, for every alphabet size and code length limit. -/
def Obligations.FormatRoundTrip : Prop :=
  ∀ (A lenMax : Nat) (P : List (Nat × List Bool)),
    (∀ e ∈ P, e.1 < A ∧ e.2 ≠ [] ∧ e.2.length ≤ lenMax) →
    (lines (fmt P)).length = 2 * P.length ∧
    ((pairLines (lines (fmt P))).map fun e => (parseSym A e.1, parseCode lenMax e.2)) = P.map fun e => (some e.1, .ok e.2)

/-! ## LOAD -/

/-- R153, R154: an insertion below an Internal node conflicts exactly when the path is equal to the path of a leaf, a strict
prefix of one, or has one as a strict prefix; otherwise it adds the one pair and leaves no bare node. -/
def Obligations.InsertionConflictsOnPrefixes : Prop :=
  ∀ (s : Nat) (p : List Bool) (n : OptTree), p ≠ [] → n.isNode = true → (∀ b, (n.child b).noBareNode = true) →
    (insertPath s p n = none ↔ ∃ a q, (a, q) ∈ n.pairs ∧ (q <+: p ∨ p <+: q)) ∧
    ∀ t, insertPath s p n = some t → t.isNode = true ∧ t.noBareNode = true ∧ t.pairs.Perm ((s, p) :: n.pairs)

/-- R152: the six checks of an entry in their order, and that the first entry that fails one ends LOAD with its index, the
entries after it not looked at. -/
def Obligations.LoadReportsFirstFailingEntry : Prop :=
  (∀ (A lenMax : Nat) (sl : List Byte) (cl : Option (List Byte)) (n : OptTree) (placed : List Nat),
    (parseSym A sl = none → loadEntry A lenMax (sl, cl) n placed = .error .badSymbol) ∧
    ∀ s, parseSym A sl = some s →
      (cl = none ∨ cl = some [] → loadEntry A lenMax (sl, cl) n placed = .error .emptyCode) ∧
      ∀ line, cl = some line → line ≠ [] →
        ((∃ c ∈ line, c ≠ 0x30 ∧ c ≠ 0x31) → loadEntry A lenMax (sl, cl) n placed = .error .badCodeChar) ∧
        ((∀ c ∈ line, c = 0x30 ∨ c = 0x31) →
          (lenMax < line.length → loadEntry A lenMax (sl, cl) n placed = .error .codeTooLong) ∧
          (line.length ≤ lenMax →
            (s ∈ placed → loadEntry A lenMax (sl, cl) n placed = .error .dupSymbol) ∧
            (s ∉ placed →
              (insertPath s (line.map fun c => c = 0x31) n = none →
                loadEntry A lenMax (sl, cl) n placed = .error .pathConflict) ∧
              ∀ t, insertPath s (line.map fun c => c = 0x31) n = some t →
                loadEntry A lenMax (sl, cl) n placed = .ok (t, s))))) ∧
  ∀ (s : State) (pre post : List (List Byte × Option (List Byte))) (e : List Byte × Option (List Byte)) (t : OptTree)
    (f : Failure), s.tblLen.toNat ≤ 131072 → entries (tblInput s) = pre ++ e :: post →
    loadLoop 256 255 pre 0 (.node .absent .absent) [] = .ok t → loadEntry 256 255 e t t.symbols = .error f →
    exec .load s = .next { s with
      tree := .absent, nleaf := 0, err := errWord f, errpos := BitVec.ofNat 32 pre.length, running := none }

/-- LOAD completes (R157, R158, R160): every text whose entries read as a list of pairs with different symbols of the
alphabet and codes of which none is a prefix of another loads, whether the code is complete or not. -/
def Obligations.LoadAcceptsEveryPrefixCode : Prop :=
  ∀ (s : State) (P : List (Nat × List Bool)), s.tblLen.toNat ≤ 131072 → P ≠ [] →
    (entries (tblInput s)).map readEntry = P.map (fun e => (some e.1, .ok e.2)) →
    (∀ e ∈ P, e.1 < 256 ∧ e.2 ≠ [] ∧ e.2.length ≤ 255) → (P.map Prod.fst).Nodup →
    P.Pairwise (fun x y => ¬ x.2 <+: y.2 ∧ ¬ y.2 <+: x.2) →
    ∃ t : OptTree, exec .load s = .next { s with
        tree := t, nleaf := BitVec.ofNat 32 P.length, err := 0, errpos := 0, running := none } ∧
      ValidTree t ∧ t.pairs.Perm P

/-- What a successful LOAD leaves, and that it does not depend on the order of the entries (R158, R159): the pairs of TREE
are the entries of the table, NLEAF their number, TREE is valid; a table with the same entries in another order that loads
gives the same TREE. -/
def Obligations.LoadedTreeIsTheTable : Prop :=
  (∀ s t : State, exec .load s = .next t → t.err = 0 →
    ∃ P : List (Nat × List Bool), (entries (tblInput s)).map readEntry = P.map (fun e => (some e.1, .ok e.2)) ∧
      t.tree.pairs.Perm P ∧ t.nleaf = BitVec.ofNat 32 P.length ∧ ValidTree t.tree) ∧
  ∀ s s' t t' : State, exec .load s = .next t → t.err = 0 → exec .load s' = .next t' → t'.err = 0 →
    ((entries (tblInput s)).map fun e => (parseSym 256 e.1, (parseCode 255 e.2).toOption)).Perm
      ((entries (tblInput s')).map fun e => (parseSym 256 e.1, (parseCode 255 e.2).toOption)) → t.tree = t'.tree

/-- R151, R156: a length register above the capacity is INPUT_LEN at position 0, before any cell is read; an empty text is
EMPTY_TABLE at position 0. Both destroy the tree (R158). -/
def Obligations.LoadLengthChecks : Prop :=
  ∀ s : State,
    (131072 < s.tblLen.toNat →
      exec .load s = .next { s with tree := .absent, nleaf := 0, err := 0x00000107, errpos := 0, running := none }) ∧
    (s.tblLen = 0 →
      exec .load s = .next { s with tree := .absent, nleaf := 0, err := 0x00000602, errpos := 0, running := none })

/-- Round trip of the table (R159): SAVE of a valid tree, then LOAD with TBL and TBL_LEN as SAVE left them, whatever else
the host has changed in between, gives back the same TREE and NLEAF. -/
def Obligations.SaveThenLoadRestoresTheTree : Prop :=
  ∀ s : State, Inv s → s.tree ≠ .absent → ∃ s₁, exec .save s = .next s₁ ∧ s₁.err = 0 ∧
    ∀ s₂ : State, s₂.tbl = s₁.tbl → s₂.tblLen = s₁.tblLen →
      ∃ s₃, exec .load s₂ = .next s₃ ∧ s₃.err = 0 ∧ s₃.tree = s.tree ∧ s₃.nleaf = s.nleaf

/-! ## ENCODE -/

/-- R172, R176: ENCODE writes the codes of the symbols one after the other from BIT[0] on, BIT_LEN is their length, cells
beyond keep their values; on a failure BIT_LEN is 0 and every cell of BIT is unspecified. The first part says when it
succeeds. -/
def Obligations.EncodeWritesTheCodes : Prop :=
  (∀ s : State, s.tree ≠ .absent → s.symLen.toNat ≤ 65536 → (∀ a ∈ symInput s, s.tree.codeOf a ≠ none) →
    (s.tree.codes (symInput s)).length ≤ 1048576 → ∃ t, exec .encode s = .next t ∧ t.err = 0) ∧
  (∀ s t : State, exec .encode s = .next t → t.err = 0 →
    t.errpos = 0 ∧ (∀ a ∈ symInput s, s.tree.codeOf a ≠ none) ∧
    t.bitLen.toNat = (s.tree.codes (symInput s)).length ∧ bitInput t = s.tree.codes (symInput s) ∧
    (∀ k, (s.tree.codes (symInput s)).length ≤ k → t.bit.read .bit k = s.bit.read .bit k) ∧
    SameCells .sym s t ∧ t.symLen = s.symLen ∧ t.tree = s.tree) ∧
  ∀ s t : State, exec .encode s = .next t → t.err ≠ 0 →
    t.bitLen = 0 ∧ (∀ k, t.unspecified .bit k = true) ∧
    (∃ r : Raise, encodeInput s = .error r ∧ t.err = errWord r.failure ∧ t.errpos = BitVec.ofNat 32 r.pos) ∧
    SameCells .sym s t ∧ t.symLen = s.symLen ∧ t.tree = s.tree

/-- R173, R174: what ENCODE checks and in which order. NoTree first, then the input length, then item by item: a symbol
without a leaf is UnknownSymbol at its index, before the check that its code fits, which is OUTPUT_FULL at its index. -/
def Obligations.EncodeChecksInOrder : Prop :=
  ∀ s : State,
    (s.tree = .absent → ∃ t, exec .encode s = .next t ∧ t.err = 0x00000006 ∧ t.errpos = 0) ∧
    (s.tree ≠ .absent → 65536 < s.symLen.toNat → ∃ t, exec .encode s = .next t ∧ t.err = 0x00000107 ∧ t.errpos = 0) ∧
    ∀ (pre post : List Nat) (a : Nat), s.tree ≠ .absent → s.symLen.toNat ≤ 65536 → symInput s = pre ++ a :: post →
      (∀ b ∈ pre, s.tree.codeOf b ≠ none) → (s.tree.codes pre).length ≤ 1048576 →
      (s.tree.codeOf a = none →
        ∃ t, exec .encode s = .next t ∧ t.err = 0x00000003 ∧ t.errpos = BitVec.ofNat 32 pre.length) ∧
      ∀ p, s.tree.codeOf a = some p → 1048576 < (s.tree.codes pre).length + p.length →
        ∃ t, exec .encode s = .next t ∧ t.err = 0x00000207 ∧ t.errpos = BitVec.ofNat 32 pre.length

/-- R192: the number of bits of a successful ENCODE is the sum of the code lengths of the input symbols, and so the sum
over all symbols of occurrences times code length (the weighted sum of R130 (d) for the occurrences as frequencies). -/
def Obligations.EncodedLengthIsWeightedSum : Prop :=
  ∀ s t : State, Inv s → exec .encode s = .next t → t.err = 0 →
    t.bitLen.toNat = ((symInput s).map fun a => ((s.tree.codeOf a).getD []).length).sum ∧
    t.bitLen.toNat = ((List.range 256).map fun a => (symInput s).count a * ((s.tree.codeOf a).getD []).length).sum ∧
    t.bitLen.toNat = s.tree.cost (fun a => (symInput s).count a)

/-- What SAVE, ENCODE and DECODE leave alone (R52, R140, R170, R180), whether they succeed or fail: TREE, NLEAF, the memories and
length registers that are not their output; and on a success the cells of the output memory from the new length on. -/
def Obligations.OutputWritersFrame : Prop :=
  ∀ (i : Instr) (s t : State), exec i s = .next t →
    (i = .save → SameCells .freq s t ∧ SameCells .sym s t ∧ SameCells .bit s t ∧ t.symLen = s.symLen ∧
      t.bitLen = s.bitLen ∧
      (t.err = 0 → ∀ k, t.tblLen.toNat ≤ k →
        t.tbl.read .tbl k = s.tbl.read .tbl k ∧ t.unspecified .tbl k = s.unspecified .tbl k)) ∧
    (i = .encode → SameCells .freq s t ∧ SameCells .sym s t ∧ SameCells .tbl s t ∧ t.symLen = s.symLen ∧
      t.tblLen = s.tblLen ∧
      (t.err = 0 → ∀ k, t.bitLen.toNat ≤ k →
        t.bit.read .bit k = s.bit.read .bit k ∧ t.unspecified .bit k = s.unspecified .bit k)) ∧
    (i = .decode → SameCells .freq s t ∧ SameCells .bit s t ∧ SameCells .tbl s t ∧
      t.bitLen = s.bitLen ∧ t.tblLen = s.tblLen ∧
      (t.err = 0 → ∀ k, t.symLen.toNat ≤ k →
        t.sym.read .sym k = s.sym.read .sym k ∧ t.unspecified .sym k = s.unspecified .sym k)) ∧
    (i = .save ∨ i = .encode ∨ i = .decode → t.tree = s.tree ∧ t.nleaf = s.nleaf ∧ t.pending = s.pending ∧ t.rdata = s.rdata)

/-! ## DECODE -/

/-- R187 (with R181, R182): DECODE of the codes of a sequence of symbols writes the symbols from SYM[0] on, SYM_LEN is
their number, cells beyond keep their values; on a failure SYM_LEN is 0 and every cell of SYM is unspecified, so that no
symbol is delivered. The first part says when it succeeds. -/
def Obligations.DecodeWritesTheSymbols : Prop :=
  (∀ (s : State) (syms : List Nat), ValidTree s.tree → s.bitLen.toNat ≤ 1048576 → (∀ a ∈ syms, a ∈ s.tree.symbols) →
    syms.length ≤ 65536 → bitInput s = s.tree.codes syms →
    ∃ t, exec .decode s = .next t ∧ t.err = 0 ∧ symInput t = syms) ∧
  (∀ s t : State, ValidTree s.tree → exec .decode s = .next t → t.err = 0 →
    t.errpos = 0 ∧ t.symLen.toNat = (symInput t).length ∧ (∀ a ∈ symInput t, a ∈ s.tree.symbols) ∧
    s.tree.codes (symInput t) = bitInput s ∧
    (∀ k, t.symLen.toNat ≤ k → t.sym.read .sym k = s.sym.read .sym k) ∧
    SameCells .bit s t ∧ t.bitLen = s.bitLen ∧ t.tree = s.tree) ∧
  ∀ s t : State, exec .decode s = .next t → t.err ≠ 0 →
    t.symLen = 0 ∧ (∀ k, t.unspecified .sym k = true) ∧
    (∃ r : Raise, decodeInput s = .error r ∧ t.err = errWord r.failure ∧ t.errpos = BitVec.ofNat 32 r.pos) ∧
    SameCells .bit s t ∧ t.bitLen = s.bitLen ∧ t.tree = s.tree

/-- R183 (with R92): a bit that leads to a missing child is MalformedStream at its index; under a full tree it never
happens. -/
def Obligations.DecodeMalformedStream : Prop :=
  (∀ (s : State) (syms : List Nat) (p rest : List Bool) (b : Bool), ValidTree s.tree → s.bitLen.toNat ≤ 1048576 →
    (∀ a ∈ syms, a ∈ s.tree.symbols) → syms.length ≤ 65536 → bitInput s = s.tree.codes syms ++ p ++ b :: rest →
    (s.tree.descend p).isNode = true → (s.tree.descend p).child b = .absent →
    ∃ t, exec .decode s = .next t ∧ t.err = 0x00000005 ∧
      t.errpos = BitVec.ofNat 32 ((s.tree.codes syms).length + p.length)) ∧
  ∀ s t : State, s.tree.full = true → s.tree.isNode = true → exec .decode s = .next t → t.err ≠ 0x00000005

/-- R184: a stream that ends inside a code is IncompleteCode at position BIT_LEN. -/
def Obligations.DecodeIncompleteCode : Prop :=
  ∀ (s : State) (syms : List Nat) (p : List Bool), ValidTree s.tree → s.bitLen.toNat ≤ 1048576 →
    (∀ a ∈ syms, a ∈ s.tree.symbols) → syms.length ≤ 65536 → bitInput s = s.tree.codes syms ++ p → p ≠ [] →
    (s.tree.descend p).isNode = true →
    ∃ t, exec .decode s = .next t ∧ t.err = 0x00000004 ∧ t.errpos = s.bitLen

/-- R185: the other failures of DECODE. NoTree first, then the input length, and OUTPUT_FULL at the bit that reaches the
leaf of a symbol too many; which, for every capacity, cannot happen when there are at most as many bits as SYM has cells. -/
def Obligations.DecodeOtherFailures : Prop :=
  (∀ s : State, s.tree = .absent → ∃ t, exec .decode s = .next t ∧ t.err = 0x00000006 ∧ t.errpos = 0) ∧
  (∀ s : State, s.tree ≠ .absent → 1048576 < s.bitLen.toNat →
    ∃ t, exec .decode s = .next t ∧ t.err = 0x00000107 ∧ t.errpos = 0) ∧
  (∀ (s : State) (syms : List Nat) (a : Nat) (p rest : List Bool), ValidTree s.tree → s.bitLen.toNat ≤ 1048576 →
    (∀ b ∈ syms, b ∈ s.tree.symbols) → syms.length = 65536 → (a, p) ∈ s.tree.pairs →
    bitInput s = s.tree.codes syms ++ p ++ rest →
    ∃ t, exec .decode s = .next t ∧ t.err = 0x00000207 ∧
      t.errpos = BitVec.ofNat 32 ((s.tree.codes syms).length + p.length - 1)) ∧
  ∀ (cap : Nat) (root : OptTree) (bits : List Bool) (r : Raise), bits.length ≤ cap →
    decodeLoop cap root bits 0 root 0 0 = .error r → r.failure ≠ .outputFull

/-- R188: under the degenerate tree `k` zeros decode to `k` copies of its symbol, which encode to those zeros; the first 1 is
MalformedStream at its index; and IncompleteCode cannot occur. -/
def Obligations.DecodeOfDegenerateTree : Prop :=
  ∀ (s : State) (a : Nat), a < 256 → s.tree = .node (.leaf a) .absent → s.bitLen.toNat ≤ 1048576 →
    (∀ k, k ≤ 65536 → bitInput s = List.replicate k false →
      s.tree.codes (List.replicate k a) = List.replicate k false ∧
      ∃ t, exec .decode s = .next t ∧ t.err = 0 ∧ symInput t = List.replicate k a) ∧
    (∀ k rest, k ≤ 65536 → bitInput s = List.replicate k false ++ true :: rest →
      ∃ t, exec .decode s = .next t ∧ t.err = 0x00000005 ∧ t.errpos = BitVec.ofNat 32 k) ∧
    ∀ t, exec .decode s = .next t → t.err ≠ 0x00000004

/-- R190: encode then decode, and decode then encode, with the bits (the symbols), their length register and TREE as the
first command left them, whatever else the host has changed in between. -/
def Obligations.EncodeAndDecodeAreInverse : Prop :=
  (∀ s : State, ValidTree s.tree → s.symLen.toNat ≤ 65536 → (∀ a ∈ symInput s, s.tree.codeOf a ≠ none) →
    (s.tree.codes (symInput s)).length ≤ 1048576 →
    ∃ s₁, exec .encode s = .next s₁ ∧ s₁.err = 0 ∧
      ∀ s₂ : State, s₂.bit = s₁.bit → s₂.bitLen = s₁.bitLen → s₂.tree = s₁.tree →
        ∃ s₃, exec .decode s₂ = .next s₃ ∧ s₃.err = 0 ∧ s₃.symLen = s.symLen ∧ symInput s₃ = symInput s) ∧
  ∀ s s₁ : State, ValidTree s.tree → exec .decode s = .next s₁ → s₁.err = 0 →
    ∀ s₂ : State, s₂.sym = s₁.sym → s₂.symLen = s₁.symLen → s₂.tree = s₁.tree →
      ∃ s₃, exec .encode s₂ = .next s₃ ∧ s₃.err = 0 ∧ s₃.bitLen = s.bitLen ∧ bitInput s₃ = bitInput s

/-! ## Outcomes and failures -/

/-- R85, R86: the ERR word of every failure, its CODE in bits 7:0, its SUB in bits 15:8, and 0 above. -/
def Obligations.ErrorWords : Prop :=
  errWord .invalidInput = 0x00000001 ∧ errWord .badSymbol = 0x00000102 ∧ errWord .emptyCode = 0x00000202 ∧
  errWord .badCodeChar = 0x00000302 ∧ errWord .dupSymbol = 0x00000402 ∧ errWord .pathConflict = 0x00000502 ∧
  errWord .emptyTable = 0x00000602 ∧ errWord .unknownSymbol = 0x00000003 ∧ errWord .incompleteCode = 0x00000004 ∧
  errWord .malformedStream = 0x00000005 ∧ errWord .noTree = 0x00000006 ∧ errWord .inputLen = 0x00000107 ∧
  errWord .outputFull = 0x00000207 ∧ errWord .codeTooLong = 0x00000307 ∧ errWord .illegalCommand = 0x00000008

/-- Every command completes with one outcome, idle again, and with ERR and ERRPOS of its own (R12, R200, R207, R245): 0 and 0
for a success, the word of a failure otherwise. -/
def Obligations.EveryCommandCompletes : Prop :=
  ∀ (i : Instr) (s : State), ∃ t, exec i s = .next t ∧ t.running = none ∧
    ((t.err = 0 ∧ t.errpos = 0) ∨ ∃ f, t.err = errWord f)

/-- R206: what a failing command writes, `r` being the failure the command itself raises: (a) ERR and ERRPOS, (b) its output
invalidated, (c) nothing else, (d) BUSY 0 and TREE_VALID as the new TREE says. -/
def Obligations.FailureWritesExactly : Prop :=
  ∀ (i : Instr) (s t : State), exec i s = .next t → t.err ≠ 0 →
    (t.status.getLsbD 0 = false ∧ (t.status.getLsbD 1 = true ↔ t.tree ≠ .absent)) ∧
    match i with
    | .build => ∃ r, buildTree 256 (freqInput s) = .error r ∧
      t = { s with
        tree := .absent, nleaf := 0,
        err := BitVec.ofNat 32 (r.failure.code + 256 * r.failure.sub), errpos := BitVec.ofNat 32 r.pos, running := none }
    | .load => ∃ r, loadInput s = .error r ∧
      t = { s with
        tree := .absent, nleaf := 0,
        err := BitVec.ofNat 32 (r.failure.code + 256 * r.failure.sub), errpos := BitVec.ofNat 32 r.pos, running := none }
    | .save => ∃ r, saveTree 131072 s.tree = .error r ∧ (∀ k, t.unspecified .tbl k = true) ∧
      t = { s with
        tblLen := 0, tbl := t.tbl,
        err := BitVec.ofNat 32 (r.failure.code + 256 * r.failure.sub), errpos := BitVec.ofNat 32 r.pos, running := none }
    | .encode => ∃ r, encodeInput s = .error r ∧ (∀ k, t.unspecified .bit k = true) ∧
      t = { s with
        bitLen := 0, bit := t.bit,
        err := BitVec.ofNat 32 (r.failure.code + 256 * r.failure.sub), errpos := BitVec.ofNat 32 r.pos, running := none }
    | .decode => ∃ r, decodeInput s = .error r ∧ (∀ k, t.unspecified .sym k = true) ∧
      t = { s with
        symLen := 0, sym := t.sym,
        err := BitVec.ofNat 32 (r.failure.code + 256 * r.failure.sub), errpos := BitVec.ofNat 32 r.pos, running := none }

/-- R208: after a failure the core is idle and accepts any command; repeating the failed command on unchanged inputs fails
again in the same way; and after a failed BUILD or LOAD a
SAVE, ENCODE or DECODE is NoTree. -/
def Obligations.FailedCommandFailsAgain : Prop :=
  (∀ (i : Instr) (s t : State), exec i s = .next t → t.err ≠ 0 →
    t.running = none ∧ (∃ u, exec i t = .next u ∧ u.err = t.err ∧ u.errpos = t.errpos) ∧ ∀ j, ∃ u, exec j t = .next u) ∧
  ∀ (i j : Instr) (s t : State), exec i s = .next t → t.err ≠ 0 → i = .build ∨ i = .load →
    j = .save ∨ j = .encode ∨ j = .decode → ∃ u, exec j t = .next u ∧ u.err = 0x00000006

/-- A command's outcome and output are a function of its operands (R12, R84): FREQ for BUILD, TREE for SAVE, TBL and TBL_LEN
for LOAD, TREE, SYM and SYM_LEN for ENCODE, TREE, BIT and BIT_LEN for DECODE, and of nothing else in the state. -/
def Obligations.CommandsReadOnlyTheirOperands : Prop :=
  ∀ (i : Instr) (s s' t t' : State), exec i s = .next t → exec i s' = .next t' →
    (match i with
      | .build => freqInput s = freqInput s'
      | .save => s.tree = s'.tree
      | .load => s.tblLen = s'.tblLen ∧ tblInput s = tblInput s'
      | .encode => s.tree = s'.tree ∧ s.symLen = s'.symLen ∧ symInput s = symInput s'
      | .decode => s.tree = s'.tree ∧ s.bitLen = s'.bitLen ∧ bitInput s = bitInput s') →
    t.err = t'.err ∧ t.errpos = t'.errpos ∧
    match i with
    | .build | .load => t.tree = t'.tree ∧ t.nleaf = t'.nleaf
    | .save => t.tblLen = t'.tblLen ∧ tblInput t = tblInput t'
    | .encode => t.bitLen = t'.bitLen ∧ bitInput t = bitInput t'
    | .decode => t.symLen = t'.symLen ∧ symInput t = symInput t'

/-! ## The whole machine -/

/-- TREE is written only by BUILD, LOAD and reset (R35): a step that changes it is a reset, or a BUILD or LOAD, which leaves
no tree when it fails. -/
def Obligations.OnlyBuildLoadAndResetWriteTheTree : Prop :=
  ∀ s t : State, step s = .next t → t.tree ≠ s.tree →
    s.pending.head? = some .reset ∨
    ∃ i, (i = .build ∨ i = .load) ∧
      (s.running = some i ∨
        ∃ w, s.pending.head? = some (.write .reg 0 w) ∧ decodeCmd (BitVec.ofNat 32 w) = .ok i) ∧
      (t.err ≠ 0 → t.tree = .absent)

/-- Every step keeps the invariant: the memories stay in canonical form and inside their spaces, TREE is absent or valid
(R36 to R39), NLEAF is its number of leaves (R26), ERR holds 0 (with ERRPOS 0) or the word of a failure (R24). -/
def Obligations.StepKeepsTheInvariant : Prop :=
  ∀ s t : State, Inv s → step s = .next t → Inv t

/-- The reset state meets the invariant, whatever the host is going to do (R45). -/
def Obligations.ResetMeetsTheInvariant : Prop :=
  ∀ evs : List HostEvent, Inv (State.reset.withScript evs)

/-- Codes under a valid tree (R38, R39, R41, R42): each symbol has at most one code, the path of its one leaf, of 1 to 255 bits;
no code is a prefix of another symbol's; there are as many pairs as leaves. -/
def Obligations.CodesAreAPrefixCode : Prop :=
  ∀ t : OptTree, ValidTree t →
    (∀ s p, t.codeOf s = some p ↔ (s, p) ∈ t.pairs) ∧
    (∀ s p, t.codeOf s = some p → 1 ≤ p.length ∧ p.length ≤ 255) ∧
    (∀ a b p q, t.codeOf a = some p → t.codeOf b = some q → a ≠ b → ¬ p <+: q) ∧
    t.pairs.length = t.leafCount

/-- R46: a tree that satisfies R36 and R37 is determined by its pair list. -/
def Obligations.TreeIsDeterminedByItsPairs : Prop :=
  ∀ t u : OptTree, t.isNode = true → t.noBareNode = true → u.isNode = true → u.noBareNode = true →
    t.pairs = u.pairs → t = u

/-- An implementation that takes time (R239): after a CMD write that starts a command the host may poll STATUS, which
reads BUSY 1, and when the command completes the state is the one the atomic command gives, but for what the polls
returned. -/
def Obligations.PollingHostSeesTheAtomicCommand : Prop :=
  ∀ (s u : State) (rest : List HostEvent) (w n : Nat), s.running = none → w < 2 ^ 32 →
    step { s with pending := .write .reg 0 w :: rest } = .next u →
    (∃ t, Host.Core.run Sys2Proof.core (n + 2)
        { s with pending := .start w :: (List.replicate n (.read .reg 1) ++ .complete :: rest) } = .next t ∧
      t = { u with rdata := t.rdata, polls := t.polls }) ∧
    ∀ i, decodeCmd (BitVec.ofNat 32 w) = .ok i →
      ∃ t v, Host.Core.run Sys2Proof.core (n + 2)
          { s with pending := .start w :: (List.replicate (n + 1) (.read .reg 1) ++ .complete :: rest) } = .next t ∧
        t.rdata = some v ∧ v.getLsbD 0 = true

/-- The pseudo-operations PUTSYM, PUTBITS and PUTTBL (R107) leave the sequence they name as the valid part of its memory, and
the tree alone. -/
def Obligations.PutScriptsStoreTheSequence : Prop :=
  ∀ (s : State) (rest : List HostEvent), s.running = none → s.pending = rest →
    (∀ vs : List Nat, (∀ v ∈ vs, v < 256) → vs.length ≤ 65536 →
      ∃ t, Host.Core.run Sys2Proof.core (vs.length + 1) (s.withScript (putSymLines vs)) = .next t ∧
        symInput t = vs ∧ t.tree = s.tree ∧ t.pending = rest) ∧
    (∀ bs : List Bool, bs.length ≤ 1048576 →
      ∃ t, Host.Core.run Sys2Proof.core (bs.length + 1) (s.withScript (putBitsLines bs)) = .next t ∧
        bitInput t = bs ∧ t.tree = s.tree ∧ t.pending = rest) ∧
    ∀ text : List Byte, text.length ≤ 131072 →
      ∃ t, Host.Core.run Sys2Proof.core (text.length + 1) (s.withScript (putTblLines text)) = .next t ∧
        tblInput t = text ∧ t.tree = s.tree ∧ t.pending = rest

/-- R7: (a) a built tree has no leaf deeper than `A - 1`, so that every table SAVE writes from it loads, for all parameters
that meet R6 and for the commands themselves; (b) with the default parameters SAVE cannot run out of TBL: at most 256 entries of
at most 3 digits and 255 code characters, at most 66560 bytes. -/
def Obligations.BuiltTableFitsAndLoads : Prop :=
  (∀ (A lenMax : Nat) (freqs : List Nat) (t : OptTree) (n : Nat), 2 ≤ A → freqs.length ≤ A → A - 1 ≤ lenMax →
    buildTree A freqs = .ok (t, n) →
    (∀ e ∈ t.pairs, e.2.length ≤ A - 1) ∧ loadTable A lenMax (fmt t.pairs) = .ok (t, n)) ∧
  (∀ s t : State, exec .build s = .next t → t.err = 0 →
    (∀ e ∈ t.tree.pairs, e.2.length ≤ 255) ∧ ∃ u v : State, exec .save t = .next u ∧ u.err = 0 ∧
      exec .load u = .next v ∧ v.err = 0 ∧ v.tree = t.tree ∧ v.nleaf = t.nleaf) ∧
  tableBytesMax = 66560 ∧ tableBytesMax < Space.tbl.cells ∧
  ∀ t : OptTree, ValidTree t →
    t.pairs.length ≤ 256 ∧ (∀ e ∈ t.pairs, (decText e.1).length ≤ 3 ∧ e.2.length ≤ 255) ∧
    (fmt t.pairs).length ≤ tableBytesMax ∧ saveTree 131072 t = .ok (fmt t.pairs)
end

