-- ==== Sys2Proof/Laws/Tree.lean ====
section
/-! SUPPORT. The laws of code trees: what a walk gives, the prefix property, the code of a symbol, and that a tree without
bare nodes is determined by its pair list. -/

namespace Sys2Proof.Machine

namespace OptTree

/-- A walk from an accumulated path is the walk from the root with that path in front. -/
theorem walk_append (t : OptTree) (p q : List Bool) :
    t.walk (p ++ q) = (t.walk q).map fun e => (e.1, p ++ e.2) := by
  induction t generalizing q with
  | absent => rfl
  | leaf s => rfl
  | node l r ihl ihr => simp [walk, ihl, ihr, List.append_assoc]

theorem walk_eq_map (t : OptTree) (p : List Bool) : t.walk p = t.pairs.map fun e => (e.1, p ++ e.2) := by
  have := walk_append t p []
  rwa [List.append_nil] at this

@[simp] theorem pairs_absent : OptTree.absent.pairs = [] := rfl

@[simp] theorem pairs_leaf (s : Nat) : (OptTree.leaf s).pairs = [(s, [])] := rfl

theorem pairs_node (l r : OptTree) :
    (OptTree.node l r).pairs =
      (l.pairs.map fun e => (e.1, false :: e.2)) ++ (r.pairs.map fun e => (e.1, true :: e.2)) := by
  rw [pairs, walk, walk_eq_map l, walk_eq_map r]
  rfl

theorem mem_pairs_node {l r : OptTree} {s : Nat} {p : List Bool} :
    (s, p) ∈ (OptTree.node l r).pairs ↔
      (∃ q, p = false :: q ∧ (s, q) ∈ l.pairs) ∨ ∃ q, p = true :: q ∧ (s, q) ∈ r.pairs := by
  simp [pairs_node, eq_comm, and_comm]

theorem map_fst_pairs (t : OptTree) : t.pairs.map Prod.fst = t.symbols := by
  induction t with
  | absent => rfl
  | leaf s => rfl
  | node l r ihl ihr => simp [pairs_node, symbols, ← ihl, ← ihr, Function.comp_def]

theorem length_symbols (t : OptTree) : t.symbols.length = t.leafCount := by
  induction t with
  | absent => rfl
  | leaf s => rfl
  | node l r ihl ihr => simp [symbols, leafCount, ihl, ihr]

/-- R41: `len(pairs(T))` is the number of leaves. -/
theorem length_pairs (t : OptTree) : t.pairs.length = t.leafCount := by
  rw [← length_symbols, ← map_fst_pairs, List.length_map]

theorem mem_symbols_iff {t : OptTree} {s : Nat} : s ∈ t.symbols ↔ ∃ p, (s, p) ∈ t.pairs := by
  rw [← map_fst_pairs, List.mem_map]
  constructor
  · rintro ⟨⟨a, p⟩, h, rfl⟩; exact ⟨p, h⟩
  · rintro ⟨p, h⟩; exact ⟨(s, p), h, rfl⟩

theorem length_le_depth {t : OptTree} {s : Nat} {p : List Bool} (h : (s, p) ∈ t.pairs) : p.length ≤ t.depth := by
  induction t generalizing p with
  | absent => simp at h
  | leaf a => simp at h; simp [h]
  | node l r ihl ihr =>
    rcases mem_pairs_node.mp h with ⟨q, rfl, hq⟩ | ⟨q, rfl, hq⟩
    · have := ihl hq; simp only [List.length_cons, depth]; omega
    · have := ihr hq; simp only [List.length_cons, depth]; omega

/-- A pair of an Internal node has a path of at least one bit (R36). -/
theorem path_ne_nil {t : OptTree} (ht : t.isNode = true) {s : Nat} {p : List Bool} (h : (s, p) ∈ t.pairs) : p ≠ [] := by
  cases t with
  | absent => simp at h
  | leaf a => simp [isNode] at ht
  | node l r => rcases mem_pairs_node.mp h with ⟨q, rfl, -⟩ | ⟨q, rfl, -⟩ <;> simp

/-- The prefix property (R39), for the positions of leaves: a path that is a prefix of another is the same leaf's. -/
theorem pairs_prefix {t : OptTree} {a b : Nat} {p q : List Bool} (ha : (a, p) ∈ t.pairs) (hb : (b, q) ∈ t.pairs)
    (h : p <+: q) : a = b ∧ p = q := by
  induction t generalizing p q with
  | absent => simp at ha
  | leaf s => simp at ha hb; simp [ha, hb]
  | node l r ihl ihr =>
    rcases mem_pairs_node.mp ha with ⟨p, rfl, hp⟩ | ⟨p, rfl, hp⟩ <;>
      rcases mem_pairs_node.mp hb with ⟨q, rfl, hq⟩ | ⟨q, rfl, hq⟩ <;>
      simp only [List.cons_prefix_cons, reduceCtorEq, false_and, true_and] at h
    · obtain ⟨h1, h2⟩ := ihl hp hq h; simp [h1, h2]
    · obtain ⟨h1, h2⟩ := ihr hp hq h; simp [h1, h2]

theorem codeOf_mem {t : OptTree} {s : Nat} {p : List Bool} (h : t.codeOf s = some p) : (s, p) ∈ t.pairs := by
  simp only [codeOf, Option.map_eq_some_iff] at h
  obtain ⟨⟨a, q⟩, hf, rfl⟩ := h
  have h1 := List.find?_some hf
  have h2 := List.mem_of_find?_eq_some hf
  simp only [beq_iff_eq] at h1
  simpa [h1] using h2

theorem codeOf_none {t : OptTree} {s : Nat} : t.codeOf s = none ↔ s ∉ t.symbols := by
  simp only [codeOf, Option.map_eq_none_iff, List.find?_eq_none, beq_iff_eq, mem_symbols_iff, not_exists]
  constructor
  · intro h p hp; exact h _ hp rfl
  · rintro h ⟨a, p⟩ hp rfl; exact h p hp

/-- With no symbol at two leaves, the code of a symbol is the path of its one leaf (R38, R42). -/
theorem codeOf_eq_some_iff {t : OptTree} (ht : t.symbols.Nodup) {s : Nat} {p : List Bool} :
    t.codeOf s = some p ↔ (s, p) ∈ t.pairs := by
  refine ⟨codeOf_mem, fun h => ?_⟩
  cases hc : t.codeOf s with
  | none => exact absurd (mem_symbols_iff.mpr ⟨p, h⟩) (codeOf_none.mp hc)
  | some q =>
    have hq := codeOf_mem hc
    rw [← map_fst_pairs] at ht
    have := List.inj_on_of_nodup_map ht hq h rfl
    simp_all

theorem pairs_eq_nil {t : OptTree} (ht : t.noBareNode = true) : t.pairs = [] ↔ t = .absent := by
  induction t with
  | absent => simp
  | leaf s => simp
  | node l r ihl ihr =>
    simp only [noBareNode, Bool.and_eq_true, Bool.or_eq_true, bne_iff_ne] at ht
    simp only [pairs_node, List.append_eq_nil_iff, List.map_eq_nil_iff, ihl ht.1.2, ihr ht.2, reduceCtorEq, iff_false]
    tauto

/-- A tree without bare nodes is determined by its pairs, in whatever order they are listed (R46, R159). -/
theorem eq_of_pairs_perm {t u : OptTree} (ht : t.noBareNode = true) (hu : u.noBareNode = true)
    (h : t.pairs.Perm u.pairs) : t = u := by
  induction t generalizing u with
  | absent => exact ((pairs_eq_nil hu).mp h.symm.eq_nil).symm
  | leaf s =>
    cases u with
    | absent => simp at h
    | leaf a => simp at h; simp [h]
    | node l r =>
      have hm : (s, ([] : List Bool)) ∈ (node l r).pairs := h.subset (by simp)
      exact absurd rfl (path_ne_nil rfl hm)
  | node l r ihl ihr =>
    cases u with
    | absent => exact (pairs_eq_nil ht).mp h.eq_nil
    | leaf a =>
      have hm : (a, ([] : List Bool)) ∈ (node l r).pairs := h.symm.subset (by simp)
      exact absurd rfl (path_ne_nil rfl hm)
    | node l' r' =>
      simp only [noBareNode, Bool.and_eq_true] at ht hu
      have h0 := h.filter fun e => e.2.head? == some false
      have h1 := h.filter fun e => e.2.head? == some true
      have inj : ∀ b : Bool, Function.Injective fun e : Nat × List Bool => (e.1, b :: e.2) := by
        intro b x y hxy; simp only [Prod.mk.injEq, List.cons.injEq, true_and] at hxy; exact Prod.ext hxy.1 hxy.2
      simp only [pairs_node, List.filter_append, List.filter_map, Function.comp_def, List.head?_cons] at h0 h1
      simp at h0 h1
      rw [ihl ht.1.2 hu.1.2 ((List.map_perm_map_iff (inj false)).mp h0),
        ihr ht.2 hu.2 ((List.map_perm_map_iff (inj true)).mp h1)]

@[simp] theorem child_absent (b : Bool) : OptTree.absent.child b = .absent := rfl

@[simp] theorem child_leaf (s : Nat) (b : Bool) : (leaf s).child b = .absent := rfl

@[simp] theorem descend_absent (p : List Bool) : OptTree.absent.descend p = .absent := by
  induction p with
  | nil => rfl
  | cons b p ih => simpa [descend, child] using ih

theorem descend_append (t : OptTree) (p q : List Bool) : t.descend (p ++ q) = (t.descend p).descend q := by
  induction p generalizing t with
  | nil => rfl
  | cons b p ih => exact ih (t.child b)

/-- A pair of the tree is a path that leads to a leaf (R41, R90). -/
theorem mem_pairs_iff_descend {t : OptTree} {s : Nat} {p : List Bool} : (s, p) ∈ t.pairs ↔ t.descend p = .leaf s := by
  induction p generalizing t with
  | nil =>
    cases t with
    | absent => simp [descend]
    | leaf a => simp [descend, eq_comm]
    | node l r => simpa [descend] using fun h => path_ne_nil (t := node l r) rfl h rfl
  | cons b p ih =>
    cases t with
    | absent => simp
    | leaf a => simp [descend, child]
    | node l r => cases b <;> simp [mem_pairs_node, descend, child, ← ih]

theorem child_node (l r : OptTree) (b : Bool) : (node l r).child b = if b then r else l := rfl

/-- Replacing the child `b` of an Internal node replaces the pairs that begin with `b`. -/
theorem pairs_setChild_perm (n t : OptTree) (hn : n.isNode = true) (b : Bool) :
    (n.setChild b t).pairs.Perm
      ((t.pairs.map fun e => (e.1, b :: e.2)) ++ ((n.child !b).pairs.map fun e => (e.1, (!b) :: e.2))) := by
  cases n with
  | absent => simp [isNode] at hn
  | leaf s => simp [isNode] at hn
  | node l r => cases b <;> simp [setChild, child, pairs_node, List.perm_append_comm]

theorem pairs_perm_child (n : OptTree) (hn : n.isNode = true) (b : Bool) :
    n.pairs.Perm
      (((n.child b).pairs.map fun e => (e.1, b :: e.2)) ++ ((n.child !b).pairs.map fun e => (e.1, (!b) :: e.2))) := by
  cases n with
  | absent => simp [isNode] at hn
  | leaf s => simp [isNode] at hn
  | node l r => cases b <;> simp [child, pairs_node, List.perm_append_comm]

@[simp] theorem child_setChild_self (n t : OptTree) (hn : n.isNode = true) (b : Bool) : (n.setChild b t).child b = t := by
  cases n <;> cases b <;> simp_all [isNode, setChild, child]

@[simp] theorem child_setChild_other (n t : OptTree) (hn : n.isNode = true) (b : Bool) :
    (n.setChild b t).child (!b) = n.child !b := by
  cases n <;> cases b <;> simp_all [isNode, setChild, child]

@[simp] theorem isNode_setChild (n t : OptTree) (b : Bool) : (n.setChild b t).isNode = n.isNode := by
  cases n <;> cases b <;> rfl

/-- No bare node below the children of `n`; `n` itself may be bare (R37: as LOAD makes it). -/
def ChildrenOk (n : OptTree) : Prop := ∀ b, (n.child b).noBareNode = true

theorem noBareNode_setChild {n t : OptTree} (hn : n.isNode = true) (ho : n.ChildrenOk) {b : Bool}
    (ht : t.noBareNode = true) (hne : t ≠ .absent) : (n.setChild b t).noBareNode = true := by
  have h0 := ho false
  have h1 := ho true
  cases n with
  | absent => simp [isNode] at hn
  | leaf s => simp [isNode] at hn
  | node l r => cases b <;> simp_all [setChild, child, noBareNode]

theorem childrenOk_of_noBareNode {n : OptTree} (h : n.noBareNode = true) : n.ChildrenOk := by
  intro b
  cases n with
  | absent => simp [child, noBareNode]
  | leaf s => simp [child, noBareNode]
  | node l r => cases b <;> simp_all [child, noBareNode]

theorem ne_absent_of_isNode {n : OptTree} (h : n.isNode = true) : n ≠ .absent := by rintro rfl; simp [isNode] at h

end OptTree

end Sys2Proof.Machine
end

