-- ==== Sys2Proof/Laws/Builder.lean ====
section
/-! SUPPORT. The laws of BUILD: what is removed from the collection (40_builder.md R123), what the combine loop keeps (R124), and what the
tree it ends with is (R125, R130). -/

namespace Sys2Proof.Machine

open OptTree

theorem Item.before_iff {x y : Item} :
    x.before y = true ↔ x.freq < y.freq ∨ (x.freq = y.freq ∧ x.seq < y.seq) := by
  simp [Item.before]

theorem removeMin_eq_none {q : List Item} : removeMin q = none ↔ q = [] := by
  cases q with
  | nil => simp [removeMin]
  | cons x xs =>
    simp only [removeMin, reduceCtorEq, iff_false]
    split
    · simp
    · split <;> simp

/-- `remove_min` takes out one item, before which none of the others comes (R123, R126). -/
theorem removeMin_some {q : List Item} {x : Item} {rest : List Item} (h : removeMin q = some (x, rest)) :
    q.Perm (x :: rest) ∧ ∀ y ∈ rest, y.before x = false := by
  induction q generalizing x rest with
  | nil => simp [removeMin] at h
  | cons z zs ih =>
    rw [removeMin] at h
    split at h
    · next hn =>
      simp only [Option.some.injEq, Prod.mk.injEq] at h
      obtain ⟨rfl, rfl⟩ := h
      rw [removeMin_eq_none.mp hn]
      exact ⟨List.Perm.refl _, by simp⟩
    · next m r hm =>
      obtain ⟨hp, hmin⟩ := ih hm
      split at h
      · next hz =>
        simp only [Option.some.injEq, Prod.mk.injEq] at h
        obtain ⟨rfl, rfl⟩ := h
        refine ⟨List.Perm.refl _, fun y hy => ?_⟩
        rw [Bool.eq_false_iff]
        intro hyz
        have hz := Item.before_iff.mp hz
        have hyz := Item.before_iff.mp hyz
        have hym : y.before m = true := Item.before_iff.mpr (by omega)
        rcases List.mem_cons.mp (hp.subset hy) with rfl | hy
        · have := Item.before_iff.mp hym; omega
        · rw [hmin y hy] at hym; contradiction
      · next hz =>
        simp only [Option.some.injEq, Prod.mk.injEq] at h
        obtain ⟨rfl, rfl⟩ := h
        refine ⟨(hp.cons z).trans (List.Perm.swap _ _ _), fun y hy => ?_⟩
        rcases List.mem_cons.mp hy with rfl | hy
        · simpa using hz
        · exact hmin y hy

theorem removeMin_of_ne_nil {q : List Item} (h : q ≠ []) : ∃ x rest, removeMin q = some (x, rest) := by
  cases hr : removeMin q with
  | none => exact absurd (removeMin_eq_none.mp hr) h
  | some xr => exact ⟨xr.1, xr.2, rfl⟩

/-- One pass of the combine loop on a collection of two or more items (R124). -/
theorem combine_succ {A fuel k : Nat} {q : List Item} (h : 2 ≤ q.length) :
    ∃ x y rest, q.Perm (x :: y :: rest) ∧ (∀ z ∈ rest, x.freq ≤ z.freq ∧ y.freq ≤ z.freq) ∧
      combine A (fuel + 1) k q
        = combine A fuel (k + 1) (rest ++ [{ freq := x.freq + y.freq, seq := A + k, tree := .node x.tree y.tree }]) := by
  obtain ⟨x, q₁, hx⟩ := removeMin_of_ne_nil (q := q) (by rintro rfl; simp at h)
  obtain ⟨p₁, m₁⟩ := removeMin_some hx
  have hl := p₁.length_eq
  obtain ⟨y, q₂, hy⟩ := removeMin_of_ne_nil (q := q₁) (by rintro rfl; simp at hl; omega)
  obtain ⟨p₂, m₂⟩ := removeMin_some hy
  refine ⟨x, y, q₂, p₁.trans (p₂.cons x), fun z hz => ⟨?_, ?_⟩, by rw [combine, hx]; simp only [hy]⟩
  · have := m₁ z (p₂.symm.subset (List.mem_cons_of_mem _ hz))
    rw [Bool.eq_false_iff, ne_eq, Item.before_iff] at this; omega
  · have := m₂ z hz
    rw [Bool.eq_false_iff, ne_eq, Item.before_iff] at this; omega

theorem combine_short {A fuel k : Nat} {q : List Item} (h : q.length ≤ 1) : combine A fuel k q = q := by
  cases fuel with
  | zero => rfl
  | succ fuel =>
    match q, h with
    | [], _ => rfl
    | [x], _ => simp [combine, removeMin]

/-- A property of collections that a pass keeps holds of the one item the loop ends with (R124, R245). -/
theorem combine_induct {A : Nat} {I : List Item → Prop}
    (perm : ∀ q q', q.Perm q' → I q → I q')
    (pass : ∀ x y rest k, (∀ z ∈ rest, x.freq ≤ z.freq ∧ y.freq ≤ z.freq) → I (x :: y :: rest) →
      I ({ freq := x.freq + y.freq, seq := A + k, tree := .node x.tree y.tree } :: rest))
    {fuel k : Nat} {q : List Item} (hq : q ≠ []) (hf : q.length ≤ fuel + 1) (h : I q) :
    ∃ r, combine A fuel k q = [r] ∧ I [r] := by
  induction fuel generalizing k q with
  | zero =>
    match q, hq, hf with
    | [x], _, _ => exact ⟨x, rfl, h⟩
  | succ fuel ih =>
    by_cases hl : q.length ≤ 1
    · match q, hq, hl with
      | [x], _, _ => exact ⟨x, combine_short (by simp), h⟩
    · obtain ⟨x, y, rest, hp, hmin, hc⟩ := combine_succ (A := A) (fuel := fuel) (k := k) (q := q) (by omega)
      rw [hc]
      have hlen := hp.length_eq
      simp only [List.length_cons] at hlen
      refine ih (by simp) (by simp; omega) (perm _ _ ?_ (pass x y rest k hmin (perm _ _ hp h)))
      exact List.perm_append_singleton _ _ |>.symm

/-- The symbols below the items of a collection. -/
def allSymbols (q : List Item) : List Nat := q.flatMap fun x => x.tree.symbols

theorem allSymbols_cons (x : Item) (q : List Item) : allSymbols (x :: q) = x.tree.symbols ++ allSymbols q := rfl

theorem allSymbols_perm {q q' : List Item} (h : q.Perm q') : (allSymbols q).Perm (allSymbols q') := h.flatMap_right _

/-- What the loop ends with on two or more items (R124, R130): a full tree with an Internal root, over the symbols of the
items. -/
theorem combine_spec {A k : Nat} {q : List Item} (hq : 2 ≤ q.length) (hfull : ∀ x ∈ q, x.tree.full = true) :
    ∃ r, combine A q.length k q = [r] ∧ r.tree.full = true ∧ r.tree.isNode = true ∧
      r.tree.symbols.Perm (allSymbols q) := by
  have hne : q ≠ [] := by rintro rfl; simp at hq
  obtain ⟨r, hr, h1, h2, h3⟩ := combine_induct (A := A) (fuel := q.length) (k := k) (q := q)
    (I := fun l => (∀ x ∈ l, x.tree.full = true) ∧ (allSymbols l).Perm (allSymbols q) ∧
      (2 ≤ l.length ∨ ∃ x ∈ l, x.tree.isNode = true))
    (fun l l' hp ⟨a, b, c⟩ => ⟨fun x hx => a x (hp.symm.subset hx), (allSymbols_perm hp).symm.trans b,
      c.imp (fun h => hp.length_eq ▸ h) (fun ⟨x, hx, hn⟩ => ⟨x, hp.subset hx, hn⟩)⟩)
    (fun x y rest k _ ⟨a, b, _⟩ => by
      simp only [List.forall_mem_cons] at a
      refine ⟨?_, ?_, .inr ⟨_, List.mem_cons_self, rfl⟩⟩
      · simp only [List.forall_mem_cons]
        exact ⟨by simp [full, a.1, a.2.1], a.2.2⟩
      · simpa [allSymbols_cons, symbols, List.append_assoc] using b)
    hne (by omega) ⟨hfull, List.Perm.refl _, .inl hq⟩
  refine ⟨r, hr, h1 r (by simp), ?_, by simpa [allSymbols] using h2⟩
  rcases h3 with h3 | ⟨x, hx, hn⟩
  · simp at h3
  · rw [List.mem_singleton] at hx; exact hx ▸ hn

theorem itemsTree_of_two {A : Nat} {q : List Item} (hq : 2 ≤ q.length) {r : Item} (hr : combine A q.length 0 q = [r]) :
    itemsTree A q = r.tree := by
  match q, hq with
  | x :: y :: q, _ => rw [itemsTree, hr]; rfl; simp

theorem noBareNode_of_full {t : OptTree} (h : t.full = true) : t.noBareNode = true := by
  induction t with
  | absent => rfl
  | leaf s => rfl
  | node l r ihl ihr =>
    simp only [full, Bool.and_eq_true] at h
    have hl : l ≠ .absent := by rintro rfl; simp [full] at h
    simp [noBareNode, ihl h.1, ihr h.2, hl]

/-- A full tree is less deep than it has leaves (R7 (a)). -/
theorem depth_lt_leafCount {t : OptTree} (h : t.full = true) : t.depth + 1 ≤ t.leafCount := by
  induction t with
  | absent => simp [full] at h
  | leaf s => simp [depth, leafCount]
  | node l r ihl ihr =>
    simp only [full, Bool.and_eq_true] at h
    have := ihl h.1
    have := ihr h.2
    simp only [depth, leafCount]; omega

/-- The symbols with a frequency above 0, in ascending order (R121). -/
def present (freqs : List Nat) : List Nat := (List.range freqs.length).filter fun s => 0 < freqs.getD s 0

theorem zipIdx_eq_map_range (freqs : List Nat) :
    freqs.zipIdx = (List.range freqs.length).map fun s => (freqs.getD s 0, s) := by
  apply List.ext_getElem
  · simp
  · intro i h1 h2
    simp only [List.length_zipIdx] at h1
    simp [h1]

theorem leafItems_eq (freqs : List Nat) :
    leafItems freqs = (present freqs).map fun s => { freq := freqs.getD s 0, seq := s, tree := .leaf s } := by
  rw [leafItems, zipIdx_eq_map_range, List.filter_map, List.map_map]
  rfl

theorem length_leafItems (freqs : List Nat) : (leafItems freqs).length = (present freqs).length := by
  rw [leafItems_eq, List.length_map]

theorem leafItems_eq_nil {freqs : List Nat} : leafItems freqs = [] ↔ present freqs = [] := by
  rw [leafItems_eq, List.map_eq_nil_iff]

theorem allSymbols_leafItems (freqs : List Nat) : allSymbols (leafItems freqs) = present freqs := by
  simp [allSymbols, leafItems_eq, List.flatMap_map, symbols]

theorem nodup_present (freqs : List Nat) : (present freqs).Nodup := List.nodup_range.filter _

theorem mem_present {freqs : List Nat} {s : Nat} : s ∈ present freqs ↔ 0 < freqs.getD s 0 := by
  simp only [present, List.mem_filter, List.mem_range, decide_eq_true_eq, and_iff_right_iff_imp]
  intro h
  by_contra hn
  rw [List.getD_eq_default _ _ (by omega)] at h; simp at h

/-- BUILD of one symbol (R125). -/
theorem buildTree_one {A : Nat} {freqs : List Nat} {s : Nat} (h : present freqs = [s]) :
    buildTree A freqs = .ok (.node (.leaf s) .absent, 1) := by
  simp [buildTree, leafItems_eq, h, itemsTree]

/-- BUILD of two or more symbols (R124, R130). -/
theorem buildTree_two {A : Nat} {freqs : List Nat} (h : 2 ≤ (present freqs).length) :
    ∃ t, buildTree A freqs = .ok (t, (present freqs).length) ∧ t.full = true ∧ t.isNode = true ∧
      t.symbols.Perm (present freqs) := by
  have hl : 2 ≤ (leafItems freqs).length := by rw [length_leafItems]; exact h
  obtain ⟨r, h1, h2, h3, h4⟩ := combine_spec (A := A) (k := 0) hl (by
    rw [leafItems_eq]; simp [full])
  rw [allSymbols_leafItems] at h4
  refine ⟨r.tree, ?_, h2, h3, h4⟩
  have hne : leafItems freqs ≠ [] := by intro h0; simp [h0] at hl
  rw [buildTree, if_neg hne, itemsTree_of_two hl h1, length_leafItems]

/-- BUILD of all zeros (R122). -/
theorem buildTree_zero {A : Nat} {freqs : List Nat} (h : present freqs = []) :
    buildTree A freqs = .error { failure := .invalidInput, pos := 0 } := by
  rw [buildTree, if_pos (leafItems_eq_nil.mpr h)]

/-- What a successful BUILD gives (R36 to R39, R130 (a), (b)). -/
theorem buildTree_ok {A lenMax : Nat} {freqs : List Nat} {t : OptTree} {n : Nat} (h : buildTree A freqs = .ok (t, n))
    (hA : freqs.length ≤ A) (hA2 : 2 ≤ A) (hl : A - 1 ≤ lenMax) :
    t.Valid A lenMax ∧ t.symbols.Perm (present freqs) ∧ n = t.leafCount ∧ n = (present freqs).length := by
  have hlt : ∀ s ∈ present freqs, s < A := fun s hs => by
    have := (List.mem_filter.mp hs).1; rw [List.mem_range] at this; omega
  match hp : present freqs with
  | [] => rw [buildTree_zero hp] at h; simp at h
  | [s] =>
    rw [buildTree_one hp] at h
    simp only [Except.ok.injEq, Prod.mk.injEq] at h
    obtain ⟨rfl, rfl⟩ := h
    have := hlt s (by simp [hp])
    refine ⟨⟨rfl, rfl, ?_, ?_, ?_⟩, ?_, rfl, rfl⟩
    · simpa [symbols] using this
    · simp [symbols]
    · simp [depth]; omega
    · simp [symbols]
  | a :: b :: rest =>
    obtain ⟨u, h1, h2, h3, h4⟩ := buildTree_two (A := A) (freqs := freqs) (by simp [hp])
    rw [h1] at h
    simp only [Except.ok.injEq, Prod.mk.injEq] at h
    obtain ⟨rfl, rfl⟩ := h
    have hc : u.leafCount = (present freqs).length := by rw [← length_symbols]; exact h4.length_eq
    have hd := depth_lt_leafCount h2
    have hle : (present freqs).length ≤ freqs.length := by
      simpa [present] using List.length_filter_le (fun s => decide (0 < freqs.getD s 0)) (List.range freqs.length)
    refine ⟨⟨h3, noBareNode_of_full h2, fun s hs => hlt s (h4.subset hs), ?_, by omega⟩, hp ▸ h4, hc.symm, by rw [hp]⟩
    rw [h4.nodup_iff]; exact nodup_present _

/-- The item that is removed does not depend on the order in which the collection is listed (R123: the key is unique). -/
theorem removeMin_perm {q q' : List Item} (hp : q.Perm q') (hnd : (q.map Item.seq).Nodup) {x x' : Item}
    {r r' : List Item} (h : removeMin q = some (x, r)) (h' : removeMin q' = some (x', r')) : x = x' ∧ r.Perm r' := by
  obtain ⟨p₁, m₁⟩ := removeMin_some h
  obtain ⟨p₂, m₂⟩ := removeMin_some h'
  have hx : x = x' := by
    have hx' : x' ∈ q := hp.symm.subset (p₂.symm.subset List.mem_cons_self)
    have hxq : x ∈ q := p₁.symm.subset List.mem_cons_self
    by_contra hne
    have a1 : x' ∈ r := by
      rcases List.mem_cons.mp (p₁.subset hx') with h | h
      · exact absurd h.symm hne
      · exact h
    have a2 : x ∈ r' := by
      rcases List.mem_cons.mp (p₂.subset (hp.subset hxq)) with h | h
      · exact absurd h hne
      · exact h
    have b1 := m₁ x' a1
    have b2 := m₂ x a2
    rw [Bool.eq_false_iff, ne_eq, Item.before_iff] at b1 b2
    exact hne (List.inj_on_of_nodup_map hnd hxq hx' (by omega))
  subst hx
  exact ⟨rfl, (p₁.symm.trans (hp.trans p₂)).cons_inv⟩

/-- The position of an item inside the collection has no meaning (R126). -/
theorem combine_perm {A fuel k : Nat} {q q' : List Item} (hp : q.Perm q') (hnd : (q.map Item.seq).Nodup)
    (hlt : ∀ x ∈ q, x.seq < A + k) : (combine A fuel k q).Perm (combine A fuel k q') := by
  induction fuel generalizing k q q' with
  | zero => exact hp
  | succ fuel ih =>
    by_cases hl : q.length ≤ 1
    · rw [combine_short hl, combine_short (hp.length_eq ▸ hl)]; exact hp
    · have hl' := hp.length_eq
      obtain ⟨x, q₁, hx⟩ := removeMin_of_ne_nil (q := q) (by rintro rfl; simp at hl)
      obtain ⟨x', q₁', hx'⟩ := removeMin_of_ne_nil (q := q') (by rintro rfl; rw [List.length_nil] at hl'; omega)
      obtain ⟨rfl, hp1⟩ := removeMin_perm hp hnd hx hx'
      have e1 := (removeMin_some hx).1
      have hnd1 : ((x :: q₁).map Item.seq).Nodup := (e1.map _).nodup_iff.mp hnd
      rw [List.map_cons, List.nodup_cons] at hnd1
      have hle := e1.length_eq
      have hle' := hp1.length_eq
      simp only [List.length_cons] at hle
      obtain ⟨y, q₂, hy⟩ := removeMin_of_ne_nil (q := q₁) (by rintro rfl; simp at hle; omega)
      obtain ⟨y', q₂', hy'⟩ := removeMin_of_ne_nil (q := q₁') (by rintro rfl; rw [List.length_nil] at hle'; omega)
      obtain ⟨rfl, hp2⟩ := removeMin_perm hp1 hnd1.2 hy hy'
      have e2 := (removeMin_some hy).1
      have hnd2 : ((y :: q₂).map Item.seq).Nodup := (e2.map _).nodup_iff.mp hnd1.2
      rw [List.map_cons, List.nodup_cons] at hnd2
      have hlt2 : ∀ z ∈ q₂, z.seq < A + k := fun z hz =>
        hlt z (e1.symm.subset (List.mem_cons_of_mem _ (e2.symm.subset (List.mem_cons_of_mem _ hz))))
      rw [combine, combine, hx, hx']
      simp only [hy, hy']
      refine ih (hp2.append_right _) ?_ ?_
      · rw [List.map_append, List.nodup_append]
        refine ⟨hnd2.2, by simp, ?_⟩
        simp only [List.mem_map, List.map_cons, List.map_nil, List.mem_singleton]
        rintro a ⟨z, hz, rfl⟩ b rfl
        have := hlt2 z hz; omega
      · intro z hz
        rcases List.mem_append.mp hz with hz | hz
        · have := hlt2 z hz; omega
        · rw [List.mem_singleton] at hz; subst hz; simp only; omega

/-- The item with its frequency multiplied. -/
def Item.scale (c : Nat) (x : Item) : Item := { x with freq := c * x.freq }

theorem Item.before_scale {c : Nat} (hc : 0 < c) (x y : Item) : (x.scale c).before (y.scale c) = x.before y := by
  rw [Bool.eq_iff_iff, Item.before_iff, Item.before_iff]
  simp only [Item.scale, Nat.mul_lt_mul_left hc, Nat.mul_right_inj (Nat.pos_iff_ne_zero.mp hc)]

theorem removeMin_scale {c : Nat} (hc : 0 < c) (q : List Item) :
    removeMin (q.map (Item.scale c)) = (removeMin q).map fun e => (e.1.scale c, e.2.map (Item.scale c)) := by
  induction q with
  | nil => rfl
  | cons x xs ih =>
    rw [List.map_cons, removeMin, removeMin, ih]
    cases removeMin xs with
    | none => rfl
    | some mr =>
      obtain ⟨m, r⟩ := mr
      simp only [Option.map_some, Item.before_scale hc]
      split <;> rfl

theorem combine_scale {A c : Nat} (hc : 0 < c) (fuel k : Nat) (q : List Item) :
    combine A fuel k (q.map (Item.scale c)) = (combine A fuel k q).map (Item.scale c) := by
  induction fuel generalizing k q with
  | zero => rfl
  | succ fuel ih =>
    rw [combine, combine, removeMin_scale hc]
    cases removeMin q with
    | none => rfl
    | some xr =>
      obtain ⟨x, q₁⟩ := xr
      simp only [Option.map_some, removeMin_scale hc]
      cases removeMin q₁ with
      | none => rfl
      | some yr =>
        obtain ⟨y, q₂⟩ := yr
        simp only [Option.map_some, ← ih]
        simp [Item.scale, Nat.mul_add]

theorem itemsTree_scale {A c : Nat} (hc : 0 < c) (q : List Item) :
    itemsTree A (q.map (Item.scale c)) = itemsTree A q := by
  match q with
  | [] => rfl
  | [x] => rfl
  | x :: y :: q =>
    have h := combine_scale (A := A) hc (x :: y :: q).length 0 (x :: y :: q)
    simp only [List.map_cons] at h
    simp only [List.map_cons, itemsTree, List.length_cons, List.length_map] at h ⊢
    rw [h, List.head?_map]
    cases (combine A (q.length + 1 + 1) 0 (x :: y :: q)).head? <;> rfl

/-- Multiplying every frequency by the same factor does not change the tree. -/
theorem buildTree_scale {A c : Nat} (hc : 0 < c) (freqs : List Nat) :
    buildTree A (freqs.map fun f => c * f) = buildTree A freqs := by
  have h : leafItems (freqs.map fun f => c * f) = (leafItems freqs).map (Item.scale c) := by
    have hget : ∀ s, (freqs.map fun f => c * f).getD s 0 = c * freqs.getD s 0 := fun s => by
      rw [List.getD_eq_getElem?_getD, List.getD_eq_getElem?_getD, List.getElem?_map]
      cases freqs[s]? <;> simp
    have hpres : present (freqs.map fun f => c * f) = present freqs := by
      simp only [present, List.length_map, hget, Nat.mul_pos_iff_of_pos_left hc]
    rw [leafItems_eq, leafItems_eq, hpres, List.map_map]
    simp only [hget]
    rfl
  rw [buildTree, buildTree, h, itemsTree_scale hc]
  simp

end Sys2Proof.Machine
end

