-- ==== Sys2Proof/Laws/Text.lean ====
section
/-! SUPPORT. The laws of the table text: decimal numbers, lines, entries, and the round trip of 30_encoding.md R105. -/

namespace Sys2Proof.Machine

theorem toNat_digitChar {d : Nat} (h : d < 10) : (digitChar d).toNat = 0x30 + d := by
  simp only [digitChar, BitVec.toNat_ofNat]; omega

theorem isDigit_digitChar {d : Nat} (h : d < 10) : isDigit (digitChar d) = true := by
  simp [isDigit, toNat_digitChar h]; omega

theorem isDigit_lineFeed : isDigit lineFeed = false := by decide

theorem isBitChar_lineFeed : isBitChar lineFeed = false := by decide

@[simp] theorem isBitChar_bitChar (b : Bool) : isBitChar (bitChar b) = true := by cases b <;> decide

@[simp] theorem charBit_bitChar (b : Bool) : charBit (bitChar b) = b := by cases b <;> decide

/-- The digits of `n` do not depend on the bound on their number, once it is large enough. -/
theorem decDigits_eq {fuel n : Nat} (h : n < fuel) (acc : List Byte) : decDigits fuel n acc = decText n ++ acc := by
  induction n using Nat.strong_induction_on generalizing fuel acc with
  | _ n ih =>
    obtain ⟨f, rfl⟩ : ∃ f, fuel = f + 1 := ⟨fuel - 1, by omega⟩
    by_cases hn : n < 10
    · simp [decText, decDigits, hn]
    · rw [decText, decDigits, decDigits, if_neg hn, if_neg hn, ih (n / 10) (by omega) (by omega),
        ih (n / 10) (by omega) (by omega)]
      simp

theorem decText_of_lt {n : Nat} (h : n < 10) : decText n = [digitChar n] := by simp [decText, decDigits, h]

theorem decText_of_ge {n : Nat} (h : 10 ≤ n) : decText n = decText (n / 10) ++ [digitChar (n % 10)] := by
  rw [decText, decDigits, if_neg (by omega), decDigits_eq (by omega)]

theorem decText_ne_nil (n : Nat) : decText n ≠ [] := by
  by_cases h : n < 10
  · simp [decText_of_lt h]
  · simp [decText_of_ge (Nat.le_of_not_lt h)]

theorem isDigit_of_mem_decText {n : Nat} {c : Byte} (hc : c ∈ decText n) : isDigit c = true := by
  induction n using Nat.strong_induction_on with
  | _ n ih =>
    by_cases h : n < 10
    · rw [decText_of_lt h, List.mem_singleton] at hc; exact hc ▸ isDigit_digitChar h
    · rw [decText_of_ge (by omega), List.mem_append, List.mem_singleton] at hc
      rcases hc with hc | rfl
      · exact ih _ (by omega) hc
      · exact isDigit_digitChar (by omega)

theorem decValue_append_singleton (l : List Byte) (c : Byte) :
    decValue (l ++ [c]) = decValue l * 10 + (c.toNat - 0x30) := by simp [decValue]

theorem decValue_decText (n : Nat) : decValue (decText n) = n := by
  induction n using Nat.strong_induction_on with
  | _ n ih =>
    by_cases h : n < 10
    · rw [decText_of_lt h]; simp [decValue, toNat_digitChar h]
    · rw [decText_of_ge (by omega), decValue_append_singleton, ih _ (by omega), toNat_digitChar (by omega)]; omega

/-- `dec(s)` has no leading zero but in `dec(0)` (R96). -/
theorem head_decText {n : Nat} (h : 0 < n) : (decText n).head? ≠ some 0x30 := by
  induction n using Nat.strong_induction_on with
  | _ n ih =>
    by_cases hn : n < 10
    · rw [decText_of_lt hn, List.head?_cons, ne_eq, Option.some_inj]
      intro he; have := congrArg BitVec.toNat he; rw [toNat_digitChar hn] at this; simp at this; omega
    · rw [decText_of_ge (by omega), List.head?_append_of_ne_nil _ (decText_ne_nil _)]
      exact ih _ (by omega) (by omega)

theorem length_decText_le {n : Nat} (h : n < 1000) : (decText n).length ≤ 3 := by
  by_cases h1 : n < 10
  · simp [decText_of_lt h1]
  · rw [decText_of_ge (by omega)]
    by_cases h2 : n / 10 < 10
    · simp [decText_of_lt h2]
    · rw [decText_of_ge (by omega), decText_of_lt (by omega : n / 10 / 10 < 10)]; simp

theorem lineFeed_not_mem_decText (n : Nat) : lineFeed ∉ decText n := fun h => by
  have := isDigit_of_mem_decText h; rw [isDigit_lineFeed] at this; contradiction

theorem lineFeed_not_mem_chars (p : List Bool) : lineFeed ∉ p.map bitChar := by
  simp only [List.mem_map, not_exists, not_and]
  rintro b - h; have := isBitChar_bitChar b; rw [h, isBitChar_lineFeed] at this; contradiction

/-- A first line that ends with a line feed is cut off. -/
theorem lines_append {l : List Byte} (h : lineFeed ∉ l) (rest : List Byte) :
    lines (l ++ lineFeed :: rest) = l :: lines rest := by
  induction l with
  | nil => simp [lines]
  | cons c l ih =>
    simp only [List.mem_cons, not_or] at h
    rw [List.cons_append, lines, if_neg (Ne.symm h.1), ih h.2]

/-- No line holds a line feed, and the lines with a line feed after each are the text, completed with one (R100). -/
theorem lineFeed_not_mem_lines {t l : List Byte} (h : l ∈ lines t) : lineFeed ∉ l := by
  induction t generalizing l with
  | nil => simp [lines] at h
  | cons c t ih =>
    rw [lines] at h
    split at h
    · rcases List.mem_cons.mp h with rfl | h
      · simp
      · exact ih h
    · next hc =>
      cases ht : lines t with
      | nil => rw [ht] at h; simp only [List.mem_singleton] at h; subst h; simpa using Ne.symm hc
      | cons l' ls =>
        rw [ht] at h ih
        rcases List.mem_cons.mp h with rfl | h
        · have := ih (l := l') (by simp)
          simp only [List.mem_cons, not_or]; exact ⟨Ne.symm hc, this⟩
        · exact ih (List.mem_cons_of_mem _ h)

theorem lines_eq_nil {t : List Byte} : lines t = [] ↔ t = [] := by
  cases t with
  | nil => simp [lines]
  | cons c t =>
    simp only [lines, reduceCtorEq, iff_false]
    split
    · simp
    · split <;> simp

theorem flatMap_lines (t : List Byte) :
    (lines t).flatMap (fun l => l ++ [lineFeed])
      = if t = [] ∨ t.getLast? = some lineFeed then t else t ++ [lineFeed] := by
  induction t with
  | nil => simp [lines]
  | cons c t ih =>
    rw [lines]
    split
    · next hc =>
      subst hc
      rw [List.flatMap_cons, ih]
      cases t with
      | nil => simp
      | cons d t => simp only [reduceCtorEq, false_or, List.getLast?_cons_cons]; split <;> simp
    · next hc =>
      cases t with
      | nil => simp [lines, hc]
      | cons d t =>
        cases ht : lines (d :: t) with
        | nil => simp [lines_eq_nil] at ht
        | cons l ls =>
          rw [ht, List.flatMap_cons] at ih
          simp only [reduceCtorEq, false_or, List.getLast?_cons_cons] at ih ⊢
          rw [List.flatMap_cons, List.cons_append, List.cons_append, ih]
          split <;> simp

theorem lines_fmt (P : List (Nat × List Bool)) :
    lines (fmt P) = P.flatMap fun e => [decText e.1, e.2.map bitChar] := by
  induction P with
  | nil => rfl
  | cons e P ih =>
    obtain ⟨s, p⟩ := e
    have h : fmt ((s, p) :: P) = decText s ++ lineFeed :: (p.map bitChar ++ lineFeed :: fmt P) := by
      simp [fmt, entryText]
    rw [h, lines_append (lineFeed_not_mem_decText s), lines_append (lineFeed_not_mem_chars p), ih]
    rfl

theorem pairLines_flatMap (P : List (Nat × List Bool)) :
    pairLines (P.flatMap fun e => [decText e.1, e.2.map bitChar])
      = P.map fun e => (decText e.1, some (e.2.map bitChar)) := by
  induction P with
  | nil => rfl
  | cons e P ih => simp [pairLines, ih]

/-- The length of the text (R99). -/
theorem length_fmt (P : List (Nat × List Bool)) :
    (fmt P).length = (P.map fun e => (decText e.1).length + e.2.length + 2).sum := by
  induction P with
  | nil => rfl
  | cons e P ih => obtain ⟨s, p⟩ := e; simp [fmt, entryText, ih]; omega

theorem fmt_append (P Q : List (Nat × List Bool)) : fmt (P ++ Q) = fmt P ++ fmt Q := by
  induction P with
  | nil => rfl
  | cons e P ih => simp [fmt, ih]

theorem parseSym_decText {A s : Nat} (h : s < A) : parseSym A (decText s) = some s := by
  have hd : (decText s).all isDigit = true := List.all_eq_true.mpr fun c hc => isDigit_of_mem_decText hc
  simp [parseSym, decText_ne_nil, hd, decValue_decText, h]

theorem parseCode_chars {lenMax : Nat} {p : List Bool} (h : p ≠ []) (hl : p.length ≤ lenMax) :
    parseCode lenMax (some (p.map bitChar)) = .ok p := by
  simp [parseCode, h, hl, Function.comp_def]

end Sys2Proof.Machine
end

