-- ==== Sys2Proof/Laws/Codec.lean ====
section
/-! SUPPORT. The laws of SAVE and LOAD: what an insertion does and when it conflicts (41_codec.md R153, R154), what a loaded table gives
(R157, R159), and when SAVE succeeds (R143, R144). -/

namespace Sys2Proof.Machine

open OptTree

/-- Two paths collide when one is a prefix of the other (R154). -/
def Collide (p q : List Bool) : Prop := p <+: q ∨ q <+: p

theorem collide_cons {b : Bool} {p q : List Bool} : Collide (b :: p) (b :: q) ↔ Collide p q := by
  simp [Collide, List.cons_prefix_cons]

theorem not_collide_cons_not {b : Bool} {p q : List Bool} : ¬ Collide ((!b) :: p) (b :: q) := by
  cases b <;> simp [Collide, List.cons_prefix_cons]

/-- What a completed insertion gives (R153): one more pair, and no bare node. -/
theorem insertPath_some {s : Nat} {p : List Bool} {n t : OptTree} (hn : n.isNode = true)
    (h : insertPath s p n = some t) :
    t.isNode = true ∧ t.pairs.Perm ((s, p) :: n.pairs) ∧ (n.ChildrenOk → t.noBareNode = true) := by
  induction p generalizing n t with
  | nil => simp [insertPath] at h
  | cons b p ih =>
    have key : ∀ u m : OptTree, m.pairs = (n.child b).pairs → u.pairs.Perm ((s, p) :: m.pairs) →
        (n.setChild b u).pairs.Perm ((s, b :: p) :: n.pairs) := by
      intro u m hm hu
      refine (pairs_setChild_perm n u hn b).trans ?_
      refine ((hu.map _).append_right _).trans ?_
      rw [hm]
      exact ((pairs_perm_child n hn b).symm.cons _)
    cases p with
    | nil =>
      simp only [insertPath] at h
      split at h <;> simp only [Option.some.injEq, reduceCtorEq] at h
      next hc =>
        subst h
        refine ⟨by simpa using hn, key _ .absent (by rw [hc]) (by simp), fun ho => ?_⟩
        exact noBareNode_setChild hn ho rfl (by simp)
    | cons c rest =>
      simp only [insertPath] at h
      split at h
      · next hc =>
        obtain ⟨u, hu, rfl⟩ := Option.map_eq_some_iff.mp h
        obtain ⟨h1, h2, h3⟩ := ih rfl hu
        refine ⟨by simpa using hn, key u _ (by rw [hc]; rfl) h2, fun ho => ?_⟩
        refine noBareNode_setChild hn ho (h3 ?_) (ne_absent_of_isNode h1)
        intro b; cases b <;> rfl
      · simp at h
      · next l r hc =>
        obtain ⟨u, hu, rfl⟩ := Option.map_eq_some_iff.mp h
        obtain ⟨h1, h2, h3⟩ := ih rfl hu
        refine ⟨by simpa using hn, key u _ (by rw [hc]) h2, fun ho => ?_⟩
        exact noBareNode_setChild hn ho (h3 (childrenOk_of_noBareNode (hc ▸ ho b))) (ne_absent_of_isNode h1)

/-- An insertion conflicts exactly when the path collides with the path of a leaf (R154). -/
theorem insertPath_none_iff {s : Nat} {p : List Bool} {n : OptTree} (hn : n.isNode = true) (ho : n.ChildrenOk)
    (hp : p ≠ []) : insertPath s p n = none ↔ ∃ e ∈ n.pairs, Collide e.2 p := by
  induction p generalizing n with
  | nil => exact absurd rfl hp
  | cons b p ih =>
    have side : (∃ e ∈ n.pairs, Collide e.2 (b :: p)) ↔ ∃ e ∈ (n.child b).pairs, Collide e.2 p := by
      constructor
      · rintro ⟨e, he, hc⟩
        have he := (pairs_perm_child n hn b).subset he
        simp only [List.mem_append, List.mem_map] at he
        rcases he with ⟨a, ha, rfl⟩ | ⟨a, ha, rfl⟩
        · exact ⟨a, ha, collide_cons.mp hc⟩
        · exact absurd hc not_collide_cons_not
      · rintro ⟨e, he, hc⟩
        refine ⟨(e.1, b :: e.2), (pairs_perm_child n hn b).symm.subset ?_, collide_cons.mpr hc⟩
        simp only [List.mem_append, List.mem_map]
        exact .inl ⟨e, he, rfl⟩
    rw [side]
    cases p with
    | nil =>
      simp only [insertPath]
      split
      · next hc => simp [hc]
      · next a hc => simp [hc, Collide]
      · next l r hc =>
        simp only [true_iff, hc]
        have hne : (node l r).pairs ≠ [] := by
          rw [ne_eq, pairs_eq_nil (hc ▸ ho b)]; simp
        obtain ⟨e, he⟩ := List.exists_mem_of_ne_nil _ hne
        exact ⟨e, he, .inr (List.nil_prefix)⟩
    | cons c rest =>
      simp only [insertPath]
      split
      · next hc =>
        rw [Option.map_eq_none_iff, ih rfl (by intro b; cases b <;> rfl) (by simp), hc]
        simp [pairs_node]
      · next a hc => simp [hc, Collide]
      · next l r hc =>
        rw [Option.map_eq_none_iff, ih rfl (childrenOk_of_noBareNode (hc ▸ ho b)) (by simp), hc]

/-- The state of LOAD between two entries (R152): an Internal root, no bare node below it, and the set of placed symbols
is that of its leaves. -/
structure LoadInv (A lenMax : Nat) (t : OptTree) (placed : List Nat) : Prop where
  isNode : t.isNode = true
  children : t.ChildrenOk
  placed : ∀ s, s ∈ placed ↔ s ∈ t.symbols
  nodup : t.symbols.Nodup
  below : ∀ s ∈ t.symbols, s < A
  len : ∀ e ∈ t.pairs, e.2.length ≤ lenMax

theorem loadInv_root (A lenMax : Nat) : LoadInv A lenMax (.node .absent .absent) [] :=
  { isNode := rfl, children := fun b => by cases b <;> rfl, placed := by simp [symbols], nodup := by simp [symbols],
    below := by simp [symbols], len := by simp [pairs_node] }

theorem symbols_perm_of_pairs_perm {t : OptTree} {l : List (Nat × List Bool)} (h : t.pairs.Perm l) :
    t.symbols.Perm (l.map Prod.fst) := by
  rw [← map_fst_pairs]; exact h.map _

theorem loadInv_insert {A lenMax s : Nat} {c : List Bool} {n t : OptTree} {placed : List Nat}
    (hi : LoadInv A lenMax n placed) (hs : s < A) (hd : s ∉ placed) (hl : c.length ≤ lenMax)
    (h : insertPath s c n = some t) : LoadInv A lenMax t (s :: placed) := by
  obtain ⟨h1, h2, h3⟩ := insertPath_some hi.isNode h
  have hsym : t.symbols.Perm (s :: n.symbols) := by
    have := symbols_perm_of_pairs_perm h2
    rwa [List.map_cons, map_fst_pairs] at this
  refine ⟨h1, childrenOk_of_noBareNode (h3 hi.children), fun a => ?_, ?_, fun a ha => ?_, fun e he => ?_⟩
  · rw [hsym.mem_iff, List.mem_cons, List.mem_cons, hi.placed]
  · rw [hsym.nodup_iff, List.nodup_cons]
    exact ⟨fun hm => hd ((hi.placed s).mpr hm), hi.nodup⟩
  · rcases List.mem_cons.mp (hsym.subset ha) with rfl | ha
    · exact hs
    · exact hi.below a ha
  · rcases List.mem_cons.mp (h2.subset he) with rfl | he
    · exact hl
    · exact hi.len e he

/-- What an accepted entry gives (R152): its two lines parse, its symbol is new, its path is inserted. -/
theorem loadEntry_ok {A lenMax : Nat} {e : List Byte × Option (List Byte)} {n t : OptTree} {placed : List Nat} {s : Nat} :
    loadEntry A lenMax e n placed = .ok (t, s) ↔
      ∃ c, parseSym A e.1 = some s ∧ parseCode lenMax e.2 = .ok c ∧ s ∉ placed ∧ insertPath s c n = some t := by
  unfold loadEntry
  constructor
  · intro h
    split at h
    · simp at h
    · next a ha =>
      split at h
      · simp at h
      · next c hc =>
        split at h
        · simp at h
        · next hd =>
          split at h
          · simp at h
          · next u hu =>
            simp only [Except.ok.injEq, Prod.mk.injEq] at h
            obtain ⟨rfl, rfl⟩ := h
            exact ⟨c, ha, hc, hd, hu⟩
  · rintro ⟨c, ha, hc, hd, hu⟩
    simp [ha, hc, hd, hu]

theorem parseSym_lt {A : Nat} {l : List Byte} {s : Nat} (h : parseSym A l = some s) : s < A := by
  unfold parseSym at h
  split at h
  · simp at h
  · split at h
    · next hv => simp only [Option.some.injEq] at h; omega
    · simp at h

theorem parseCode_length {lenMax : Nat} {o : Option (List Byte)} {c : List Bool} (h : parseCode lenMax o = .ok c) :
    c ≠ [] ∧ c.length ≤ lenMax := by
  cases o with
  | none => simp [parseCode] at h
  | some l =>
    simp only [parseCode] at h
    split at h
    · simp at h
    · split at h
      · simp at h
      · split at h
        · simp at h
        · next h1 _ h2 =>
          simp only [Except.ok.injEq] at h
          subst h
          exact ⟨by simpa using h1, by simpa using Nat.le_of_not_lt h2⟩

/-- A completed run of LOAD's loop keeps its invariant; each entry adds one leaf; after at least one entry the tree has
no bare node (R37, R152). -/
theorem loadLoop_ok {A lenMax k : Nat} {es : List (List Byte × Option (List Byte))} {n t : OptTree} {placed : List Nat}
    (hi : LoadInv A lenMax n placed) (h : loadLoop A lenMax es k n placed = .ok t) :
    (∃ placed', LoadInv A lenMax t placed') ∧ t.leafCount = n.leafCount + es.length ∧
      ((n.noBareNode = true ∨ es ≠ []) → t.noBareNode = true) := by
  induction es generalizing k n placed with
  | nil => simp only [loadLoop, Except.ok.injEq] at h; subst h; exact ⟨⟨placed, hi⟩, by simp, by simp⟩
  | cons e es ih =>
    rw [loadLoop] at h
    cases he : loadEntry A lenMax e n placed with
    | error f => simp [he] at h
    | ok ts =>
      obtain ⟨u, s⟩ := ts
      simp only [he] at h
      obtain ⟨c, h1, h2, h3, h4⟩ := loadEntry_ok.mp he
      have hi' := loadInv_insert hi (parseSym_lt h1) h3 (parseCode_length h2).2 h4
      obtain ⟨g1, g2, g3⟩ := ih hi' h
      obtain ⟨i1, i2, i3⟩ := insertPath_some hi.isNode h4
      refine ⟨g1, ?_, fun _ => g3 (.inl (i3 hi.children))⟩
      have := i2.length_eq
      rw [List.length_cons, length_pairs, length_pairs] at this
      rw [g2, this, List.length_cons]; omega

/-- The length of the longest path to a leaf is the length of some leaf's path. -/
theorem depth_le_of_pairs {lenMax : Nat} {t : OptTree} (hb : t.noBareNode = true)
    (h : ∀ e ∈ t.pairs, e.2.length ≤ lenMax) : t.depth ≤ lenMax := by
  induction t generalizing lenMax with
  | absent => simp [depth]
  | leaf s => simp [depth]
  | node l r ihl ihr =>
    have hne : (node l r).pairs ≠ [] := by rw [ne_eq, pairs_eq_nil hb]; simp
    obtain ⟨e, he⟩ := List.exists_mem_of_ne_nil _ hne
    have hpos : 0 < lenMax := by
      have := h e he
      have hp : e.2 ≠ [] := path_ne_nil rfl (s := e.1) he
      have := List.length_pos_iff.mpr hp
      omega
    simp only [noBareNode, Bool.and_eq_true] at hb
    have hl := ihl (lenMax := lenMax - 1) hb.1.2 fun e he => by
      have := h (e.1, false :: e.2) (by rw [mem_pairs_node]; exact .inl ⟨e.2, rfl, he⟩)
      simp only [List.length_cons] at this; omega
    have hr := ihr (lenMax := lenMax - 1) hb.2 fun e he => by
      have := h (e.1, true :: e.2) (by rw [mem_pairs_node]; exact .inr ⟨e.2, rfl, he⟩)
      simp only [List.length_cons] at this; omega
    simp only [depth]; omega

/-- What a successful LOAD leaves (R36 to R39, R158): a valid tree with one leaf per entry. -/
theorem loadTable_ok {A lenMax : Nat} {text : List Byte} {t : OptTree} {k : Nat} (h : loadTable A lenMax text = .ok (t, k)) :
    t.Valid A lenMax ∧ k = t.leafCount ∧ k = (entries text).length := by
  unfold loadTable at h
  split at h
  · simp at h
  · next hne =>
    cases hl : loadLoop A lenMax (entries text) 0 (.node .absent .absent) [] with
    | error r => simp [hl] at h
    | ok u =>
      simp only [hl, Except.ok.injEq, Prod.mk.injEq] at h
      obtain ⟨rfl, rfl⟩ := h
      obtain ⟨⟨pl, hi⟩, h2, h3⟩ := loadLoop_ok (loadInv_root A lenMax) hl
      have hb := h3 (.inr hne)
      exact ⟨⟨hi.isNode, hb, hi.below, hi.nodup, depth_le_of_pairs hb hi.len⟩, by simpa [leafCount] using h2.symm, rfl⟩

/-- A list of pairs that LOAD accepts after `n` (R152): symbols of the alphabet, new and different; paths not empty, not too
long, and free of collisions with each other and with the leaves of `n`. -/
structure Loadable (A lenMax : Nat) (n : OptTree) (P : List (Nat × List Bool)) : Prop where
  below : ∀ e ∈ P, e.1 < A
  len : ∀ e ∈ P, e.2 ≠ [] ∧ e.2.length ≤ lenMax
  nodup : (P.map Prod.fst).Nodup
  fresh : ∀ e ∈ P, e.1 ∉ n.symbols
  prefixFree : P.Pairwise fun x y => ¬ Collide x.2 y.2
  apart : ∀ e ∈ P, ∀ x ∈ n.pairs, ¬ Collide x.2 e.2

/-- LOAD's loop accepts every such list, however its entries are written, and adds exactly its pairs. -/
theorem loadLoop_of_loadable {A lenMax k : Nat} {es : List (List Byte × Option (List Byte))}
    {P : List (Nat × List Bool)} {n : OptTree} {placed : List Nat}
    (hes : (es.map fun e => (parseSym A e.1, parseCode lenMax e.2)) = P.map fun e => (some e.1, .ok e.2))
    (hi : LoadInv A lenMax n placed) (hP : Loadable A lenMax n P) :
    ∃ t, loadLoop A lenMax es k n placed = .ok t ∧ t.pairs.Perm (P ++ n.pairs) ∧ (P ≠ [] → t.noBareNode = true) := by
  induction P generalizing k n placed es with
  | nil =>
    rw [List.map_nil, List.map_eq_nil_iff] at hes
    subst hes
    exact ⟨n, rfl, by simp, by simp⟩
  | cons e P ih =>
    obtain ⟨s, p⟩ := e
    obtain ⟨e', es', rfl⟩ : ∃ e' es', es = e' :: es' := by cases es <;> simp_all
    simp only [List.map_cons, List.cons.injEq, Prod.mk.injEq] at hes
    obtain ⟨⟨hsym, hcode⟩, hes⟩ := hes
    have hs := hP.below (s, p) (by simp)
    obtain ⟨hp, hl⟩ := hP.len (s, p) (by simp)
    have hd : s ∉ placed := fun hm => hP.fresh (s, p) (by simp) ((hi.placed s).mp hm)
    have hins : insertPath s p n ≠ none := by
      rw [ne_eq, insertPath_none_iff hi.isNode hi.children hp]
      rintro ⟨x, hx, hc⟩
      exact hP.apart (s, p) (by simp) x hx hc
    obtain ⟨u, hu⟩ := Option.ne_none_iff_exists'.mp hins
    have hi' := loadInv_insert hi hs hd hl hu
    obtain ⟨i1, i2, i3⟩ := insertPath_some hi.isNode hu
    have hnd := List.nodup_cons.mp hP.nodup
    have hpf := List.pairwise_cons.mp hP.prefixFree
    obtain ⟨t, ht, hperm, -⟩ := ih (k := k + 1) hes hi'
      { below := fun e he => hP.below e (List.mem_cons_of_mem _ he)
        len := fun e he => hP.len e (List.mem_cons_of_mem _ he)
        nodup := hnd.2
        fresh := fun e he hm => by
          rw [← hi'.placed] at hm
          rcases List.mem_cons.mp hm with heq | hm
          · exact hnd.1 (List.mem_map.mpr ⟨e, he, heq⟩)
          · exact hP.fresh e (List.mem_cons_of_mem _ he) ((hi.placed _).mp hm)
        prefixFree := hpf.2
        apart := fun e he x hx => by
          rcases List.mem_cons.mp (i2.subset hx) with rfl | hx
          · exact hpf.1 e he
          · exact hP.apart e (List.mem_cons_of_mem _ he) x hx }
    have hent : loadEntry A lenMax e' n placed = .ok (u, s) := loadEntry_ok.mpr ⟨p, hsym, hcode, hd, hu⟩
    refine ⟨t, ?_, ?_, fun _ => ?_⟩
    · rw [loadLoop, hent]; exact ht
    · refine hperm.trans ((i2.append_left P).trans ?_)
      exact List.perm_middle
    · exact (loadLoop_ok hi' ht).2.2 (.inl (i3 hi.children))

/-- A completed run of LOAD's loop has read every entry and added exactly their pairs. -/
theorem loadLoop_pairs {A lenMax k : Nat} {es : List (List Byte × Option (List Byte))} {n t : OptTree} {placed : List Nat}
    (hi : LoadInv A lenMax n placed) (h : loadLoop A lenMax es k n placed = .ok t) :
    ∃ P : List (Nat × List Bool),
      (es.map fun e => (parseSym A e.1, parseCode lenMax e.2)) = P.map (fun e => (some e.1, .ok e.2)) ∧
      t.pairs.Perm (P ++ n.pairs) := by
  induction es generalizing k n placed with
  | nil => simp only [loadLoop, Except.ok.injEq] at h; subst h; exact ⟨[], rfl, by simp⟩
  | cons e es ih =>
    rw [loadLoop] at h
    cases he : loadEntry A lenMax e n placed with
    | error f => simp [he] at h
    | ok ts =>
      obtain ⟨u, s⟩ := ts
      simp only [he] at h
      obtain ⟨c, h1, h2, h3, h4⟩ := loadEntry_ok.mp he
      obtain ⟨P, hP, hperm⟩ := ih (loadInv_insert hi (parseSym_lt h1) h3 (parseCode_length h2).2 h4) h
      refine ⟨(s, c) :: P, by simp [h1, h2, hP], hperm.trans ?_⟩
      exact ((insertPath_some hi.isNode h4).2.1.append_left P).trans List.perm_middle

/-- LOAD's loop up to an entry that fails (R152): everything before it is placed, nothing after it is looked at. -/
theorem loadLoop_first_error {A lenMax k : Nat} {pre post : List (List Byte × Option (List Byte))}
    {e : List Byte × Option (List Byte)} {n t : OptTree} {placed : List Nat} {f : Failure}
    (hi : LoadInv A lenMax n placed) (h : loadLoop A lenMax pre k n placed = .ok t)
    (he : loadEntry A lenMax e t t.symbols = .error f) :
    loadLoop A lenMax (pre ++ e :: post) k n placed = .error { failure := f, pos := k + pre.length } := by
  induction pre generalizing k n placed with
  | nil =>
    simp only [loadLoop, Except.ok.injEq] at h
    subst h
    have : loadEntry A lenMax e n placed = loadEntry A lenMax e n n.symbols := by
      simp only [loadEntry, hi.placed]
    simp [loadLoop, this, he]
  | cons e₁ pre ih =>
    rw [loadLoop] at h
    cases he1 : loadEntry A lenMax e₁ n placed with
    | error f => simp [he1] at h
    | ok ts =>
      obtain ⟨u, s⟩ := ts
      simp only [he1] at h
      obtain ⟨c, h1, h2, h3, h4⟩ := loadEntry_ok.mp he1
      have := ih (loadInv_insert hi (parseSym_lt h1) h3 (parseCode_length h2).2 h4) h
      rw [List.cons_append, loadLoop, he1]
      simp only [this, List.length_cons]
      congr 2; omega

/-- LOAD of a text whose entries read as a list of pairs (R157, R159). -/
theorem loadTable_of_loadable {A lenMax : Nat} {text : List Byte} {P : List (Nat × List Bool)} (hne : P ≠ [])
    (hread : ((entries text).map fun e => (parseSym A e.1, parseCode lenMax e.2)) = P.map fun e => (some e.1, .ok e.2))
    (hP : Loadable A lenMax (.node .absent .absent) P) :
    ∃ t, loadTable A lenMax text = .ok (t, P.length) ∧ t.pairs.Perm P ∧ t.noBareNode = true := by
  obtain ⟨t, ht, hperm, hb⟩ := loadLoop_of_loadable (k := 0) hread (loadInv_root A lenMax) hP
  have hlen : (entries text).length = P.length := by simpa using congrArg List.length hread
  have hne' : entries text ≠ [] := by
    intro h0; rw [h0, List.length_nil] at hlen; exact hne (List.eq_nil_of_length_eq_zero hlen.symm)
  refine ⟨t, ?_, by simpa [pairs_node] using hperm, hb hne⟩
  rw [loadTable, if_neg hne', ht, hlen]

/-- LOAD of the text of a list of pairs (R105, R157, R159). -/
theorem loadTable_fmt {A lenMax : Nat} {P : List (Nat × List Bool)} (hne : P ≠ [])
    (hP : Loadable A lenMax (.node .absent .absent) P) :
    ∃ t, loadTable A lenMax (fmt P) = .ok (t, P.length) ∧ t.pairs.Perm P ∧ t.noBareNode = true := by
  have hes : entries (fmt P) = P.map fun e => (decText e.1, some (e.2.map bitChar)) := by
    rw [entries, lines_fmt, pairLines_flatMap]
  have hread : ((entries (fmt P)).map fun e => (parseSym A e.1, parseCode lenMax e.2)) = P.map fun e => (some e.1, .ok e.2) := by
    rw [hes, List.map_map]
    apply List.map_congr_left
    intro e he
    simp only [Function.comp_def, parseSym_decText (hP.below e he), parseCode_chars (hP.len e he).1 (hP.len e he).2]
  obtain ⟨t, ht, hperm, hb⟩ := loadTable_of_loadable hne hread hP
  exact ⟨t, ht, hperm, hb⟩

/-- The pairs of a valid tree are a list LOAD accepts (R36 to R39). -/
theorem loadable_pairs {A lenMax : Nat} {t : OptTree} (h : t.Valid A lenMax) :
    Loadable A lenMax (.node .absent .absent) t.pairs := by
  obtain ⟨h1, h2, h3, h4, h5⟩ := h
  refine ⟨fun e he => h3 _ (mem_symbols_iff.mpr ⟨e.2, he⟩), fun e he => ⟨path_ne_nil h1 (s := e.1) he, ?_⟩, ?_, ?_, ?_, ?_⟩
  · exact (length_le_depth (s := e.1) he).trans h5
  · rwa [map_fst_pairs]
  · simp [symbols]
  · have hnd : t.pairs.Pairwise fun x y => x.1 ≠ y.1 := by
      rw [← map_fst_pairs] at h4; exact List.pairwise_map.mp h4
    refine hnd.imp_of_mem ?_
    rintro ⟨a, p⟩ ⟨b, q⟩ ha hb hab (hc | hc)
    · exact hab (pairs_prefix ha hb hc).1
    · exact hab (pairs_prefix hb ha hc).1.symm
  · simp [pairs_node]

/-- LOAD of what SAVE writes gives the tree back (R159). -/
theorem loadTable_fmt_pairs {A lenMax : Nat} {t : OptTree} (h : t.Valid A lenMax) :
    loadTable A lenMax (fmt t.pairs) = .ok (t, t.leafCount) := by
  have hne : t.pairs ≠ [] := by rw [ne_eq, pairs_eq_nil h.2.1]; exact ne_absent_of_isNode h.1
  obtain ⟨u, hu, hperm, hb⟩ := loadTable_fmt hne (loadable_pairs h)
  rw [hu, eq_of_pairs_perm hb h.2.1 hperm, length_pairs]

/-- SAVE's loop succeeds exactly when the whole text fits, and then gives it (R143, R144). -/
theorem saveLoop_ok {cap : Nat} {P : List (Nat × List Bool)} {k n : Nat} (h : n + (fmt P).length ≤ cap) :
    saveLoop cap P k n = .ok (fmt P) := by
  induction P generalizing k n with
  | nil => rfl
  | cons e P ih =>
    obtain ⟨s, p⟩ := e
    simp only [fmt, List.length_append] at h
    rw [saveLoop, if_neg (by omega), ih (by omega)]
    rfl

/-- SAVE's loop fails at the first pair that does not fit (R143). -/
theorem saveLoop_error {cap : Nat} {P : List (Nat × List Bool)} {k n : Nat} (h0 : n ≤ cap) (h : cap < n + (fmt P).length) :
    ∃ j, j < P.length ∧ n + (fmt (P.take j)).length ≤ cap ∧ cap < n + (fmt (P.take (j + 1))).length ∧
      saveLoop cap P k n = .error { failure := .outputFull, pos := k + j } := by
  induction P generalizing k n with
  | nil => simp [fmt] at h; omega
  | cons e P ih =>
    obtain ⟨s, p⟩ := e
    simp only [fmt, List.length_append] at h
    by_cases hc : cap < n + (entryText s p).length
    · exact ⟨0, by simp, by simpa [fmt] using h0, by simpa [fmt] using hc, by simp [saveLoop, hc]⟩
    · obtain ⟨j, h1, h2, h3, h4⟩ := ih (k := k + 1) (n := n + (entryText s p).length) (by omega) (by omega)
      refine ⟨j + 1, by simpa using h1, ?_, ?_, ?_⟩
      · simp only [List.take_succ_cons, fmt, List.length_append]; omega
      · simp only [List.take_succ_cons, fmt, List.length_append] at h3 ⊢; omega
      · rw [saveLoop, if_neg hc, h4]; simp; omega

theorem length_le_of_subset_range {l : List Nat} (h : l.Nodup) {A : Nat} (hA : ∀ s ∈ l, s < A) : l.length ≤ A := by
  have : l ⊆ List.range A := fun s hs => List.mem_range.mpr (hA s hs)
  simpa using (List.Nodup.subperm h this).length_le

/-- R7 (b): the bound is 256 * 260, and TBL is larger. -/
@[simp] theorem tableBytesMax_eq : tableBytesMax = 66560 := by decide

theorem leafCount_le {t : OptTree} {A lenMax : Nat} (h : t.Valid A lenMax) : t.leafCount ≤ A := by
  rw [← length_symbols]; exact length_le_of_subset_range h.2.2.2.1 h.2.2.1

/-- R7 (b): an entry of its table has at most 3 digits and 255 code characters. -/
theorem length_entry_le {t : OptTree} (h : t.Valid 256 255) {e : Nat × List Bool} (he : e ∈ t.pairs) :
    (decText e.1).length ≤ 3 ∧ e.2.length ≤ 255 :=
  ⟨length_decText_le (by have := h.2.2.1 _ (mem_symbols_iff.mpr ⟨e.2, he⟩); omega),
    (length_le_depth (s := e.1) he).trans h.2.2.2.2⟩

/-- R7 (b): the text of a valid tree of the reference configuration stays within the bound. -/
theorem length_fmt_pairs_le {t : OptTree} (h : t.Valid 256 255) : (fmt t.pairs).length ≤ tableBytesMax := by
  have hb : ∀ x ∈ t.pairs.map (fun e => (decText e.1).length + e.2.length + 2), x ≤ 260 := by
    intro x hx
    obtain ⟨e, he, rfl⟩ := List.mem_map.mp hx
    have := length_entry_le h he
    omega
  have hlen : t.pairs.length ≤ 256 := by rw [length_pairs]; exact leafCount_le h
  rw [length_fmt, tableBytesMax_eq]
  have := List.sum_le_card_nsmul _ _ hb
  simp only [List.length_map, smul_eq_mul] at this
  omega

end Sys2Proof.Machine
end

