-- ==== Sys2Proof/Laws/Memory.lean ====
section
/-! SUPPORT. The laws of a memory: read after write, the cells a run of writes leaves alone, and that every memory operation
keeps the canonical form. -/

namespace Sys2Proof.Machine

variable {w : Nat}

theorem lookupCell_insertCell_self (cs : List (Nat × BitVec w)) (i : Nat) (v : BitVec w) :
    lookupCell (insertCell cs i v) i = some v := by
  induction cs with
  | nil => simp [insertCell, lookupCell]
  | cons c cs ih =>
    obtain ⟨a, u⟩ := c
    simp only [insertCell]
    split
    · simp [lookupCell]
    · split
      · simp [lookupCell]
      · simp only [lookupCell, ih]
        rw [if_neg (by omega)]

theorem lookupCell_insertCell_other {cs : List (Nat × BitVec w)} {i j : Nat} {v : BitVec w} (h : j ≠ i) :
    lookupCell (insertCell cs i v) j = lookupCell cs j := by
  induction cs with
  | nil => simp [insertCell, lookupCell, Ne.symm h]
  | cons c cs ih =>
    obtain ⟨a, u⟩ := c
    simp only [insertCell]
    split
    · simp [lookupCell, Ne.symm h]
    · split
      · subst_vars; simp [lookupCell, Ne.symm h]
      · simp [lookupCell, ih]

theorem lookupCell_none_of_ne {cs : List (Nat × BitVec w)} {i : Nat} (h : ∀ x ∈ cs, x.1 ≠ i) :
    lookupCell cs i = none := by
  induction cs with
  | nil => rfl
  | cons c cs ih =>
    obtain ⟨a, u⟩ := c
    simp only [List.forall_mem_cons] at h
    rw [lookupCell, if_neg h.1, ih h.2]

@[simp] theorem Memory.known_write_self (m : Memory w) (i : Nat) (v : BitVec w) :
    (m.write i v).known i = some v := lookupCell_insertCell_self _ _ _

theorem Memory.known_write_other {m : Memory w} {i j : Nat} {v : BitVec w} (h : j ≠ i) :
    (m.write i v).known j = m.known j := lookupCell_insertCell_other h

@[simp] theorem Memory.epoch_write (m : Memory w) (i : Nat) (v : BitVec w) : (m.write i v).epoch = m.epoch := rfl

@[simp] theorem Memory.read_write_self (sp : Space) (m : Memory w) (i : Nat) (v : BitVec w) :
    (m.write i v).read sp i = v := by simp [Memory.read]

theorem Memory.read_write_other {sp : Space} {m : Memory w} {i j : Nat} {v : BitVec w} (h : j ≠ i) :
    (m.write i v).read sp j = m.read sp j := by simp [Memory.read, Memory.known_write_other h]

@[simp] theorem Memory.known_scramble (m : Memory w) (i : Nat) : m.scramble.known i = none := rfl

@[simp] theorem Memory.known_unwritten (i : Nat) : (Memory.unwritten w).known i = none := rfl

@[simp] theorem Memory.epoch_writeList (m : Memory w) (i : Nat) (vs : List (BitVec w)) :
    (m.writeList i vs).epoch = m.epoch := by
  induction vs generalizing m i with
  | nil => rfl
  | cons v vs ih => simp [Memory.writeList, ih]

/-- A run of writes leaves the cells outside it alone. -/
theorem Memory.known_writeList_outside {m : Memory w} {i j : Nat} {vs : List (BitVec w)}
    (h : j < i ∨ i + vs.length ≤ j) : (m.writeList i vs).known j = m.known j := by
  induction vs generalizing m i with
  | nil => rfl
  | cons v vs ih =>
    simp only [List.length_cons] at h
    rw [Memory.writeList, ih (by omega), Memory.known_write_other (by omega)]

/-- The `k`-th value of a run of writes is known at the `k`-th cell of the run. -/
theorem Memory.known_writeList_inside {m : Memory w} {i k : Nat} {vs : List (BitVec w)} (h : k < vs.length) :
    (m.writeList i vs).known (i + k) = some vs[k] := by
  induction vs generalizing m i k with
  | nil => simp at h
  | cons v vs ih =>
    cases k with
    | zero => rw [Memory.writeList, Memory.known_writeList_outside (by omega)]; simp
    | succ k =>
      have := ih (m := m.write i v) (i := i + 1) (k := k) (by simpa using h)
      simpa [Memory.writeList, Nat.add_assoc, Nat.add_comm 1 k] using this

theorem Memory.read_writeList_outside {sp : Space} {m : Memory w} {i j : Nat} {vs : List (BitVec w)}
    (h : j < i ∨ i + vs.length ≤ j) : (m.writeList i vs).read sp j = m.read sp j := by
  simp [Memory.read, Memory.known_writeList_outside h]

theorem Memory.read_writeList_inside {sp : Space} {m : Memory w} {i k : Nat} {vs : List (BitVec w)}
    (h : k < vs.length) : (m.writeList i vs).read sp (i + k) = vs[k] := by
  simp [Memory.read, Memory.known_writeList_inside h]

/-- Reading back a run written from cell 0 gives the values written. -/
theorem Memory.map_read_writeList (sp : Space) (m : Memory w) (vs : List (BitVec w)) :
    (List.range vs.length).map (fun i => (m.writeList 0 vs).read sp i) = vs := by
  apply List.ext_getElem
  · simp
  · intro k h₁ h₂
    have := Memory.read_writeList_inside (sp := sp) (m := m) (i := 0) h₂
    simpa using this

theorem mem_insertCell {cs : List (Nat × BitVec w)} {i : Nat} {v : BitVec w} {x : Nat × BitVec w}
    (h : x ∈ insertCell cs i v) : x = (i, v) ∨ x ∈ cs := by
  induction cs with
  | nil => simpa [insertCell] using h
  | cons c cs ih =>
    obtain ⟨a, u⟩ := c
    simp only [insertCell] at h
    split at h
    · simpa using h
    · split at h
      · simp only [List.mem_cons] at h ⊢; tauto
      · simp only [List.mem_cons] at h ⊢; tauto

theorem rising_insertCell {cs : List (Nat × BitVec w)} {i : Nat} {v : BitVec w}
    (h : cs.Pairwise fun x y => x.1 < y.1) : (insertCell cs i v).Pairwise fun x y => x.1 < y.1 := by
  induction cs with
  | nil => simp [insertCell]
  | cons c cs ih =>
    obtain ⟨a, u⟩ := c
    have hc := List.pairwise_cons.mp h
    simp only [insertCell]
    split
    · refine List.pairwise_cons.mpr ⟨fun x hx => ?_, h⟩
      rcases List.mem_cons.mp hx with rfl | hx
      · assumption
      · have := hc.1 x hx; simp only at this ⊢; omega
    · split
      · subst_vars; exact List.pairwise_cons.mpr ⟨fun x hx => hc.1 x hx, hc.2⟩
      · refine List.pairwise_cons.mpr ⟨fun x hx => ?_, ih hc.2⟩
        rcases mem_insertCell hx with rfl | hx
        · simp only; omega
        · exact hc.1 x hx

theorem Memory.wf_write {m : Memory w} (h : m.wf) (i : Nat) (v : BitVec w) : (m.write i v).wf := rising_insertCell h

theorem Memory.wf_writeList {m : Memory w} (h : m.wf) (i : Nat) (vs : List (BitVec w)) : (m.writeList i vs).wf := by
  induction vs generalizing m i with
  | nil => exact h
  | cons v vs ih => exact ih (Memory.wf_write h i v) (i + 1)

theorem Memory.wf_scramble (m : Memory w) : m.scramble.wf := List.Pairwise.nil

theorem Memory.wf_unwritten : (Memory.unwritten w).wf := List.Pairwise.nil

theorem Memory.within_write {cap : Nat} {m : Memory w} (h : m.within cap) {i : Nat} (hi : i < cap) (v : BitVec w) :
    (m.write i v).within cap := by
  intro x hx
  rcases mem_insertCell hx with rfl | hx
  · exact hi
  · exact h x hx

theorem Memory.within_writeList {cap : Nat} {m : Memory w} (h : m.within cap) {i : Nat} {vs : List (BitVec w)}
    (hi : i + vs.length ≤ cap) : (m.writeList i vs).within cap := by
  induction vs generalizing m i with
  | nil => exact h
  | cons v vs ih =>
    simp only [List.length_cons] at hi
    exact ih (Memory.within_write h (by omega) v) (by omega)

theorem Memory.within_scramble (cap : Nat) (m : Memory w) : m.scramble.within cap := fun _ h => nomatch h

theorem Memory.within_unwritten (cap : Nat) : (Memory.unwritten w).within cap := fun _ h => nomatch h

/-- A cell whose index is not below the number of cells of a memory within its space is never known. -/
theorem Memory.known_beyond {cap : Nat} {m : Memory w} (h : m.within cap) {i : Nat} (hi : cap ≤ i) : m.known i = none :=
  lookupCell_none_of_ne fun x hx => by have := h x hx; omega

end Sys2Proof.Machine
end

