-- ==== Sys2Proof/Laws/State.lean ====
section
/-! SUPPORT. The fields of the state after each of the operations the commands are made of, and the operands read back. -/

namespace Sys2Proof.Machine

section Succeed
variable (s : State)
@[simp] theorem succeed_err : (succeed s).err = 0 := rfl
@[simp] theorem succeed_errpos : (succeed s).errpos = 0 := rfl
@[simp] theorem succeed_running : (succeed s).running = none := rfl
@[simp] theorem succeed_symLen : (succeed s).symLen = s.symLen := rfl
@[simp] theorem succeed_bitLen : (succeed s).bitLen = s.bitLen := rfl
@[simp] theorem succeed_tblLen : (succeed s).tblLen = s.tblLen := rfl
@[simp] theorem succeed_nleaf : (succeed s).nleaf = s.nleaf := rfl
@[simp] theorem succeed_freq : (succeed s).freq = s.freq := rfl
@[simp] theorem succeed_sym : (succeed s).sym = s.sym := rfl
@[simp] theorem succeed_bit : (succeed s).bit = s.bit := rfl
@[simp] theorem succeed_tbl : (succeed s).tbl = s.tbl := rfl
@[simp] theorem succeed_tree : (succeed s).tree = s.tree := rfl
@[simp] theorem succeed_pending : (succeed s).pending = s.pending := rfl
@[simp] theorem succeed_rdata : (succeed s).rdata = s.rdata := rfl
@[simp] theorem succeed_polls : (succeed s).polls = s.polls := rfl
end Succeed

section Fail
variable (i : Instr) (r : Raise) (s : State)
@[simp] theorem fail_err : (fail i r s).err = errWord r.failure := rfl
@[simp] theorem fail_errpos : (fail i r s).errpos = BitVec.ofNat 32 r.pos := rfl
@[simp] theorem fail_running : (fail i r s).running = none := rfl
@[simp] theorem fail_symLen : (fail i r s).symLen = if i = .decode then 0 else s.symLen := by cases i <;> rfl
@[simp] theorem fail_bitLen : (fail i r s).bitLen = if i = .encode then 0 else s.bitLen := by cases i <;> rfl
@[simp] theorem fail_tblLen : (fail i r s).tblLen = if i = .save then 0 else s.tblLen := by cases i <;> rfl
@[simp] theorem fail_nleaf : (fail i r s).nleaf = if writesTree i then 0 else s.nleaf := by cases i <;> rfl
@[simp] theorem fail_freq : (fail i r s).freq = s.freq := by cases i <;> rfl
@[simp] theorem fail_sym : (fail i r s).sym = if i = .decode then s.sym.scramble else s.sym := by cases i <;> rfl
@[simp] theorem fail_bit : (fail i r s).bit = if i = .encode then s.bit.scramble else s.bit := by cases i <;> rfl
@[simp] theorem fail_tbl : (fail i r s).tbl = if i = .save then s.tbl.scramble else s.tbl := by cases i <;> rfl
@[simp] theorem fail_tree : (fail i r s).tree = if writesTree i then .absent else s.tree := by cases i <;> rfl
@[simp] theorem fail_pending : (fail i r s).pending = s.pending := by cases i <;> rfl
@[simp] theorem fail_rdata : (fail i r s).rdata = s.rdata := by cases i <;> rfl
@[simp] theorem fail_polls : (fail i r s).polls = s.polls := by cases i <;> rfl
end Fail

section Outputs
variable (s : State)

@[simp] theorem putTree_tree (t : OptTree) (n : Nat) : (putTree s t n).tree = t := rfl
@[simp] theorem putTree_nleaf (t : OptTree) (n : Nat) : (putTree s t n).nleaf = BitVec.ofNat 32 n := rfl
@[simp] theorem putTree_freq (t : OptTree) (n : Nat) : (putTree s t n).freq = s.freq := rfl
@[simp] theorem putTree_sym (t : OptTree) (n : Nat) : (putTree s t n).sym = s.sym := rfl
@[simp] theorem putTree_bit (t : OptTree) (n : Nat) : (putTree s t n).bit = s.bit := rfl
@[simp] theorem putTree_tbl (t : OptTree) (n : Nat) : (putTree s t n).tbl = s.tbl := rfl
@[simp] theorem putTree_symLen (t : OptTree) (n : Nat) : (putTree s t n).symLen = s.symLen := rfl
@[simp] theorem putTree_bitLen (t : OptTree) (n : Nat) : (putTree s t n).bitLen = s.bitLen := rfl
@[simp] theorem putTree_tblLen (t : OptTree) (n : Nat) : (putTree s t n).tblLen = s.tblLen := rfl

@[simp] theorem putText_tbl (x : List Byte) : (putText s x).tbl = s.tbl.writeList 0 x := rfl
@[simp] theorem putText_tblLen (x : List Byte) : (putText s x).tblLen = BitVec.ofNat 32 x.length := rfl
@[simp] theorem putText_tree (x : List Byte) : (putText s x).tree = s.tree := rfl
@[simp] theorem putText_nleaf (x : List Byte) : (putText s x).nleaf = s.nleaf := rfl
@[simp] theorem putText_freq (x : List Byte) : (putText s x).freq = s.freq := rfl
@[simp] theorem putText_sym (x : List Byte) : (putText s x).sym = s.sym := rfl
@[simp] theorem putText_bit (x : List Byte) : (putText s x).bit = s.bit := rfl
@[simp] theorem putText_symLen (x : List Byte) : (putText s x).symLen = s.symLen := rfl
@[simp] theorem putText_bitLen (x : List Byte) : (putText s x).bitLen = s.bitLen := rfl

@[simp] theorem putBits_bit (x : List Bool) : (putBits s x).bit = s.bit.writeList 0 (x.map BitVec.ofBool) := rfl
@[simp] theorem putBits_bitLen (x : List Bool) : (putBits s x).bitLen = BitVec.ofNat 32 x.length := rfl
@[simp] theorem putBits_tree (x : List Bool) : (putBits s x).tree = s.tree := rfl
@[simp] theorem putBits_nleaf (x : List Bool) : (putBits s x).nleaf = s.nleaf := rfl
@[simp] theorem putBits_freq (x : List Bool) : (putBits s x).freq = s.freq := rfl
@[simp] theorem putBits_sym (x : List Bool) : (putBits s x).sym = s.sym := rfl
@[simp] theorem putBits_tbl (x : List Bool) : (putBits s x).tbl = s.tbl := rfl
@[simp] theorem putBits_symLen (x : List Bool) : (putBits s x).symLen = s.symLen := rfl
@[simp] theorem putBits_tblLen (x : List Bool) : (putBits s x).tblLen = s.tblLen := rfl

@[simp] theorem putSyms_sym (x : List Nat) : (putSyms s x).sym = s.sym.writeList 0 (x.map (BitVec.ofNat 8)) := rfl
@[simp] theorem putSyms_symLen (x : List Nat) : (putSyms s x).symLen = BitVec.ofNat 32 x.length := rfl
@[simp] theorem putSyms_tree (x : List Nat) : (putSyms s x).tree = s.tree := rfl
@[simp] theorem putSyms_nleaf (x : List Nat) : (putSyms s x).nleaf = s.nleaf := rfl
@[simp] theorem putSyms_freq (x : List Nat) : (putSyms s x).freq = s.freq := rfl
@[simp] theorem putSyms_bit (x : List Nat) : (putSyms s x).bit = s.bit := rfl
@[simp] theorem putSyms_tbl (x : List Nat) : (putSyms s x).tbl = s.tbl := rfl
@[simp] theorem putSyms_bitLen (x : List Nat) : (putSyms s x).bitLen = s.bitLen := rfl
@[simp] theorem putSyms_tblLen (x : List Nat) : (putSyms s x).tblLen = s.tblLen := rfl

end Outputs

/-- The parameters of the reference configuration, as numbers (R6). -/
@[simp] theorem params_alphabet : Config.params.alphabet = 256 := rfl
@[simp] theorem params_codeLenMax : Config.params.codeLenMax = 255 := rfl
@[simp] theorem params_symCap : Config.params.symCap = 65536 := rfl
@[simp] theorem params_bitCap : Config.params.bitCap = 1048576 := rfl
@[simp] theorem params_tblCap : Config.params.tblCap = 131072 := rfl

@[simp] theorem length_freqInput (s : State) : (freqInput s).length = 256 := by simp [freqInput]

@[simp] theorem length_symInput (s : State) : (symInput s).length = s.symLen.toNat := by simp [symInput]

@[simp] theorem length_bitInput (s : State) : (bitInput s).length = s.bitLen.toNat := by simp [bitInput]

@[simp] theorem length_tblInput (s : State) : (tblInput s).length = s.tblLen.toNat := by simp [tblInput]

theorem getD_freqInput (s : State) (i : Nat) :
    (freqInput s).getD i 0 = if i < 256 then (s.freq.read .freq i).toNat else 0 := by
  rw [freqInput, List.getD_eq_getElem?_getD, List.getElem?_map]
  by_cases h : i < 256 <;> simp [h]

/-- The symbols of the input of ENCODE fit a SYM cell. -/
theorem lt_of_mem_symInput {s : State} {x : Nat} (h : x ∈ symInput s) : x < 256 := by
  simp only [symInput, List.mem_map] at h
  obtain ⟨i, -, rfl⟩ := h
  exact (s.sym.read .sym i).isLt

/-- The operands depend only on the memories and the length registers they are read from. -/
theorem freqInput_congr {s t : State} (h : t.freq = s.freq) : freqInput t = freqInput s := by simp [freqInput, h]

theorem symInput_congr {s t : State} (h : t.sym = s.sym) (hl : t.symLen = s.symLen) : symInput t = symInput s := by
  simp [symInput, h, hl]

theorem bitInput_congr {s t : State} (h : t.bit = s.bit) (hl : t.bitLen = s.bitLen) : bitInput t = bitInput s := by
  simp [bitInput, h, hl]

theorem tblInput_congr {s t : State} (h : t.tbl = s.tbl) (hl : t.tblLen = s.tblLen) : tblInput t = tblInput s := by
  simp [tblInput, h, hl]

/-- The text SAVE has written is the text LOAD reads (R65). -/
theorem tblInput_putText {s : State} {x : List Byte} (h : x.length < 2 ^ 32) : tblInput (putText s x) = x := by
  have hl : (BitVec.ofNat 32 x.length).toNat = x.length := by rw [BitVec.toNat_ofNat, Nat.mod_eq_of_lt h]
  rw [tblInput, putText_tblLen, putText_tbl, hl]
  exact Memory.map_read_writeList _ _ _

theorem ofBool_eq_one (b : Bool) : (BitVec.ofBool b == 1#1) = b := by cases b <;> rfl

/-- The bits ENCODE has written are the bits DECODE reads (R65). -/
theorem bitInput_putBits {s : State} {x : List Bool} (h : x.length < 2 ^ 32) : bitInput (putBits s x) = x := by
  have hl : (BitVec.ofNat 32 x.length).toNat = x.length := by rw [BitVec.toNat_ofNat, Nat.mod_eq_of_lt h]
  have hr := Memory.map_read_writeList .bit s.bit (x.map BitVec.ofBool)
  rw [List.length_map] at hr
  have : bitInput (putBits s x) =
      ((List.range x.length).map fun i => (s.bit.writeList 0 (x.map BitVec.ofBool)).read .bit i).map (· == 1#1) := by
    rw [bitInput, putBits_bitLen, putBits_bit, hl, List.map_map]; rfl
  rw [this, hr, List.map_map]
  simp [Function.comp_def, ofBool_eq_one]

/-- What ENCODE reads after DECODE has written: the low 8 bits of each symbol (log 10). -/
theorem symInput_putSyms_mod {s : State} {x : List Nat} (h : x.length < 2 ^ 32) :
    symInput (putSyms s x) = x.map (· % 256) := by
  have hl : (BitVec.ofNat 32 x.length).toNat = x.length := by rw [BitVec.toNat_ofNat, Nat.mod_eq_of_lt h]
  have hr := Memory.map_read_writeList .sym s.sym (x.map (BitVec.ofNat 8))
  rw [List.length_map] at hr
  have : symInput (putSyms s x) =
      ((List.range x.length).map fun i => (s.sym.writeList 0 (x.map (BitVec.ofNat 8))).read .sym i).map BitVec.toNat := by
    rw [symInput, putSyms_symLen, putSyms_sym, hl, List.map_map]; rfl
  rw [this, hr, List.map_map]
  exact List.map_congr_left fun a _ => by simp

/-- The symbols DECODE has written are the symbols ENCODE reads (R65). -/
theorem symInput_putSyms {s : State} {x : List Nat} (h : x.length < 2 ^ 32) (hx : ∀ a ∈ x, a < 256) :
    symInput (putSyms s x) = x := by
  rw [symInput_putSyms_mod h]
  conv_rhs => rw [← List.map_id x]
  exact List.map_congr_left fun a ha => Nat.mod_eq_of_lt (hx a ha)

/-! ## STATUS -/

/-- The bits of a STATUS word (R23). -/
theorem mkStatus_bits (b t : Bool) : (mkStatus b t).getLsbD 0 = b ∧ (mkStatus b t).getLsbD 1 = t ∧
    ∀ k, 2 ≤ k → (mkStatus b t).getLsbD k = false := by
  refine ⟨by cases b <;> cases t <;> rfl, by cases b <;> cases t <;> rfl, ?_⟩
  intro k hk
  by_cases h : k < 32
  · interval_cases k <;> cases b <;> cases t <;> rfl
  · exact BitVec.getLsbD_of_ge _ _ (by omega)

theorem status_idle {t : State} (h : t.running = none) : t.status = mkStatus false t.treeValid := by
  simp [State.status, h]

theorem treeValid_iff {t : State} : t.treeValid = true ↔ t.tree ≠ .absent := by simp [State.treeValid]

end Sys2Proof.Machine
end

