-- ==== Sys2Proof/Laws/Transcoder.lean ====
section
/-! SUPPORT. The laws of ENCODE and DECODE: the bits of a sequence of symbols and the first failure (42_transcoder.md R172 to R175), and
how a walk of the decoder goes (R181 to R184, R190). -/

namespace Sys2Proof.Machine

open OptTree

theorem OptTree.codes_cons (t : OptTree) (s : Nat) (syms : List Nat) :
    t.codes (s :: syms) = (t.codeOf s).getD [] ++ t.codes syms := rfl

@[simp] theorem OptTree.codes_nil (t : OptTree) : t.codes [] = [] := rfl

theorem OptTree.codes_append (t : OptTree) (a b : List Nat) : t.codes (a ++ b) = t.codes a ++ t.codes b := by
  simp [OptTree.codes]

theorem OptTree.length_codes (t : OptTree) (syms : List Nat) :
    (t.codes syms).length = (syms.map fun s => ((t.codeOf s).getD []).length).sum := by
  induction syms with
  | nil => rfl
  | cons s syms ih => simp [OptTree.codes_cons, ih]

/-- ENCODE's loop succeeds when every symbol has a leaf and the bits fit (R172, R175). -/
theorem encodeLoop_ok {cap : Nat} {t : OptTree} {syms : List Nat} {i n : Nat} (hs : ∀ s ∈ syms, s ∈ t.symbols)
    (hn : n + (t.codes syms).length ≤ cap) : encodeLoop cap t syms i n = .ok (t.codes syms) := by
  induction syms generalizing i n with
  | nil => rfl
  | cons s syms ih =>
    simp only [List.forall_mem_cons] at hs
    cases hc : t.codeOf s with
    | none => exact absurd hs.1 (codeOf_none.mp hc)
    | some p =>
      rw [codes_cons, hc, Option.getD_some, List.length_append] at hn
      simp only [encodeLoop, hc]
      rw [if_neg (by omega), ih hs.2 (by omega), codes_cons, hc]
      rfl

/-- What a completed run of ENCODE's loop has done (R172, R175). -/
theorem encodeLoop_inv {cap : Nat} {t : OptTree} {syms : List Nat} {i n : Nat} {bits : List Bool} (h0 : n ≤ cap)
    (h : encodeLoop cap t syms i n = .ok bits) :
    bits = t.codes syms ∧ (∀ s ∈ syms, s ∈ t.symbols) ∧ n + (t.codes syms).length ≤ cap := by
  induction syms generalizing i n bits with
  | nil => simp only [encodeLoop, Except.ok.injEq] at h; subst h; simpa using h0
  | cons s syms ih =>
    cases hc : t.codeOf s with
    | none => simp [encodeLoop, hc] at h
    | some p =>
      simp only [encodeLoop, hc] at h
      split at h
      · simp at h
      · next hfit =>
        cases hl : encodeLoop cap t syms (i + 1) (n + p.length) with
        | error r => simp [hl] at h
        | ok rest =>
          simp only [hl, Except.ok.injEq] at h
          obtain ⟨rfl, h2, h3⟩ := ih (by omega) hl
          refine ⟨by rw [codes_cons, hc]; exact h.symm, ?_, ?_⟩
          · simp only [List.forall_mem_cons]
            exact ⟨mem_symbols_iff.mpr ⟨p, codeOf_mem hc⟩, h2⟩
          · rw [codes_cons, hc, Option.getD_some, List.length_append]; omega

/-- ENCODE's loop up to the first item that fails (R173, R174): everything before it is encoded. -/
theorem encodeLoop_append {cap : Nat} {t : OptTree} {pre rest : List Nat} {i n : Nat} (hs : ∀ s ∈ pre, s ∈ t.symbols)
    (hn : n + (t.codes pre).length ≤ cap) :
    encodeLoop cap t (pre ++ rest) i n =
      match encodeLoop cap t rest (i + pre.length) (n + (t.codes pre).length) with
      | .ok bits => .ok (t.codes pre ++ bits)
      | .error r => .error r := by
  induction pre generalizing i n with
  | nil => simp only [List.nil_append, List.length_nil, codes_nil, Nat.add_zero]; split <;> simp_all
  | cons s pre ih =>
    simp only [List.forall_mem_cons] at hs
    cases hc : t.codeOf s with
    | none => exact absurd hs.1 (codeOf_none.mp hc)
    | some p =>
      rw [codes_cons, hc, Option.getD_some, List.length_append] at hn
      simp only [List.cons_append, encodeLoop, hc]
      rw [if_neg (by omega), ih hs.2 (by omega), codes_cons, hc, Option.getD_some, List.length_append, List.length_cons,
        show i + 1 + pre.length = i + (pre.length + 1) by omega,
        show n + p.length + (t.codes pre).length = n + (p.length + (t.codes pre).length) by omega]
      cases encodeLoop cap t rest (i + (pre.length + 1)) (n + (p.length + (t.codes pre).length)) <;> simp

/-- The decoder follows a path that ends at an Internal node without emitting anything (R181). -/
theorem decodeLoop_descend {cap : Nat} {root cur : OptTree} {p rest : List Bool} {i depth m : Nat}
    (h : (cur.descend p).isNode = true) :
    decodeLoop cap root (p ++ rest) i cur depth m
      = decodeLoop cap root rest (i + p.length) (cur.descend p) (depth + p.length) m := by
  induction p generalizing cur i depth with
  | nil => rfl
  | cons b p ih =>
    rw [descend] at h
    cases hc : cur.child b with
    | absent => simp [hc, isNode] at h
    | leaf s => rw [hc] at h; cases p <;> simp [isNode, descend] at h
    | node l r =>
      rw [hc] at h
      simp only [List.cons_append, decodeLoop, hc]
      rw [ih h, descend, hc, List.length_cons, show i + 1 + p.length = i + (p.length + 1) by omega,
        show depth + 1 + p.length = depth + (p.length + 1) by omega]

/-- The path of a leaf without its last bit leads to the Internal node above it. -/
theorem descend_dropLast {t : OptTree} {s : Nat} {p : List Bool} (h : t.descend p = .leaf s) (hp : p ≠ []) :
    ∃ q b, p = q ++ [b] ∧ (t.descend q).isNode = true ∧ (t.descend q).child b = .leaf s := by
  obtain ⟨q, b, rfl⟩ : ∃ q b, p = q ++ [b] := ⟨p.dropLast, p.getLast hp, (List.dropLast_append_getLast hp).symm⟩
  rw [descend_append] at h
  refine ⟨q, b, rfl, ?_, h⟩
  cases hq : t.descend q with
  | absent => rw [hq] at h; simp at h
  | leaf a => rw [hq] at h; simp [descend, child] at h
  | node l r => rfl

/-- The decoder reads one whole code and emits its symbol (R182). -/
theorem decodeLoop_code {cap : Nat} {root : OptTree} (hr : root.isNode = true) {s : Nat} {p rest : List Bool} {i m : Nat}
    (h : (s, p) ∈ root.pairs) (hm : m ≠ cap) :
    decodeLoop cap root (p ++ rest) i root 0 m =
      match decodeLoop cap root rest (i + p.length) root 0 (m + 1) with
      | .ok syms => .ok (s :: syms)
      | .error r => .error r := by
  obtain ⟨q, b, rfl, h1, h2⟩ := descend_dropLast (mem_pairs_iff_descend.mp h) (path_ne_nil hr h)
  rw [List.append_assoc, decodeLoop_descend h1, List.singleton_append]
  simp only [decodeLoop, h2, if_neg hm]
  rw [List.length_append, List.length_singleton, show i + q.length + 1 = i + (q.length + 1) by omega]
  all_goals rfl

/-- The decoder reads the codes of a sequence of symbols and emits the symbols (R182, R190). -/
theorem decodeLoop_codes {cap : Nat} {root : OptTree} (hr : root.isNode = true) {syms : List Nat} {rest : List Bool}
    {i m : Nat} (hs : ∀ s ∈ syms, s ∈ root.symbols) (hm : m + syms.length ≤ cap) :
    decodeLoop cap root (root.codes syms ++ rest) i root 0 m =
      match decodeLoop cap root rest (i + (root.codes syms).length) root 0 (m + syms.length) with
      | .ok out => .ok (syms ++ out)
      | .error r => .error r := by
  induction syms generalizing i m with
  | nil => simp only [codes_nil, List.nil_append, List.length_nil, Nat.add_zero]; split <;> simp_all
  | cons s syms ih =>
    simp only [List.forall_mem_cons] at hs
    simp only [List.length_cons] at hm
    cases hc : root.codeOf s with
    | none => exact absurd hs.1 (codeOf_none.mp hc)
    | some p =>
      rw [codes_cons, hc, Option.getD_some, List.append_assoc, decodeLoop_code hr (codeOf_mem hc) (by omega),
        ih hs.2 (by omega), List.length_append, List.length_cons,
        show i + p.length + (root.codes syms).length = i + (p.length + (root.codes syms).length) by omega,
        show m + 1 + syms.length = m + (syms.length + 1) by omega]
      cases decodeLoop cap root rest (i + (p.length + (root.codes syms).length)) root 0 (m + (syms.length + 1)) <;> rfl

/-- What a completed run of DECODE's loop has done (R182, R184): the bits since the last emission and the bits still to
come are the codes of the symbols still to emit. -/
theorem decodeLoop_inv {cap : Nat} {root : OptTree} (hr : root.isNode = true) (hnd : root.symbols.Nodup)
    {bits path : List Bool} {i m : Nat} {syms : List Nat} (hcur : (root.descend path).isNode = true) (hm : m ≤ cap)
    (h : decodeLoop cap root bits i (root.descend path) path.length m = .ok syms) :
    root.codes syms = path ++ bits ∧ (∀ s ∈ syms, s ∈ root.symbols) ∧ m + syms.length ≤ cap := by
  induction bits generalizing path i m syms with
  | nil =>
    simp only [decodeLoop] at h
    split at h
    · simp at h
    · next hd =>
      simp only [Except.ok.injEq] at h
      subst h
      have : path = [] := List.eq_nil_of_length_eq_zero (by omega)
      simpa [this] using hm
  | cons b bits ih =>
    simp only [decodeLoop] at h
    cases hc : (root.descend path).child b with
    | absent => simp [hc] at h
    | leaf s =>
      simp only [hc] at h
      split at h
      · simp at h
      · next hne =>
        cases hl : decodeLoop cap root bits (i + 1) root 0 (m + 1) with
        | error r => simp [hl] at h
        | ok rest =>
          simp only [hl, Except.ok.injEq] at h
          subst h
          have hpair : (s, path ++ [b]) ∈ root.pairs := by
            rw [mem_pairs_iff_descend, descend_append]; exact hc
          obtain ⟨h1, h2, h3⟩ := ih (path := []) (i := i + 1) (m := m + 1) (syms := rest) hr (by omega) hl
          rw [codes_cons, (codeOf_eq_some_iff hnd).mpr hpair, h1]
          refine ⟨by simp, ?_, ?_⟩
          · simp only [List.forall_mem_cons]; exact ⟨mem_symbols_iff.mpr ⟨_, hpair⟩, h2⟩
          · simp only [List.length_cons]; omega
    | node l r =>
      have hd : root.descend (path ++ [b]) = .node l r := by rw [descend_append]; exact hc
      simp only [hc] at h
      have hlen : path.length + 1 = (path ++ [b]).length := by simp
      rw [hlen, ← hd] at h
      have := ih (by rw [hd]; rfl) hm h
      simpa using this

/-- Under a full tree no bit leads to a missing child (R92). -/
theorem decodeLoop_full {cap : Nat} {root cur : OptTree} (hr : root.full = true) (hrn : root.isNode = true)
    (hc : cur.full = true) (hn : cur.isNode = true) {bits : List Bool} {i depth m : Nat} {r : Raise}
    (h : decodeLoop cap root bits i cur depth m = .error r) : r.failure ≠ .malformedStream := by
  induction bits generalizing cur i depth m r with
  | nil =>
    simp only [decodeLoop] at h
    split at h <;> simp at h
    simp [← h]
  | cons b bits ih =>
    have hfull : (cur.child b).full = true := by
      cases cur with
      | absent => simp [isNode] at hn
      | leaf s => simp [isNode] at hn
      | node l r => cases b <;> simp_all [child, full]
    simp only [decodeLoop] at h
    cases hch : cur.child b with
    | absent => simp [hch, full] at hfull
    | leaf s =>
      simp only [hch] at h
      split at h
      · simp only [Except.error.injEq] at h; simp [← h]
      · cases hl : decodeLoop cap root bits (i + 1) root 0 (m + 1) with
        | ok syms => simp [hl] at h
        | error r' =>
          simp only [hl, Except.error.injEq] at h
          exact h ▸ ih hr hrn hl
    | node l r' =>
      simp only [hch] at h
      exact ih (hch ▸ hfull) rfl h

end Sys2Proof.Machine
end

