-- ==== Sys2Proof/Laws/Exec.lean ====
section
/-! SUPPORT. Everything a command can do, said once per command: it succeeds with its output, or it fails (00_scope.md R12). -/

namespace Sys2Proof.Machine

theorem exec_build_ok {s : State} {t : OptTree} {n : Nat} (h : buildTree 256 (freqInput s) = .ok (t, n)) :
    exec .build s = .next (succeed (putTree s t n)) := by
  simp [exec, execBuild, h]

theorem exec_build_error {s : State} {r : Raise} (h : buildTree 256 (freqInput s) = .error r) :
    exec .build s = .next (fail .build r s) := by
  simp [exec, execBuild, h]

theorem exec_save_ok {s : State} {x : List Byte} (h : saveTree 131072 s.tree = .ok x) :
    exec .save s = .next (succeed (putText s x)) := by
  simp [exec, execSave, h]

theorem exec_save_error {s : State} {r : Raise} (h : saveTree 131072 s.tree = .error r) :
    exec .save s = .next (fail .save r s) := by
  simp [exec, execSave, h]

theorem exec_load_ok {s : State} {t : OptTree} {n : Nat} (h : loadInput s = .ok (t, n)) :
    exec .load s = .next (succeed (putTree s t n)) := by
  simp [exec, execLoad, h]

theorem exec_load_error {s : State} {r : Raise} (h : loadInput s = .error r) :
    exec .load s = .next (fail .load r s) := by
  simp [exec, execLoad, h]

theorem exec_encode_ok {s : State} {x : List Bool} (h : encodeInput s = .ok x) :
    exec .encode s = .next (succeed (putBits s x)) := by
  simp [exec, execEncode, h]

theorem exec_encode_error {s : State} {r : Raise} (h : encodeInput s = .error r) :
    exec .encode s = .next (fail .encode r s) := by
  simp [exec, execEncode, h]

theorem exec_decode_ok {s : State} {x : List Nat} (h : decodeInput s = .ok x) :
    exec .decode s = .next (succeed (putSyms s x)) := by
  simp [exec, execDecode, h]

theorem exec_decode_error {s : State} {r : Raise} (h : decodeInput s = .error r) :
    exec .decode s = .next (fail .decode r s) := by
  simp [exec, execDecode, h]

/-- BUILD: its two outcomes. -/
theorem exec_build_cases (s : State) :
    (∃ t n, buildTree 256 (freqInput s) = .ok (t, n) ∧ exec .build s = .next (succeed (putTree s t n))) ∨
    ∃ r, buildTree 256 (freqInput s) = .error r ∧ exec .build s = .next (fail .build r s) := by
  cases h : buildTree 256 (freqInput s) with
  | ok x => exact .inl ⟨x.1, x.2, rfl, exec_build_ok h⟩
  | error r => exact .inr ⟨r, rfl, exec_build_error h⟩

/-- SAVE: its two outcomes. -/
theorem exec_save_cases (s : State) :
    (∃ x, saveTree 131072 s.tree = .ok x ∧ exec .save s = .next (succeed (putText s x))) ∨
    ∃ r, saveTree 131072 s.tree = .error r ∧ exec .save s = .next (fail .save r s) := by
  cases h : saveTree 131072 s.tree with
  | ok x => exact .inl ⟨x, rfl, exec_save_ok h⟩
  | error r => exact .inr ⟨r, rfl, exec_save_error h⟩

/-- LOAD: its two outcomes. -/
theorem exec_load_cases (s : State) :
    (∃ t n, loadInput s = .ok (t, n) ∧ exec .load s = .next (succeed (putTree s t n))) ∨
    ∃ r, loadInput s = .error r ∧ exec .load s = .next (fail .load r s) := by
  cases h : loadInput s with
  | ok x => exact .inl ⟨x.1, x.2, rfl, exec_load_ok h⟩
  | error r => exact .inr ⟨r, rfl, exec_load_error h⟩

/-- ENCODE: its two outcomes. -/
theorem exec_encode_cases (s : State) :
    (∃ x, encodeInput s = .ok x ∧ exec .encode s = .next (succeed (putBits s x))) ∨
    ∃ r, encodeInput s = .error r ∧ exec .encode s = .next (fail .encode r s) := by
  cases h : encodeInput s with
  | ok x => exact .inl ⟨x, rfl, exec_encode_ok h⟩
  | error r => exact .inr ⟨r, rfl, exec_encode_error h⟩

/-- DECODE: its two outcomes. -/
theorem exec_decode_cases (s : State) :
    (∃ x, decodeInput s = .ok x ∧ exec .decode s = .next (succeed (putSyms s x))) ∨
    ∃ r, decodeInput s = .error r ∧ exec .decode s = .next (fail .decode r s) := by
  cases h : decodeInput s with
  | ok x => exact .inl ⟨x, rfl, exec_decode_ok h⟩
  | error r => exact .inr ⟨r, rfl, exec_decode_error h⟩

/-- The result of a command, as the success with its output or the failure (R12). -/
inductive Done (i : Instr) (s t : State) : Prop where
  | tree (u : OptTree) (n : Nat) (hi : writesTree i = true) (ht : t = succeed (putTree s u n))
  | text (x : List Byte) (hi : i = .save) (ht : t = succeed (putText s x))
  | bits (x : List Bool) (hi : i = .encode) (ht : t = succeed (putBits s x))
  | syms (x : List Nat) (hi : i = .decode) (ht : t = succeed (putSyms s x))
  | failed (r : Raise) (ht : t = fail i r s)

/-- Every command completes in one of these ways (R12, 60_exceptions.md R200, 70_reset_and_hazards.md R245). -/
theorem exec_done (i : Instr) (s : State) : ∃ t, exec i s = .next t ∧ Done i s t := by
  cases i with
  | build =>
    rcases exec_build_cases s with ⟨t, n, -, h⟩ | ⟨r, -, h⟩
    · exact ⟨_, h, .tree t n rfl rfl⟩
    · exact ⟨_, h, .failed r rfl⟩
  | save =>
    rcases exec_save_cases s with ⟨x, -, h⟩ | ⟨r, -, h⟩
    · exact ⟨_, h, .text x rfl rfl⟩
    · exact ⟨_, h, .failed r rfl⟩
  | load =>
    rcases exec_load_cases s with ⟨t, n, -, h⟩ | ⟨r, -, h⟩
    · exact ⟨_, h, .tree t n rfl rfl⟩
    · exact ⟨_, h, .failed r rfl⟩
  | encode =>
    rcases exec_encode_cases s with ⟨x, -, h⟩ | ⟨r, -, h⟩
    · exact ⟨_, h, .bits x rfl rfl⟩
    · exact ⟨_, h, .failed r rfl⟩
  | decode =>
    rcases exec_decode_cases s with ⟨x, -, h⟩ | ⟨r, -, h⟩
    · exact ⟨_, h, .syms x rfl rfl⟩
    · exact ⟨_, h, .failed r rfl⟩

theorem done_of_exec {i : Instr} {s t : State} (h : exec i s = .next t) : Done i s t := by
  obtain ⟨u, hu, hd⟩ := exec_done i s
  rw [h] at hu
  cases hu
  exact hd

/-- ERR tells a failure from a success (R24, 60_exceptions.md R207). -/
theorem errWord_ne_zero (f : Failure) : errWord f ≠ 0 := by cases f <;> decide

/-- SAVE of a valid tree of the reference configuration succeeds (00_scope.md R7 (b), 41_codec.md R143). -/
theorem saveTree_of_valid {t : OptTree} (h : t.Valid 256 255) : saveTree 131072 t = .ok (fmt t.pairs) := by
  rw [saveTree, if_neg (OptTree.ne_absent_of_isNode h.1)]
  exact saveLoop_ok (by have := length_fmt_pairs_le h; rw [tableBytesMax_eq] at this; omega)

/-- R7 (a): a code under a built tree has at most `A - 1` bits. -/
theorem length_path_of_built {A : Nat} {freqs : List Nat} {t : OptTree} {n : Nat} (h : buildTree A freqs = .ok (t, n))
    (hA : freqs.length ≤ A) (hA2 : 2 ≤ A) {e : Nat × List Bool} (he : e ∈ t.pairs) : e.2.length ≤ A - 1 :=
  (OptTree.length_le_depth (s := e.1) he).trans (buildTree_ok h hA hA2 (le_refl _)).1.2.2.2.2

/-- R7 (a): LOAD accepts the table SAVE writes from a built tree, for every code length limit R6 allows, and gives the tree
back. -/
theorem loadTable_of_built {A lenMax : Nat} {freqs : List Nat} {t : OptTree} {n : Nat} (h : buildTree A freqs = .ok (t, n))
    (hA : freqs.length ≤ A) (hA2 : 2 ≤ A) (hl : A - 1 ≤ lenMax) : loadTable A lenMax (fmt t.pairs) = .ok (t, n) := by
  obtain ⟨hv, -, rfl, -⟩ := buildTree_ok h hA hA2 hl
  exact loadTable_fmt_pairs hv

/-- What DECODE gives from a valid tree: symbols of the tree, no more than SYM holds. -/
theorem decodeInput_ok {s : State} (hv : s.tree.Valid 256 255) {x : List Nat} (h : decodeInput s = .ok x) :
    s.tree.codes x = bitInput s ∧ (∀ a ∈ x, a ∈ s.tree.symbols) ∧ x.length ≤ 65536 := by
  unfold decodeInput at h
  rw [if_neg (OptTree.ne_absent_of_isNode hv.1)] at h
  split at h
  · simp at h
  · have := decodeLoop_inv hv.1 hv.2.2.2.1 (path := []) (i := 0) (m := 0) (bits := bitInput s) (syms := x)
      (cap := 65536) hv.1 (by omega) h
    simpa using this

theorem encodeInput_ok {s : State} {x : List Bool} (h : encodeInput s = .ok x) :
    s.tree ≠ .absent ∧ x = s.tree.codes (symInput s) ∧ (∀ a ∈ symInput s, a ∈ s.tree.symbols) ∧ x.length ≤ 1048576 := by
  unfold encodeInput at h
  split at h
  · simp at h
  · next hne =>
    split at h
    · simp at h
    · obtain ⟨rfl, h2, h3⟩ := encodeLoop_inv (Nat.zero_le _) h
      exact ⟨hne, rfl, h2, by simpa using h3⟩

theorem saveTree_ok {cap : Nat} {t : OptTree} {x : List Byte} (h : saveTree cap t = .ok x) :
    t ≠ .absent ∧ x = fmt t.pairs ∧ x.length ≤ cap := by
  unfold saveTree at h
  split at h
  · simp at h
  · next hne =>
    by_cases hl : 0 + (fmt t.pairs).length ≤ cap
    · rw [saveLoop_ok hl] at h
      simp only [Except.ok.injEq] at h
      subst h
      exact ⟨hne, rfl, by simpa using hl⟩
    · obtain ⟨j, -, -, -, he⟩ := saveLoop_error (k := 0) (Nat.zero_le cap) (Nat.lt_of_not_le hl)
      rw [he] at h; simp at h

theorem loadInput_ok {s : State} {t : OptTree} {n : Nat} (h : loadInput s = .ok (t, n)) :
    t.Valid 256 255 ∧ n = t.leafCount ∧ loadTable 256 255 (tblInput s) = .ok (t, n) := by
  unfold loadInput at h
  split at h
  · simp at h
  · have := loadTable_ok h
    exact ⟨this.1, this.2.1, h⟩

end Sys2Proof.Machine
end

