-- ==== Sys2Proof/Laws/Invariant.lean ====
section
/-! SUPPORT. What a command and a host access do to the invariant of Safety.lean. -/

namespace Sys2Proof.Machine

theorem ofNat_leafCount {t : OptTree} (h : t.Valid 256 255) : (BitVec.ofNat 32 t.leafCount).toNat = t.leafCount := by
  have := leafCount_le h
  rw [BitVec.toNat_ofNat, Nat.mod_eq_of_lt (by omega)]

/-- A new valid TREE with its number of leaves in NLEAF (R127, R158). -/
theorem Inv.putTree {s : State} (hs : Inv s) {t : OptTree} (ht : t.Valid 256 255) :
    Inv (succeed (putTree s t t.leafCount)) :=
  { freqWf := hs.freqWf, symWf := hs.symWf, bitWf := hs.bitWf, tblWf := hs.tblWf,
    freqIn := hs.freqIn, symIn := hs.symIn, bitIn := hs.bitIn, tblIn := hs.tblIn,
    tree := .inr ht, nleaf := ofNat_leafCount ht, err := .inl ⟨rfl, rfl⟩ }

theorem Inv.putText {s : State} (hs : Inv s) {x : List Byte} (hx : x.length ≤ 131072) : Inv (succeed (putText s x)) :=
  { freqWf := hs.freqWf, symWf := hs.symWf, bitWf := hs.bitWf, tblWf := Memory.wf_writeList hs.tblWf _ _,
    freqIn := hs.freqIn, symIn := hs.symIn, bitIn := hs.bitIn,
    tblIn := Memory.within_writeList hs.tblIn (by simpa [Space.cells] using hx),
    tree := hs.tree, nleaf := hs.nleaf, err := .inl ⟨rfl, rfl⟩ }

theorem Inv.putBits {s : State} (hs : Inv s) {x : List Bool} (hx : x.length ≤ 1048576) : Inv (succeed (putBits s x)) :=
  { freqWf := hs.freqWf, symWf := hs.symWf, bitWf := Memory.wf_writeList hs.bitWf _ _, tblWf := hs.tblWf,
    freqIn := hs.freqIn, symIn := hs.symIn, tblIn := hs.tblIn,
    bitIn := Memory.within_writeList hs.bitIn (by simpa [Space.cells] using hx),
    tree := hs.tree, nleaf := hs.nleaf, err := .inl ⟨rfl, rfl⟩ }

theorem Inv.putSyms {s : State} (hs : Inv s) {x : List Nat} (hx : x.length ≤ 65536) : Inv (succeed (putSyms s x)) :=
  { freqWf := hs.freqWf, symWf := Memory.wf_writeList hs.symWf _ _, bitWf := hs.bitWf, tblWf := hs.tblWf,
    freqIn := hs.freqIn, bitIn := hs.bitIn, tblIn := hs.tblIn,
    symIn := Memory.within_writeList hs.symIn (by simpa [Space.cells] using hx),
    tree := hs.tree, nleaf := hs.nleaf, err := .inl ⟨rfl, rfl⟩ }

/-- A failure leaves the invariant (R206). -/
theorem Inv.fail {s : State} (hs : Inv s) (i : Instr) (r : Raise) : Inv (fail i r s) := by
  have scr : ∀ {w} (m : Memory w) cap, m.scramble.wf ∧ m.scramble.within cap :=
    fun m cap => ⟨Memory.wf_scramble m, Memory.within_scramble cap m⟩
  have herr : (Machine.fail i r s).err = errWord r.failure := rfl
  cases i <;>
    exact { freqWf := hs.freqWf
            symWf := by first | exact hs.symWf | exact (scr s.sym 0).1
            bitWf := by first | exact hs.bitWf | exact (scr s.bit 0).1
            tblWf := by first | exact hs.tblWf | exact (scr s.tbl 0).1
            freqIn := hs.freqIn
            symIn := by first | exact hs.symIn | exact (scr s.sym _).2
            bitIn := by first | exact hs.bitIn | exact (scr s.bit _).2
            tblIn := by first | exact hs.tblIn | exact (scr s.tbl _).2
            tree := by first | exact hs.tree | exact .inl rfl
            nleaf := by first | exact hs.nleaf | rfl
            err := .inr ⟨r.failure, herr⟩ }

/-- Every command keeps the invariant. -/
theorem Inv.exec {i : Instr} {s t : State} (hs : Inv s) (h : exec i s = .next t) : Inv t := by
  cases i with
  | build =>
    rcases exec_build_cases s with ⟨u, n, hb, he⟩ | ⟨r, -, he⟩ <;> rw [he] at h <;> cases h
    · obtain ⟨h1, -, rfl, -⟩ := buildTree_ok (lenMax := 255) hb (by simp) (by omega) (by omega)
      exact hs.putTree h1
    · exact hs.fail _ _
  | save =>
    rcases exec_save_cases s with ⟨x, hx, he⟩ | ⟨r, -, he⟩ <;> rw [he] at h <;> cases h
    · exact hs.putText (saveTree_ok hx).2.2
    · exact hs.fail _ _
  | load =>
    rcases exec_load_cases s with ⟨u, n, hb, he⟩ | ⟨r, -, he⟩ <;> rw [he] at h <;> cases h
    · obtain ⟨h1, rfl, -⟩ := loadInput_ok hb
      exact hs.putTree h1
    · exact hs.fail _ _
  | encode =>
    rcases exec_encode_cases s with ⟨x, hx, he⟩ | ⟨r, -, he⟩ <;> rw [he] at h <;> cases h
    · exact hs.putBits (encodeInput_ok hx).2.2.2
    · exact hs.fail _ _
  | decode =>
    rcases exec_decode_cases s with ⟨x, hx, he⟩ | ⟨r, -, he⟩ <;> rw [he] at h <;> cases h
    · refine hs.putSyms ?_
      rcases hs.tree with ht | ht
      · simp [decodeInput, ht] at hx
      · exact (decodeInput_ok ht hx).2.2
    · exact hs.fail _ _

theorem Inv.illegalCommand {s : State} (hs : Inv s) : Inv (illegalCommand s) :=
  { freqWf := hs.freqWf, symWf := hs.symWf, bitWf := hs.bitWf, tblWf := hs.tblWf,
    freqIn := hs.freqIn, symIn := hs.symIn, bitIn := hs.bitIn, tblIn := hs.tblIn,
    tree := hs.tree, nleaf := hs.nleaf, err := .inr ⟨.illegalCommand, rfl⟩ }

theorem Inv.resetCore (s : State) : Inv (resetCore s) :=
  { freqWf := Memory.wf_scramble _, symWf := Memory.wf_scramble _, bitWf := Memory.wf_scramble _,
    tblWf := Memory.wf_scramble _, freqIn := Memory.within_scramble _ _, symIn := Memory.within_scramble _ _,
    bitIn := Memory.within_scramble _ _, tblIn := Memory.within_scramble _ _,
    tree := .inl rfl, nleaf := rfl, err := .inl ⟨rfl, rfl⟩ }

theorem Inv.cellWrite {s : State} (hs : Inv s) {sp : Space} {i : Nat} (hi : i < sp.cells) (v : Nat) :
    Inv (cellWrite s sp i v) := by
  cases sp with
  | reg =>
    simp only [Machine.cellWrite, regWrite]
    split
    · exact { hs with }
    · split
      · exact { hs with }
      · split
        · exact { hs with }
        · exact hs
  | freq => exact { hs with freqWf := Memory.wf_write hs.freqWf _ _, freqIn := Memory.within_write hs.freqIn hi _ }
  | sym => exact { hs with symWf := Memory.wf_write hs.symWf _ _, symIn := Memory.within_write hs.symIn hi _ }
  | bit => exact { hs with bitWf := Memory.wf_write hs.bitWf _ _, bitIn := Memory.within_write hs.bitIn hi _ }
  | tbl => exact { hs with tblWf := Memory.wf_write hs.tblWf _ _, tblIn := Memory.within_write hs.tblIn hi _ }

end Sys2Proof.Machine
end

