-- ==== Sys2Proof/Laws/Optimality.lean ====
section
/-! SUPPORT. The weighted sum of a built tree: its value as the sum of the frequencies of the Internal nodes (40_builder.md R130 (e)), and
the lemmas behind its minimality (R130 (d)): Kraft's inequality for prefix-free paths, and that joining the two items of
least frequency loses nothing. -/

namespace Sys2Proof.Machine

open OptTree

theorem OptTree.weight_node (f : Nat → Nat) (l r : OptTree) : (node l r).weight f = l.weight f + r.weight f := by
  simp [weight, symbols]

theorem OptTree.cost_node (f : Nat → Nat) (l r : OptTree) :
    (node l r).cost f = l.cost f + l.weight f + (r.cost f + r.weight f) := by
  have side : ∀ (b : Bool) (t : OptTree),
      ((t.pairs.map fun e => (e.1, b :: e.2)).map fun e : Nat × List Bool => f e.1 * e.2.length).sum
        = t.cost f + t.weight f := by
    intro b t
    rw [weight, ← map_fst_pairs, cost, List.map_map, List.map_map]
    induction t.pairs with
    | nil => rfl
    | cons e es ih =>
      simp only [Function.comp_def, List.map_cons, List.sum_cons, List.length_cons] at ih ⊢
      rw [ih]; ring
  rw [cost, pairs_node, List.map_append, List.sum_append, side, side]

/-- R130 (e): the weighted sum is the sum of the frequencies of the Internal nodes. -/
theorem OptTree.cost_eq_internalSum (f : Nat → Nat) (t : OptTree) : t.cost f = t.internalSum f := by
  induction t with
  | absent => rfl
  | leaf s => simp [cost, internalSum]
  | node l r ihl ihr => rw [cost_node, internalSum, weight_node, ihl, ihr]; omega

/-- The Kraft sum of a list of lengths, in units of `2 ^ -N`. -/
def kraft (N : Nat) (ls : List Nat) : Nat := (ls.map fun l => 2 ^ (N - l)).sum

theorem kraft_cons (N l : Nat) (ls : List Nat) : kraft N (l :: ls) = 2 ^ (N - l) + kraft N ls := by simp [kraft]

theorem kraft_perm {N : Nat} {ls ls' : List Nat} (h : ls.Perm ls') : kraft N ls = kraft N ls' :=
  (h.map _).sum_eq

/-- Paths of which none is a prefix of another. -/
abbrev PrefixFree (C : List (List Bool)) : Prop := C.Pairwise fun p q => ¬ Collide p q

theorem collide_comm {p q : List Bool} : Collide p q ↔ Collide q p := or_comm

/-- The rests of the paths that begin with `b`. -/
def tails (b : Bool) (C : List (List Bool)) : List (List Bool) :=
  C.filterMap fun p => match p with
    | [] => none
    | c :: q => if c = b then some q else none

theorem tails_cons_cons (b c : Bool) (q : List Bool) (C : List (List Bool)) :
    tails b ((c :: q) :: C) = if c = b then q :: tails b C else tails b C := by
  simp only [tails, List.filterMap_cons]; split <;> simp_all

theorem mem_tails {b : Bool} {C : List (List Bool)} {q : List Bool} : q ∈ tails b C ↔ (b :: q) ∈ C := by
  induction C with
  | nil => simp [tails]
  | cons p C ih =>
    cases p with
    | nil => simpa [tails] using ih
    | cons c p => rw [tails_cons_cons]; split <;> simp_all [eq_comm]

theorem prefixFree_tails {b : Bool} {C : List (List Bool)} (h : PrefixFree C) : PrefixFree (tails b C) := by
  induction C with
  | nil => simp [tails]
  | cons p C ih =>
    have hc := List.pairwise_cons.mp h
    cases p with
    | nil => simpa [tails] using ih hc.2
    | cons c p =>
      rw [tails_cons_cons]
      split
      · next hb =>
        subst hb
        exact List.pairwise_cons.mpr ⟨fun q hq hcol => hc.1 _ (mem_tails.mp hq) (collide_cons.mpr hcol), ih hc.2⟩
      · exact ih hc.2

theorem kraft_split {N : Nat} {C : List (List Bool)} (hne : ∀ p ∈ C, p ≠ []) :
    kraft (N + 1) (C.map List.length) =
      kraft N ((tails false C).map List.length) + kraft N ((tails true C).map List.length) := by
  induction C with
  | nil => rfl
  | cons p C ih =>
    simp only [List.forall_mem_cons] at hne
    cases p with
    | nil => simp at hne
    | cons c p =>
      have h := ih hne.2
      cases c <;>
        simp only [tails_cons_cons, List.map_cons, kraft_cons, List.length_cons, Nat.add_sub_add_right, reduceCtorEq,
          if_true, if_false] <;> omega

/-- Kraft's inequality for prefix-free paths. -/
theorem kraft_le {N : Nat} {C : List (List Bool)} (h : PrefixFree C) (hN : ∀ p ∈ C, p.length ≤ N) :
    kraft N (C.map List.length) ≤ 2 ^ N := by
  by_cases hnil : [] ∈ C
  · obtain ⟨C₁, C₂, rfl⟩ := List.append_of_mem hnil
    have hp := List.pairwise_append.mp h
    have hC₁ : C₁ = [] := List.eq_nil_iff_forall_not_mem.mpr fun p hp1 =>
      hp.2.2 p hp1 [] (by simp) (.inr List.nil_prefix)
    have hC₂ : C₂ = [] := List.eq_nil_iff_forall_not_mem.mpr fun p hp2 =>
      (List.pairwise_cons.mp hp.2.1).1 p hp2 (.inl List.nil_prefix)
    simp [hC₁, hC₂, kraft]
  · induction N generalizing C with
    | zero =>
      have : C = [] := List.eq_nil_iff_forall_not_mem.mpr fun p hp =>
        hnil (by have := hN p hp; rwa [List.eq_nil_of_length_eq_zero (by omega : p.length = 0)] at hp)
      simp [this, kraft]
    | succ N ih =>
      have side : ∀ b, kraft N ((tails b C).map List.length) ≤ 2 ^ N := by
        intro b
        have hpf := prefixFree_tails (b := b) h
        have hlen : ∀ p ∈ tails b C, p.length ≤ N := fun p hp => by
          have := hN _ (mem_tails.mp hp); simpa using this
        by_cases hn : [] ∈ tails b C
        · obtain ⟨C₁, C₂, he⟩ := List.append_of_mem hn
          rw [he] at hpf ⊢
          have hp := List.pairwise_append.mp hpf
          have hC₁ : C₁ = [] := List.eq_nil_iff_forall_not_mem.mpr fun p hp1 =>
            hp.2.2 p hp1 [] (by simp) (.inr List.nil_prefix)
          have hC₂ : C₂ = [] := List.eq_nil_iff_forall_not_mem.mpr fun p hp2 =>
            (List.pairwise_cons.mp hp.2.1).1 p hp2 (.inl List.nil_prefix)
          simp [hC₁, hC₂, kraft]
        · exact ih hpf hlen hn
      rw [kraft_split fun p hp h0 => hnil (h0 ▸ hp), pow_succ]
      have := side false; have := side true; omega

/-- The weighted sum of an assignment of lengths to weights. -/
def lengthCost (P : List (Nat × Nat)) : Nat := (P.map fun e => e.1 * e.2).sum

theorem lengthCost_cons (e : Nat × Nat) (P : List (Nat × Nat)) : lengthCost (e :: P) = e.1 * e.2 + lengthCost P := by
  simp [lengthCost]

theorem lengthCost_perm {P Q : List (Nat × Nat)} (h : P.Perm Q) : lengthCost P = lengthCost Q := (h.map _).sum_eq

/-- Take an entry of weight `a` out of an assignment. -/
theorem exists_perm_cons {P : List (Nat × Nat)} {a : Nat} {ws : List Nat} (h : (P.map Prod.fst).Perm (a :: ws)) :
    ∃ l R, P.Perm ((a, l) :: R) ∧ (R.map Prod.fst).Perm ws := by
  obtain ⟨e, he, rfl⟩ := List.mem_map.mp (h.symm.subset List.mem_cons_self)
  have hp := List.perm_cons_erase he
  exact ⟨e.2, P.erase e, hp, ((hp.map Prod.fst).symm.trans h).cons_inv⟩

/-- Give the lightest entry the greatest length: the lengths stay the same, the weighted sum does not grow. -/
theorem swap_longest (a l : Nat) (R : List (Nat × Nat)) (ha : ∀ e ∈ R, a ≤ e.1) :
    ∃ l' R', (R'.map Prod.fst).Perm (R.map Prod.fst) ∧ (l' :: R'.map Prod.snd).Perm (l :: R.map Prod.snd) ∧
      (∀ e ∈ R', e.2 ≤ l') ∧ (∀ B, (∀ e ∈ R, e.2 ≤ B) → ∀ e ∈ R', e.2 ≤ B) ∧
      a * l' + lengthCost R' ≤ a * l + lengthCost R := by
  by_cases hmax : ∀ e ∈ R, e.2 ≤ l
  · exact ⟨l, R, List.Perm.refl _, List.Perm.refl _, hmax, fun B hB => hB, le_refl _⟩
  · simp only [not_forall, not_le] at hmax
    obtain ⟨e₀, he₀, hlt⟩ := hmax
    obtain ⟨m, hm, hmm⟩ : ∃ m ∈ R, ∀ e ∈ R, e.2 ≤ m.2 := by
      obtain ⟨m, hm, hmm⟩ := Finset.exists_max_image R.toFinset Prod.snd ⟨e₀, by simpa using he₀⟩
      exact ⟨m, by simpa using hm, fun e he => hmm e (by simpa using he)⟩
    have hp := List.perm_cons_erase hm
    have hml : l < m.2 := lt_of_lt_of_le hlt (hmm _ he₀)
    refine ⟨m.2, (m.1, l) :: R.erase m, ?_, ?_, ?_, ?_, ?_⟩
    · simpa using (hp.map Prod.fst).symm
    · have := (hp.map Prod.snd).cons l
      exact ((List.Perm.swap _ _ _).trans (by simpa using this.symm))
    · simp only [List.forall_mem_cons]
      exact ⟨hml.le, fun e he => hmm e (List.mem_of_mem_erase he)⟩
    · intro B hB
      simp only [List.forall_mem_cons]
      exact ⟨hml.le.trans (hB m hm), fun e he => hB e (List.mem_of_mem_erase he)⟩
    · rw [lengthCost_perm hp, lengthCost_cons, lengthCost_cons]
      have hw := ha m hm
      obtain ⟨d, hd⟩ := Nat.exists_eq_add_of_lt hml
      obtain ⟨c, hc⟩ := Nat.exists_eq_add_of_le hw
      rw [hd, hc]; nlinarith

/-- Lengths of at most `m` sum to a multiple of `2 ^ (N - m)`. -/
theorem kraft_multiple {N m : Nat} (hm : m ≤ N) {ls : List Nat} (h : ∀ l ∈ ls, l ≤ m) :
    ∃ k, kraft N ls = k * 2 ^ (N - m) := by
  induction ls with
  | nil => exact ⟨0, by simp [kraft]⟩
  | cons l ls ih =>
    simp only [List.forall_mem_cons] at h
    obtain ⟨k, hk⟩ := ih h.2
    refine ⟨2 ^ (m - l) + k, ?_⟩
    rw [kraft_cons, hk, Nat.add_mul, ← pow_add, show m - l + (N - m) = N - l by omega]

/-- Lengths that satisfy Kraft's inequality still do so when one that is the greatest is cut to the greatest of the others. -/
theorem kraft_cut {N m M : Nat} {ls : List Nat} (hmM : m ≤ M) (hM : M ≤ N) (h : ∀ l ∈ ls, l ≤ m)
    (hk : kraft N (M :: ls) ≤ 2 ^ N) : kraft N (m :: ls) ≤ 2 ^ N := by
  obtain ⟨k, hk'⟩ := kraft_multiple (N := N) (hmM.trans hM) h
  rw [kraft_cons, hk'] at hk ⊢
  have hpos : 0 < 2 ^ (N - M) := by positivity
  have hN : 2 ^ N = 2 ^ m * 2 ^ (N - m) := by rw [← pow_add, show m + (N - m) = N by omega]
  have hlt : k < 2 ^ m := by
    by_contra hc
    have := Nat.mul_le_mul_right (2 ^ (N - m)) (Nat.le_of_not_lt hc)
    omega
  calc 2 ^ (N - m) + k * 2 ^ (N - m) = (k + 1) * 2 ^ (N - m) := by ring
    _ ≤ 2 ^ m * 2 ^ (N - m) := Nat.mul_le_mul_right _ hlt
    _ = 2 ^ N := hN.symm

/-- The step behind R130 (d): from lengths for the weights `a`, `b` and `ws`, `a` and `b` the two least, one gets lengths for
`a + b` and `ws` at a weighted sum smaller by `a + b`. -/
theorem join_two_least {N a b : Nat} {ws : List Nat} {P : List (Nat × Nat)} (hP : (P.map Prod.fst).Perm (a :: b :: ws))
    (ha : ∀ w ∈ ws, a ≤ w) (hb : ∀ w ∈ ws, b ≤ w) (hN : ∀ e ∈ P, e.2 ≤ N) (hk : kraft N (P.map Prod.snd) ≤ 2 ^ N) :
    ∃ Q, (Q.map Prod.fst).Perm ((a + b) :: ws) ∧ (∀ e ∈ Q, e.2 ≤ N) ∧ kraft N (Q.map Prod.snd) ≤ 2 ^ N ∧
      lengthCost Q + (a + b) ≤ lengthCost P := by
  obtain ⟨la, P₁, hp1, hw1⟩ := exists_perm_cons hP
  obtain ⟨lb, R, hp2, hw2⟩ := exists_perm_cons hw1
  have hpR : P.Perm ((a, la) :: (b, lb) :: R) := hp1.trans (hp2.cons _)
  have hRw : ∀ e ∈ R, e.1 ∈ ws := fun e he => hw2.subset (List.mem_map_of_mem he)
  obtain ⟨la', R₁, f1, s1, m1, -, c1⟩ := swap_longest a la R fun e he => ha _ (hRw e he)
  have hR1w : ∀ e ∈ R₁, e.1 ∈ ws := fun e he => hw2.subset (f1.subset (List.mem_map_of_mem he))
  obtain ⟨lb', R₂, f2, s2, m2, b2, c2⟩ := swap_longest b lb R₁ fun e he => hb _ (hR1w e he)
  have hla : ∀ e ∈ R₂, e.2 ≤ la' := b2 la' m1
  have hsnd : (la' :: lb' :: R₂.map Prod.snd).Perm (P.map Prod.snd) := by
    refine (s2.cons la').trans ?_
    refine (List.Perm.swap _ _ _).trans ?_
    refine (s1.cons lb).trans ?_
    refine (List.Perm.swap _ _ _).trans ?_
    simpa using (hpR.map Prod.snd).symm
  have hbound : ∀ l ∈ la' :: lb' :: R₂.map Prod.snd, l ≤ N := fun l hl => by
    obtain ⟨e, he, rfl⟩ := List.mem_map.mp (hsnd.subset hl)
    exact hN e he
  simp only [List.forall_mem_cons, List.forall_mem_map] at hbound
  obtain ⟨hlaN, hlbN, hRN⟩ := hbound
  have hkr : kraft N (la' :: lb' :: R₂.map Prod.snd) ≤ 2 ^ N := by rw [kraft_perm hsnd]; exact hk
  -- both lengths can be taken to be the smaller one
  have hkm : kraft N (min la' lb' :: min la' lb' :: R₂.map Prod.snd) ≤ 2 ^ N := by
    rcases Nat.le_total la' lb' with h | h
    · rw [Nat.min_eq_left h]
      have := kraft_cut (N := N) (m := la') (M := lb') (ls := la' :: R₂.map Prod.snd) h hlbN
        (by simp only [List.forall_mem_cons, List.forall_mem_map]; exact ⟨le_refl _, hla⟩)
        (by rw [kraft_perm (List.Perm.swap _ _ _)]; exact hkr)
      exact this
    · rw [Nat.min_eq_right h]
      exact kraft_cut (N := N) (m := lb') (M := la') (ls := lb' :: R₂.map Prod.snd) h hlaN
        (by simp only [List.forall_mem_cons, List.forall_mem_map]; exact ⟨le_refl _, m2⟩) hkr
  set m := min la' lb' with hm
  have hmpos : 0 < m := by
    rcases Nat.eq_zero_or_pos m with h0 | h0
    · rw [h0, kraft_cons, kraft_cons, Nat.sub_zero] at hkm
      have : 0 < 2 ^ N := by positivity
      omega
    · exact h0
  have hmN : m ≤ N := (Nat.min_le_left _ _).trans hlaN
  refine ⟨(a + b, m - 1) :: R₂, ?_, ?_, ?_, ?_⟩
  · simpa using ((f2.trans f1).trans hw2)
  · simp only [List.forall_mem_cons]; exact ⟨by omega, hRN⟩
  · rw [List.map_cons, kraft_cons]
    rw [kraft_cons, kraft_cons] at hkm
    have : 2 ^ (N - (m - 1)) = 2 ^ (N - m) + 2 ^ (N - m) := by
      rw [show N - (m - 1) = N - m + 1 by omega, pow_succ]; omega
    simp only; omega
  · rw [lengthCost_perm hpR, lengthCost_cons, lengthCost_cons, lengthCost_cons]
    have e1 : a * m ≤ a * la' := Nat.mul_le_mul_left _ (Nat.min_le_left _ _)
    have e2 : b * m ≤ b * lb' := Nat.mul_le_mul_left _ (Nat.min_le_right _ _)
    have e3 : (a + b) * (m - 1) + (a + b) = a * m + b * m := by
      obtain ⟨d, hd⟩ : ∃ d, m = d + 1 := ⟨m - 1, by omega⟩
      rw [hd]; simp; ring
    simp only at *; omega

/-- The sum of the frequencies of the Internal nodes of all items. -/
def allInternal (f : Nat → Nat) (q : List Item) : Nat := (q.map fun x => x.tree.internalSum f).sum

/-- The combine loop ends with an Internal sum no greater than any assignment of lengths that satisfies Kraft's inequality
allows. -/
theorem combine_optimal {A fuel k N : Nat} {f : Nat → Nat} {q : List Item} (hq : q ≠ []) (hf : q.length ≤ fuel + 1)
    (hw : ∀ x ∈ q, x.freq = x.tree.weight f) {P : List (Nat × Nat)} (hP : (P.map Prod.fst).Perm (q.map Item.freq))
    (hN : ∀ e ∈ P, e.2 ≤ N) (hk : kraft N (P.map Prod.snd) ≤ 2 ^ N) :
    ∃ r, combine A fuel k q = [r] ∧ r.tree.internalSum f ≤ lengthCost P + allInternal f q := by
  obtain ⟨r, hr, -, P', hP', -, -, hle⟩ := combine_induct (A := A) (fuel := fuel) (k := k) (q := q)
    (I := fun l => (∀ x ∈ l, x.freq = x.tree.weight f) ∧ ∃ P' : List (Nat × Nat),
      (P'.map Prod.fst).Perm (l.map Item.freq) ∧ (∀ e ∈ P', e.2 ≤ N) ∧ kraft N (P'.map Prod.snd) ≤ 2 ^ N ∧
      lengthCost P' + allInternal f l ≤ lengthCost P + allInternal f q)
    (fun l l' hp ⟨a, P', h1, h2, h3, h4⟩ => ⟨fun x hx => a x (hp.symm.subset hx), P', h1.trans (hp.map _), h2, h3, by
      have : allInternal f l' = allInternal f l := (hp.symm.map _).sum_eq
      rw [this]; exact h4⟩)
    (fun x y rest k hmin ⟨a, P', h1, h2, h3, h4⟩ => by
      simp only [List.forall_mem_cons] at a
      obtain ⟨Q, q1, q2, q3, q4⟩ := join_two_least (N := N) (a := x.freq) (b := y.freq) (ws := rest.map Item.freq)
        (by simpa using h1) (by simpa using fun z hz => (hmin z hz).1) (by simpa using fun z hz => (hmin z hz).2) h2 h3
      refine ⟨?_, Q, by simpa using q1, q2, q3, ?_⟩
      · simp only [List.forall_mem_cons]
        exact ⟨by rw [weight_node, a.1, a.2.1], a.2.2⟩
      · simp only [allInternal, List.map_cons, List.sum_cons, internalSum, weight_node] at h4 ⊢
        rw [← a.1, ← a.2.1]; omega)
    hq hf ⟨hw, P, hP, hN, hk, le_refl _⟩
  refine ⟨r, hr, ?_⟩
  simp only [allInternal, List.map_cons, List.map_nil, List.sum_cons, List.sum_nil] at hle ⊢
  omega

/-- The weighted sum of a built tree is minimal among all prefix-free assignments of paths that are not empty (R130 (d)). -/
theorem cost_buildTree_le {A : Nat} {freqs : List Nat} {t : OptTree} {n : Nat} (h : buildTree A freqs = .ok (t, n))
    {c : Nat → List Bool} (hc : (present freqs).Pairwise fun a b => ¬ Collide (c a) (c b))
    (hne : ∀ s ∈ present freqs, c s ≠ []) :
    t.cost (fun s => freqs.getD s 0) ≤ ((present freqs).map fun s => freqs.getD s 0 * (c s).length).sum := by
  match hp : present freqs with
  | [] => rw [buildTree_zero hp] at h; simp at h
  | [s] =>
    rw [buildTree_one hp] at h
    simp only [Except.ok.injEq, Prod.mk.injEq] at h
    obtain ⟨rfl, rfl⟩ := h
    have := List.length_pos_iff.mpr (hne s (by simp [hp]))
    simp only [cost, pairs_node, pairs_leaf, pairs_absent, List.map_cons, List.map_nil, List.append_nil, List.sum_cons, List.sum_nil,
      List.length_cons, List.length_nil, Nat.add_zero]
    exact Nat.mul_le_mul_left _ this
  | a :: b :: rest =>
    have hl : 2 ≤ (leafItems freqs).length := by rw [length_leafItems, hp]; simp
    have hneq : leafItems freqs ≠ [] := by intro h0; simp [h0] at hl
    obtain ⟨N, hN⟩ : ∃ N, ∀ s ∈ present freqs, (c s).length ≤ N :=
      ⟨((present freqs).map fun s => (c s).length).sum, fun s hs =>
        List.single_le_sum (fun x _ => Nat.zero_le x) _ (List.mem_map_of_mem hs)⟩
    obtain ⟨r, hr, hle⟩ := combine_optimal (A := A) (fuel := (leafItems freqs).length) (k := 0) (N := N)
      (f := fun s => freqs.getD s 0) (q := leafItems freqs) hneq (by omega)
      (by rw [leafItems_eq]; simp [weight, symbols])
      (P := (present freqs).map fun s => (freqs.getD s 0, (c s).length))
      (by rw [leafItems_eq]; simp [Function.comp_def])
      (by simpa using hN)
      (by
        have := kraft_le (N := N) (C := (present freqs).map c) (List.pairwise_map.mpr hc) (by simpa using hN)
        simpa [Function.comp_def] using this)
    have ht : t = r.tree := by
      rw [buildTree, if_neg hneq] at h
      simp only [Except.ok.injEq, Prod.mk.injEq] at h
      rw [← h.1, itemsTree_of_two hl hr]
    have hz : allInternal (fun s => freqs.getD s 0) (leafItems freqs) = 0 := by
      rw [leafItems_eq]; simp [allInternal, internalSum, Function.comp_def]
    rw [cost_eq_internalSum, ht, ← hp]
    rw [hz] at hle
    simpa [lengthCost, Function.comp_def] using hle

end Sys2Proof.Machine
end

