-- ==== Sys2Proof/Laws/Commands.lean ====
section
/-! SUPPORT. Lemmas about whole commands, in the terms of the memories and registers they read: the FREQ cells of BUILD, the
digits of the table text, the pairs of LOAD, the symbols and bits of ENCODE and DECODE. -/

namespace Sys2Proof.Machine

/-! ## BUILD -/

/-- The symbols that occur, as the symbols with a FREQ cell above 0 (40_builder.md R121). -/
theorem present_input (s : State) : present (freqInput s) = (List.range 256).filter fun b => s.freq.read .freq b ≠ 0 := by
  rw [present, length_freqInput]
  apply List.filter_congr
  intro b hb
  have hb : b < 256 := List.mem_range.mp hb
  rw [getD_freqInput, if_pos hb]
  have : (s.freq.read .freq b).toNat = 0 ↔ s.freq.read .freq b = 0 := by
    constructor
    · intro h; exact BitVec.eq_of_toNat_eq h
    · rintro h; rw [h]; rfl
  simp only [Nat.pos_iff_ne_zero, ne_eq, this]

/-- Just one number below `n` satisfies `p`. -/
theorem filter_range_singleton {n a : Nat} (ha : a < n) {p : Nat → Bool} (hp : p a = true) (h : ∀ b, b < n → b ≠ a → p b = false) :
    (List.range n).filter p = [a] := by
  induction n with
  | zero => omega
  | succ n ih =>
    rw [List.range_succ, List.filter_append]
    by_cases hn : a = n
    · subst hn
      have : (List.range a).filter p = [] := by
        rw [List.filter_eq_nil_iff]
        intro b hb
        have := List.mem_range.mp hb
        rw [h b (by omega) (by omega)]; simp
      rw [this]; simp [hp]
    · rw [ih (by omega) (fun b hb => h b (by omega))]
      simp [h n (by omega) (by omega)]

/-- Just two numbers below `n` satisfy `p`. -/
theorem filter_range_pair {n a c : Nat} (hac : a < c) (ha : c < n) {p : Nat → Bool} (hp : p a = true) (hc : p c = true) (h : ∀ b, b < n → b ≠ a → b ≠ c → p b = false) :
    (List.range n).filter p = [a, c] := by
  induction n with
  | zero => omega
  | succ n ih =>
    rw [List.range_succ, List.filter_append]
    by_cases hn : c = n
    · subst hn
      rw [filter_range_singleton hac hp (fun b hb hne => h b (by omega) hne (by omega))]
      simp [hc]
    · rw [ih (by omega) (fun b hb => h b (by omega))]
      simp [h n (by omega) (by omega) (by omega)]

/-- Two FREQ cells above 0 are two symbols that occur. -/
theorem two_le_present {s : State} {a b : Nat} (hab : a < b) (hb : b < 256) (hfa : s.freq.read .freq a ≠ 0) (hfb : s.freq.read .freq b ≠ 0) :
    2 ≤ (present (freqInput s)).length := by
  have hsub : [a, b].Subperm (present (freqInput s)) := by
    refine List.subperm_of_subset (by simp; omega) ?_
    intro c hc
    rw [present_input]
    simp only [List.mem_cons, List.not_mem_nil, or_false] at hc
    rcases hc with rfl | rfl <;> simp <;> constructor <;> omega
  exact hsub.length_le

/-- A BUILD that leaves ERR 0 (R127). -/
theorem build_next {s t : State} (h : exec .build s = .next t) (he : t.err = 0) :
    ∃ u, buildTree 256 (freqInput s) = .ok (u, u.leafCount) ∧ t = succeed (putTree s u u.leafCount) ∧ u.Valid 256 255 ∧
      u.symbols.Perm (present (freqInput s)) := by
  rcases exec_build_cases s with ⟨u, n, hb, h'⟩ | ⟨r, -, h'⟩ <;> rw [h'] at h <;> cases h
  · obtain ⟨hv, hs, rfl, -⟩ := buildTree_ok (lenMax := 255) hb (by simp) (by omega) (by omega)
    exact ⟨u, hb, rfl, hv, hs⟩
  · exact absurd he (errWord_ne_zero _)

/-- A sum over all symbols is the sum over those that occur. -/
theorem sum_range_present (s : State) (g : Nat → Nat) :
    ((List.range 256).map fun a => (s.freq.read .freq a).toNat * g a).sum = ((present (freqInput s)).map fun a => (freqInput s).getD a 0 * g a).sum := by
  rw [present_input]
  have hg : ∀ (l : List Nat), (∀ a ∈ l, a < 256) →
      (l.map fun a => (s.freq.read .freq a).toNat * g a).sum =
      ((l.filter fun b => s.freq.read .freq b ≠ 0).map fun a => (freqInput s).getD a 0 * g a).sum := by
    intro l
    induction l with
    | nil => intro _; rfl
    | cons x l ih =>
      intro h
      have hx := h x List.mem_cons_self
      have ih := ih fun a ha => h a (List.mem_cons_of_mem _ ha)
      by_cases h0 : s.freq.read .freq x = 0
      · rw [List.filter_cons_of_neg (by simp [h0]), List.map_cons, List.sum_cons, h0, ih]; simp
      · rw [List.filter_cons_of_pos (by simpa using h0), List.map_cons, List.sum_cons, List.map_cons, List.sum_cons, ih,
          getD_freqInput, if_pos hx]
  exact hg _ fun a ha => List.mem_range.mp ha

/-- The weighted sum, by symbol instead of by pair. -/
theorem cost_eq_sum_codeOf {t : OptTree} (hnd : t.symbols.Nodup) (f : Nat → Nat) :
    t.cost f = (t.symbols.map fun a => f a * ((t.codeOf a).getD []).length).sum := by
  rw [OptTree.cost, ← OptTree.map_fst_pairs, List.map_map]
  congr 1
  apply List.map_congr_left
  rintro ⟨a, p⟩ ha
  simp [(OptTree.codeOf_eq_some_iff hnd).mpr ha]

/-- The weighted sum of R130 (d) over the FREQ cells is the cost of the tree. -/
theorem weighted_eq_cost {s : State} {u : OptTree} (hv : u.Valid 256 255) (hs : u.symbols.Perm (present (freqInput s))) :
    ((List.range 256).map fun a => (s.freq.read .freq a).toNat * ((u.codeOf a).getD []).length).sum = u.cost fun a => (freqInput s).getD a 0 := by
  rw [sum_range_present, cost_eq_sum_codeOf hv.2.2.2.1]
  exact ((hs.map _).sum_eq).symm

/-! ## The table text and LOAD -/

/-- The number a line of digits writes, in the words of Mathlib. -/
theorem ofDigits_decValue (line : List Byte) : Nat.ofDigits 10 (line.map fun c => c.toNat - 0x30).reverse = decValue line := by
  induction line using List.reverseRecOn with
  | nil => rfl
  | append_singleton l c ih =>
    rw [decValue_append_singleton, List.map_append, List.reverse_append, ← ih]
    simp [Nat.ofDigits_cons]; omega

theorem isDigit_iff {c : Byte} : isDigit c = true ↔ 0x30 ≤ c.toNat ∧ c.toNat ≤ 0x39 := by simp [isDigit]

/-- `k` digits write a number below `10 ^ k`. -/
theorem decValue_lt {line : List Byte} (h : ∀ c ∈ line, 0x30 ≤ c.toNat ∧ c.toNat ≤ 0x39) : decValue line < 10 ^ line.length := by
  induction line using List.reverseRecOn with
  | nil => simp [decValue]
  | append_singleton l c ih =>
    have ih := ih fun x hx => h x (by simp [hx])
    have := h c (by simp)
    rw [decValue_append_singleton, List.length_append, List.length_singleton, pow_succ]
    omega

/-- A number below `10 ^ k` is written with at most `k` digits. -/
theorem length_decText_le_of_lt {n k : Nat} (hk : 1 ≤ k) (h : n < 10 ^ k) : (decText n).length ≤ k := by
  induction k generalizing n with
  | zero => omega
  | succ k ih =>
    by_cases h10 : n < 10
    · rw [decText_of_lt h10]; simp
    · rw [decText_of_ge (by omega), List.length_append, List.length_singleton]
      rcases Nat.eq_zero_or_pos k with rfl | hk'
      · omega
      · have := ih (n := n / 10) hk' (by rw [pow_succ] at h; omega)
        omega

theorem bitChar_iff {c : Byte} : isBitChar c = true ↔ c = 0x30 ∨ c = 0x31 := by
  simp [isBitChar]

theorem map_charBit (line : List Byte) : (line.map fun c => decide (c = 0x31)) = line.map charBit := by
  apply List.map_congr_left; intro c _; simp only [charBit]; rfl

/-- What LOAD needs of the pairs of a table (R152, R154, R155). -/
theorem loadable_root {P : List (Nat × List Bool)} (h : ∀ e ∈ P, e.1 < 256 ∧ e.2 ≠ [] ∧ e.2.length ≤ 255) (hnd : (P.map Prod.fst).Nodup)
    (hp : P.Pairwise fun x y => ¬ x.2 <+: y.2 ∧ ¬ y.2 <+: x.2) : Loadable 256 255 (.node .absent .absent) P where
  below e he := (h e he).1
  len e he := (h e he).2
  nodup := hnd
  fresh e he := by simp [OptTree.symbols]
  prefixFree := hp.imp fun h hc => by rcases hc with hc | hc; exact h.1 hc; exact h.2 hc
  apart e he x hx := by simp [OptTree.pairs_node] at hx

/-! ## ENCODE and DECODE -/

/-- A symbol has a code when a leaf holds it. -/
theorem codeOf_ne_none {t : OptTree} {a : Nat} : t.codeOf a ≠ none ↔ a ∈ t.symbols := by
  rw [ne_eq, OptTree.codeOf_none, not_not]

/-- ENCODE of symbols that all have a code (R172). -/
theorem encodeInput_codes {s : State} (h : s.tree ≠ .absent) (hl : s.symLen.toNat ≤ 65536)
    (hs : ∀ a ∈ symInput s, s.tree.codeOf a ≠ none) (hb : (s.tree.codes (symInput s)).length ≤ 1048576) :
    encodeInput s = .ok (s.tree.codes (symInput s)) := by
  rw [encodeInput, if_neg h, if_neg (by simp; omega)]
  exact encodeLoop_ok (fun a ha => codeOf_ne_none.mp (hs a ha)) (by simpa using hb)

/-- A sum over the elements of a list, as a sum over their occurrences (42_transcoder.md R192). -/
theorem sum_map_count (l : List Nat) (g : Nat → Nat) {n : Nat} (h : ∀ a ∈ l, a < n) :
    (l.map g).sum = ((List.range n).map fun a => l.count a * g a).sum := by
  induction l with
  | nil => simp
  | cons x l ih =>
    have hx : x < n := h x (by simp)
    rw [List.map_cons, List.sum_cons, ih fun a ha => h a (by simp [ha])]
    have : ∀ a, (x :: l).count a * g a = (if a = x then g x else 0) + l.count a * g a := by
      intro a
      by_cases hax : a = x
      · subst hax; simp; ring
      · rw [List.count_cons_of_ne (Ne.symm hax)]; simp [hax]
    simp only [this]
    rw [List.sum_map_add]
    congr 1
    clear ih this h
    induction n with
    | zero => omega
    | succ n ih =>
      rw [List.range_succ, List.map_append, List.sum_append]
      by_cases hn : x = n
      · subst hn
        have : ((List.range x).map fun a => if a = x then g x else 0).sum = 0 := by
          rw [List.sum_eq_zero_iff]
          intro b hb
          obtain ⟨a, ha, rfl⟩ := List.mem_map.mp hb
          rw [if_neg (by have := List.mem_range.mp ha; omega)]
        rw [this]; simp
      · rw [← ih (by omega)]; simp [Ne.symm hn]

/-- DECODE past its first two checks. -/
theorem decodeInput_eq {s : State} (h : s.tree ≠ .absent) (hl : s.bitLen.toNat ≤ 1048576) :
    decodeInput s = decodeLoop 65536 s.tree (bitInput s) 0 s.tree 0 0 := by
  rw [decodeInput, if_neg h, if_neg (by simp; omega)]; rfl

/-- DECODE of the codes of some symbols and a rest of the stream (R182). -/
theorem decodeInput_codes {s : State} {syms : List Nat} {rest : List Bool} (hv : ValidTree s.tree) (hl : s.bitLen.toNat ≤ 1048576)
    (hs : ∀ a ∈ syms, a ∈ s.tree.symbols) (hm : syms.length ≤ 65536) (hb : bitInput s = s.tree.codes syms ++ rest) :
    decodeInput s = match decodeLoop 65536 s.tree rest (s.tree.codes syms).length s.tree 0 syms.length with
      | .ok out => .ok (syms ++ out) | .error r => .error r := by
  rw [decodeInput_eq (OptTree.ne_absent_of_isNode hv.1) hl, hb, decodeLoop_codes hv.1 hs (by simpa using hm), Nat.zero_add, Nat.zero_add]
  all_goals cases decodeLoop 65536 s.tree rest (s.tree.codes syms).length s.tree 0 syms.length <;> rfl

/-- DECODE of the codes of some symbols (R190). -/
theorem decode_ok {s : State} {syms : List Nat} (hv : ValidTree s.tree) (hl : s.bitLen.toNat ≤ 1048576)
    (hs : ∀ a ∈ syms, a ∈ s.tree.symbols) (hm : syms.length ≤ 65536) (hb : bitInput s = s.tree.codes syms) :
    decodeInput s = .ok syms := by
  rw [decodeInput_codes (rest := []) hv hl hs hm (by simpa using hb)]; simp [decodeLoop]

/-- No two failures have the same ERR word (R85, R86). -/
theorem errWord_injective {f g : Failure} (h : errWord f = errWord g) : f = g := by
  revert h; cases f <;> cases g <;> decide

/-- OUTPUT_FULL needs more bits than SYM has cells (R185). -/
theorem decodeLoop_capacity {cap : Nat} {root : OptTree} {bits : List Bool} {i : Nat} {cur : OptTree} {depth m : Nat} {r : Raise}
    (h : decodeLoop cap root bits i cur depth m = .error r) (hm : m + bits.length ≤ cap) : r.failure ≠ .outputFull := by
  induction bits generalizing i cur depth m r with
  | nil =>
    simp only [decodeLoop] at h
    split at h
    · cases h; simp
    · cases h
  | cons b bits ih =>
    simp only [List.length_cons] at hm
    simp only [decodeLoop] at h
    split at h
    · cases h; simp
    · split at h
      · omega
      · split at h
        · cases h
        · next r' h' => cases h; exact ih h' (by omega)
    · exact ih h (by omega)

/-- DECODE emits no more symbols than SYM has cells (R185). -/
theorem decodeLoop_length_le {cap : Nat} {root : OptTree} {bits : List Bool} {i : Nat} {cur : OptTree} {depth m : Nat}
    {syms : List Nat} (h : decodeLoop cap root bits i cur depth m = .ok syms) (hm : m ≤ cap) : m + syms.length ≤ cap := by
  induction bits generalizing i cur depth m syms with
  | nil =>
    simp only [decodeLoop] at h
    split at h
    · cases h
    · cases h; simpa using hm
  | cons b bits ih =>
    simp only [decodeLoop] at h
    split at h
    · cases h
    · split at h
      · cases h
      · split at h
        · next out hout =>
          cases h
          have := ih hout (by omega)
          simp only [List.length_cons]; omega
        · cases h
    · exact ih h hm

theorem decodeInput_length_le {s : State} {x : List Nat} (h : decodeInput s = .ok x) : x.length ≤ 65536 := by
  unfold decodeInput at h
  split at h
  · cases h
  · split at h
    · cases h
    · have := decodeLoop_length_le h (Nat.zero_le _)
      simpa using this

end Sys2Proof.Machine
end

