-- ==== Sys2Proof/Laws/PerInstr.lean ====
section
/-! SUPPORT. What holds of the encoding of every command, one lemma per constructor (30_encoding.md R81, R82). -/

namespace Sys2Proof.Laws.CommandWord

/-- The command word of `i`: the reserved field is 0 (R81), OP is in 1 .. 5 (R82), and `i` is well formed (R84). -/
def Statement (i : Sys2Proof.Instr) : Prop :=
  zeroField (encode i) = 0 ∧ opField (encode i) = opcode i ∧ 1 ≤ (opcode i).toNat ∧ (opcode i).toNat ≤ 5 ∧ i.wf = true

theorem build : Statement .build := by unfold Statement; decide

theorem save : Statement .save := by unfold Statement; decide

theorem load : Statement .load := by unfold Statement; decide

theorem encode : Statement .encode := by unfold Statement; decide

theorem decode : Statement .decode := by unfold Statement; decide

end Sys2Proof.Laws.CommandWord
end

