-- ==== Sys2Proof/Laws/Step.lean ====
section
/-! SUPPORT. The small lemmas of the command word and of one step: what the decoder accepts, which events an idle and a busy
core performs, and that a command does not read the host's side of the state. -/

namespace Sys2Proof

/-- The decoder accepts just the words the encoder gives (30_encoding.md R82). -/
theorem decodeCmd_eq_ok {w : Word} {i : Instr} : decodeCmd w = .ok i ↔ w = encode i := by
  constructor
  · intro h
    have hw : w = zeroField w ++ opField w := by
      apply BitVec.eq_of_getLsbD_eq
      intro k hk
      simp only [zeroField, opField, BitVec.getLsbD_append, BitVec.getLsbD_extractLsb']
      by_cases h8 : k < 8
      · simp [h8]
      · have : 8 + (k - 8) = k := by omega
        have h24 : k - 8 < 24 := by omega
        simp [h8, this, h24]
    unfold decodeCmd at h
    split at h
    · simp at h
    · next h0 =>
      simp only [ne_eq, Decidable.not_not] at h0
      rw [hw, h0, encode]
      repeat' split at h
      all_goals first | (simp at h; done) | (cases h; simp_all [opcode])
  · rintro rfl
    cases i <;> decide

theorem decodeCmd_encode (i : Instr) : decodeCmd (encode i) = .ok i := decodeCmd_eq_ok.mpr rfl

theorem toNat_encode_lt (i : Instr) : (encode i).toNat < 2 ^ 32 := (encode i).isLt

/-- The words that are no command (30_encoding.md R83), as numbers. -/
theorem decodeCmd_error {w : Nat} (hw : w < 2 ^ 32) (h : w = 0 ∨ 6 ≤ w) : ∃ r, decodeCmd (BitVec.ofNat 32 w) = .error r := by
  cases hd : decodeCmd (BitVec.ofNat 32 w) with
  | error r => exact ⟨r, rfl⟩
  | ok i =>
    have := congrArg BitVec.toNat (decodeCmd_eq_ok.mp hd)
    rw [BitVec.toNat_ofNat, Nat.mod_eq_of_lt hw] at this
    have hi : (encode i).toNat = 1 ∨ (encode i).toNat = 2 ∨ (encode i).toNat = 3 ∨ (encode i).toNat = 4 ∨
        (encode i).toNat = 5 := by cases i <;> decide
    omega

namespace Machine

/-! ## One event -/

theorem step_nil {s : State} (h : s.pending = []) : step s = finish s := by simp only [step, h]

theorem step_idle {s : State} {ev : HostEvent} {rest : List HostEvent} (hr : s.running = none) (h : s.pending = ev :: rest) :
    step s = idleEvent ev { s with pending := rest } := by
  simp only [step, h, hostEvent, hr]

theorem step_busy {s : State} {i : Instr} {ev : HostEvent} {rest : List HostEvent} (hr : s.running = some i)
    (h : s.pending = ev :: rest) : step s = busyEvent i ev { s with pending := rest } := by
  simp only [step, h, hostEvent, hr]

/-- A CMD write while the core is idle (10_state.md R22). -/
theorem idleEvent_cmd {s : State} {w : Nat} (hw : w < 2 ^ 32) :
    idleEvent (.write .reg 0 w) s = issue (BitVec.ofNat 32 w) s := by
  have h1 : ¬ Space.reg.cells ≤ 0 := by decide
  have h2 : ¬ 2 ^ Space.reg.width ≤ w := by simp only [Space.width]; omega
  simp only [idleEvent, if_neg h1, if_neg h2, true_and, if_true]

/-- A write of any other cell while the core is idle. -/
theorem idleEvent_write {s : State} {sp : Space} {i v : Nat} (hi : i < sp.cells) (hv : v < 2 ^ sp.width)
    (hne : ¬ (sp = .reg ∧ i = 0)) : idleEvent (.write sp i v) s = .next (cellWrite s sp i v) := by
  simp only [idleEvent, if_neg (Nat.not_le.mpr hi), if_neg (Nat.not_le.mpr hv), if_neg hne]

theorem idleEvent_read {s : State} {sp : Space} {i : Nat} (hi : i < sp.cells) :
    idleEvent (.read sp i) s = .next { s with rdata := some (cellRead s sp i) } := by
  simp only [idleEvent, if_pos hi]

/-- A CMD write always ends in a next state: the command's, or IllegalCommand's. -/
theorem issue_cases (w : Word) (s : State) :
    (∃ i, decodeCmd w = .ok i ∧ issue w s = exec i s) ∨
      (∃ r, decodeCmd w = .error r) ∧ issue w s = .next (illegalCommand s) := by
  cases h : decodeCmd w with
  | ok i => exact .inl ⟨i, rfl, by simp only [issue, h]⟩
  | error r => exact .inr ⟨⟨r, rfl⟩, by simp only [issue, h]⟩

theorem finish_next (s : State) : ∃ t, finish s = .next t := by
  unfold finish
  split
  · obtain ⟨t, h, -⟩ := exec_done ‹_› s
    exact ⟨t, h⟩
  · exact ⟨s, rfl⟩

theorem issue_next (w : Word) (s : State) : ∃ t, issue w s = .next t := by
  rcases issue_cases w s with ⟨i, -, h⟩ | ⟨-, h⟩
  · obtain ⟨t, ht, -⟩ := exec_done i s
    exact ⟨t, h.trans ht⟩
  · exact ⟨_, h⟩

/-! ## What a step can do -/

/-- The ways one step goes on, each with the state it leaves. -/
inductive StepKind (s t : State) : Prop where
  /-- Nothing changed but the host's side (a read, a poll, idling). -/
  | host (p : List HostEvent) (d : Option Word) (n : Nat) (h : t = { s with pending := p, rdata := d, polls := n })
  /-- A host write of a cell or register other than CMD. -/
  | write (p : List HostEvent) (sp : Space) (i v : Nat) (hi : i < sp.cells) (h : t = cellWrite { s with pending := p } sp i v)
  /-- A command word that is none. -/
  | illegal (p : List HostEvent) (h : t = illegalCommand { s with pending := p })
  /-- A command that takes time is started. -/
  | start (p : List HostEvent) (i : Instr) (h : t = { s with pending := p, running := some i })
  /-- A command runs, or the one in progress completes. -/
  | command (p : List HostEvent) (i : Instr)
      (hi : s.running = some i ∨
        ∃ w, s.pending.head? = some (.write .reg 0 w) ∧ decodeCmd (BitVec.ofNat 32 w) = .ok i)
      (h : exec i { s with pending := p } = .next t)
  /-- Reset. -/
  | reset (p : List HostEvent) (hp : s.pending.head? = some .reset) (h : t = resetCore { s with pending := p })

theorem stepKind_finish {s t : State} {p : List HostEvent} (h : finish { s with pending := p } = .next t) :
    StepKind s t := by
  unfold finish at h
  split at h
  · next i hi => exact .command p i (.inl hi) h
  · cases h; exact .host p s.rdata s.polls rfl

/-- Every step that goes on is one of these. -/
theorem stepKind_of_step {s t : State} (h : step s = .next t) : StepKind s t := by
  cases hp : s.pending with
  | nil =>
    rw [step_nil hp] at h
    exact stepKind_finish (p := s.pending) h
  | cons ev rest =>
    cases hr : s.running with
    | none =>
      rw [step_idle hr hp] at h
      cases ev with
      | read sp i =>
        simp only [idleEvent] at h
        split at h
        · cases h; exact .host rest _ s.polls rfl
        · cases h
      | write sp i v =>
        simp only [idleEvent] at h
        split at h
        · cases h
        · next hi =>
          split at h
          · cases h
          · split at h
            · next hc =>
              obtain ⟨rfl, rfl⟩ := hc
              rcases issue_cases (BitVec.ofNat 32 v) { s with pending := rest } with ⟨j, hj, he⟩ | ⟨-, he⟩ <;> rw [he] at h
              · exact .command rest j (.inr ⟨v, by rw [hp]; rfl, hj⟩) h
              · cases h; exact .illegal rest rfl
            · cases h; exact .write rest sp i v (by omega) rfl
      | start w =>
        simp only [idleEvent] at h
        split at h
        · cases h
        · cases h
          unfold begin
          split
          · next i _ => exact .start rest i rfl
          · exact .illegal rest rfl
      | complete => exact stepKind_finish h
      | reset => cases h; exact .reset rest (by rw [hp]; rfl) rfl
    | some j =>
      rw [step_busy hr hp] at h
      cases ev with
      | read sp n =>
        simp only [busyEvent] at h
        split at h
        · cases h; exact .host rest _ _ rfl
        · cases h
      | write _ _ _ => cases h
      | start _ => cases h
      | complete => exact stepKind_finish h
      | reset => cases h; exact .reset rest (by rw [hp]; rfl) rfl

/-! ## A command does not read the host's side -/

/-- A state with another host side and command in progress. -/
abbrev State.withHostSide (s : State) (p : List HostEvent) (d : Option Word) (n : Nat) : State :=
  { s with pending := p, rdata := d, polls := n, running := none }

/-- What a command does is the same whatever the host has read or is going to do (30_encoding.md R84). -/
theorem exec_withHostSide {i : Instr} {s t : State} (h : exec i s = .next t) (r : Option Instr) (p : List HostEvent)
    (d : Option Word) (n : Nat) :
    exec i { s with running := r, pending := p, rdata := d, polls := n } = .next (t.withHostSide p d n) := by
  cases i with
  | build =>
    rcases exec_build_cases s with ⟨u, m, hb, he⟩ | ⟨e, hb, he⟩ <;> rw [he] at h <;> cases h
    · exact exec_build_ok (s := { s with running := r, pending := p, rdata := d, polls := n }) hb
    · exact exec_build_error (s := { s with running := r, pending := p, rdata := d, polls := n }) hb
  | save =>
    rcases exec_save_cases s with ⟨u, hb, he⟩ | ⟨e, hb, he⟩ <;> rw [he] at h <;> cases h
    · exact exec_save_ok (s := { s with running := r, pending := p, rdata := d, polls := n }) hb
    · exact exec_save_error (s := { s with running := r, pending := p, rdata := d, polls := n }) hb
  | load =>
    rcases exec_load_cases s with ⟨u, m, hb, he⟩ | ⟨e, hb, he⟩ <;> rw [he] at h <;> cases h
    · exact exec_load_ok (s := { s with running := r, pending := p, rdata := d, polls := n }) hb
    · exact exec_load_error (s := { s with running := r, pending := p, rdata := d, polls := n }) hb
  | encode =>
    rcases exec_encode_cases s with ⟨u, hb, he⟩ | ⟨e, hb, he⟩ <;> rw [he] at h <;> cases h
    · exact exec_encode_ok (s := { s with running := r, pending := p, rdata := d, polls := n }) hb
    · exact exec_encode_error (s := { s with running := r, pending := p, rdata := d, polls := n }) hb
  | decode =>
    rcases exec_decode_cases s with ⟨u, hb, he⟩ | ⟨e, hb, he⟩ <;> rw [he] at h <;> cases h
    · exact exec_decode_ok (s := { s with running := r, pending := p, rdata := d, polls := n }) hb
    · exact exec_decode_error (s := { s with running := r, pending := p, rdata := d, polls := n }) hb

/-! ## Runs -/

section AnyCore
variable (M : Host.Core)

theorem core_run_succ {n : Nat} {s t : M.State} (h : M.step s = .next t) : M.run (n + 1) s = M.run n t := by
  simp only [Host.Core.run, h]

theorem core_run_succ_next {n : Nat} {s t : M.State} (h : M.run (n + 1) s = .next t) :
    ∃ u, M.step s = .next u ∧ M.run n u = .next t := by
  simp only [Host.Core.run] at h
  split at h
  · next u hu => exact ⟨u, hu, h⟩
  · cases h
  · cases h

theorem core_run_add {m n : Nat} {s t : M.State} (h : M.run m s = .next t) : M.run (m + n) s = M.run n t := by
  induction m generalizing s with
  | zero => cases h; rw [Nat.zero_add]
  | succ m ih =>
    obtain ⟨u, hu, hr⟩ := core_run_succ_next M h
    rw [show m + 1 + n = m + n + 1 by omega, core_run_succ M hu]
    exact ih hr

end AnyCore

theorem run_zero (s : State) : Host.Core.run Sys2Proof.core 0 s = .next s := rfl

theorem run_succ {n : Nat} {s t : State} (h : step s = .next t) :
    Host.Core.run Sys2Proof.core (n + 1) s = Host.Core.run Sys2Proof.core n t := core_run_succ Sys2Proof.core h

/-- A run of one step or more that goes on starts with a step that does. -/
theorem run_succ_next {n : Nat} {s t : State} (h : Host.Core.run Sys2Proof.core (n + 1) s = .next t) :
    ∃ u, step s = .next u ∧ Host.Core.run Sys2Proof.core n u = .next t := core_run_succ_next Sys2Proof.core h

/-- Runs one after the other. -/
theorem run_add {m n : Nat} {s t : State} (h : Host.Core.run Sys2Proof.core m s = .next t) :
    Host.Core.run Sys2Proof.core (m + n) s = Host.Core.run Sys2Proof.core n t := core_run_add Sys2Proof.core h

end Machine

end Sys2Proof
end

