-- ==== Sys2Proof/Laws/Script.lean ====
section
/-! SUPPORT. Runs of several host events: polling a command in progress, and the PUT pseudo-operations of the host script notation. -/

namespace Sys2Proof.Machine

theorem run_one {s t : State} (h : step s = .next t) : Host.Core.run Sys2Proof.core 1 s = .next t := run_succ h

/-- A command leaves the host's events alone and the core idle. -/
theorem host_of_done {i : Instr} {s t : State} (h : exec i s = .next t) : t.pending = s.pending ∧ t.running = none := by
  cases done_of_exec h with
  | tree u n hw ht => subst ht; exact ⟨rfl, rfl⟩
  | text x hi ht => subst ht; exact ⟨rfl, rfl⟩
  | bits x hi ht => subst ht; exact ⟨rfl, rfl⟩
  | syms x hi ht => subst ht; exact ⟨rfl, rfl⟩
  | failed r ht => subst ht; cases i <;> exact ⟨rfl, rfl⟩

/-- A completion without a command in progress. -/
theorem complete_idle {s : State} {rest : List HostEvent} (hr : s.running = none) (hp : s.pending = .complete :: rest) :
    step s = .next { s with pending := rest } := by
  rw [step_idle hr hp]; simp only [idleEvent, finish, hr]

/-- Polling STATUS while a command is in progress (70_reset_and_hazards.md R239). -/
theorem run_polls {i : Instr} (n : Nat) (s : State) (rest : List HostEvent) (hr : s.running = some i)
    (hp : s.pending = List.replicate n (.read .reg 1) ++ rest) :
    ∃ d k, Host.Core.run Sys2Proof.core n s = .next { s with pending := rest, rdata := d, polls := k } ∧
      (n = 0 → d = s.rdata) ∧ (0 < n → ∃ v : Word, d = some v ∧ v.getLsbD 0 = true) := by
  induction n generalizing s with
  | zero => exact ⟨s.rdata, s.polls, by simp at hp; rw [run_zero, ← hp], fun _ => rfl, by omega⟩
  | succ n ih =>
    have hs : step s = .next { s with pending := List.replicate n (.read .reg 1) ++ rest, rdata := some (s.busyStatus i), polls := s.polls + 1 } := by
      rw [step_busy hr (by rw [hp, List.replicate_succ, List.cons_append])]
      simp [busyEvent, State.busyStatus, State.treeValid]
    rw [run_succ hs]
    obtain ⟨d, k, h1, h2, h3⟩ := ih { s with pending := List.replicate n (.read .reg 1) ++ rest, rdata := some (s.busyStatus i), polls := s.polls + 1 } hr rfl
    refine ⟨d, k, h1, by omega, fun _ => ?_⟩
    rcases Nat.eq_zero_or_pos n with h0 | h0
    · refine ⟨_, h2 h0, ?_⟩
      show (mkStatus true _).getLsbD 0 = true
      generalize (if writesTree i = true then _ else _) = b
      cases b <;> rfl
    · exact h3 h0

/-- Reading STATUS while the core is idle. -/
theorem idle_polls (n : Nat) (s : State) (rest : List HostEvent) (hr : s.running = none)
    (hp : s.pending = List.replicate n (.read .reg 1) ++ rest) :
    ∃ d, Host.Core.run Sys2Proof.core n s = .next { s with pending := rest, rdata := d } := by
  induction n generalizing s with
  | zero => exact ⟨s.rdata, by simp at hp; rw [run_zero, ← hp]⟩
  | succ n ih =>
    have hs : step s = .next { s with pending := List.replicate n (.read .reg 1) ++ rest, rdata := some (cellRead s .reg 1) } := by
      rw [step_idle hr (by rw [hp, List.replicate_succ, List.cons_append]), idleEvent_read (by decide)]
      rfl
    rw [run_succ hs]
    obtain ⟨d, h⟩ := ih { s with pending := List.replicate n (.read .reg 1) ++ rest, rdata := some (cellRead s .reg 1) } hr rfl
    exact ⟨d, h⟩

/-- A host write of a register other than CMD (20_memory.md R61). -/
theorem wr_step {s : State} {rest : List HostEvent} (n v : Nat) (hr : s.running = none) (hn : n < 8) (h0 : n ≠ 0) (hv : v < 2 ^ 32)
    (hp : s.pending = .write .reg n v :: rest) : step s = .next (regWrite { s with pending := rest } n (BitVec.ofNat 32 v)) := by
  rw [step_idle hr hp, idleEvent_write hn hv (by simp [h0])]; rfl

theorem ofNat_toNat_map (text : List Byte) : (text.map BitVec.toNat).map (BitVec.ofNat 8) = text := by
  rw [List.map_map]; conv_rhs => rw [← List.map_id text]
  apply List.map_congr_left; intro c _; simp

/-- PUT into SYM (30_encoding.md R107). -/
theorem run_put_sym (vs : List Nat) (i : Nat) (s : State) (rest : List HostEvent) (hr : s.running = none)
    (hp : s.pending = putLines .sym i vs ++ rest) (hv : ∀ v ∈ vs, v < 256) (hi : i + vs.length ≤ 65536) :
    Host.Core.run Sys2Proof.core vs.length s = .next { s with pending := rest, sym := s.sym.writeList i (vs.map (BitVec.ofNat 8)) } := by
  induction vs generalizing i s with
  | nil => simp [putLines] at hp; simp [Memory.writeList, run_zero, ← hp]
  | cons v vs ih =>
    simp only [List.length_cons] at hi ⊢
    have hs : step s = .next { s with pending := putLines .sym (i + 1) vs ++ rest, sym := s.sym.write i (BitVec.ofNat 8 v) } := by
      rw [step_idle hr (by rw [hp]; simp only [putLines, List.zipIdx_cons, List.map_cons, List.cons_append]; rfl),
        idleEvent_write (by simp [Space.cells]; omega) (hv v (by simp)) (by simp)]
      rfl
    rw [run_succ hs, ih (i + 1) { s with pending := putLines .sym (i + 1) vs ++ rest, sym := s.sym.write i (BitVec.ofNat 8 v) } hr rfl (fun x hx => hv x (by simp [hx])) (by omega)]
    rfl

/-- PUT into BIT (30_encoding.md R107). -/
theorem run_put_bit (vs : List Nat) (i : Nat) (s : State) (rest : List HostEvent) (hr : s.running = none)
    (hp : s.pending = putLines .bit i vs ++ rest) (hv : ∀ v ∈ vs, v < 2) (hi : i + vs.length ≤ 1048576) :
    Host.Core.run Sys2Proof.core vs.length s = .next { s with pending := rest, bit := s.bit.writeList i (vs.map (BitVec.ofNat 1)) } := by
  induction vs generalizing i s with
  | nil => simp [putLines] at hp; simp [Memory.writeList, run_zero, ← hp]
  | cons v vs ih =>
    simp only [List.length_cons] at hi ⊢
    have hs : step s = .next { s with pending := putLines .bit (i + 1) vs ++ rest, bit := s.bit.write i (BitVec.ofNat 1 v) } := by
      rw [step_idle hr (by rw [hp]; simp only [putLines, List.zipIdx_cons, List.map_cons, List.cons_append]; rfl),
        idleEvent_write (by simp [Space.cells]; omega) (hv v (by simp)) (by simp)]
      rfl
    rw [run_succ hs, ih (i + 1) { s with pending := putLines .bit (i + 1) vs ++ rest, bit := s.bit.write i (BitVec.ofNat 1 v) } hr rfl (fun x hx => hv x (by simp [hx])) (by omega)]
    rfl

/-- PUT into TBL (30_encoding.md R107). -/
theorem run_put_tbl (vs : List Nat) (i : Nat) (s : State) (rest : List HostEvent) (hr : s.running = none)
    (hp : s.pending = putLines .tbl i vs ++ rest) (hv : ∀ v ∈ vs, v < 256) (hi : i + vs.length ≤ 131072) :
    Host.Core.run Sys2Proof.core vs.length s = .next { s with pending := rest, tbl := s.tbl.writeList i (vs.map (BitVec.ofNat 8)) } := by
  induction vs generalizing i s with
  | nil => simp [putLines] at hp; simp [Memory.writeList, run_zero, ← hp]
  | cons v vs ih =>
    simp only [List.length_cons] at hi ⊢
    have hs : step s = .next { s with pending := putLines .tbl (i + 1) vs ++ rest, tbl := s.tbl.write i (BitVec.ofNat 8 v) } := by
      rw [step_idle hr (by rw [hp]; simp only [putLines, List.zipIdx_cons, List.map_cons, List.cons_append]; rfl),
        idleEvent_write (by simp [Space.cells]; omega) (hv v (by simp)) (by simp)]
      rfl
    rw [run_succ hs, ih (i + 1) { s with pending := putLines .tbl (i + 1) vs ++ rest, tbl := s.tbl.write i (BitVec.ofNat 8 v) } hr rfl (fun x hx => hv x (by simp [hx])) (by omega)]
    rfl

end Sys2Proof.Machine
end

