-- ==== Sys2Proof/Tests/Slice0.lean ====
section
/-! SUPPORT. Tests, with their expected values from 95_test_vectors.md (named by its vector ids) or from the rule cited; smoke tests of
the well-formedness checks; and, for every statement with hypotheses, a witness that meets them. -/

open Sys2Proof Sys2Proof.Machine

namespace Sys2Proof.Tests

/-! ## Small states -/

/-- After reset, with every FREQ cell written. -/
def freqState (f : Nat → Nat) : State :=
  { State.reset with freq := { epoch := 0, cells := (List.range 256).map fun i => (i, BitVec.ofNat 32 (f i)) } }

/-- After reset, with a tree. -/
def treeState (t : OptTree) : State := { State.reset with tree := t, nleaf := BitVec.ofNat 32 t.leafCount }

/-- Does the outcome go on to a state with this property? -/
def after (o : Host.Outcome State Fault Refusal) (p : State → Bool) : Bool :=
  match o with
  | .next t => p t
  | .fault _ => false
  | .refused _ => false

/-- The table of S1. -/
def freqS1 (i : Nat) : Nat :=
  if i = 97 then 5 else if i = 98 then 9 else if i = 99 then 12 else if i = 100 then 13 else if i = 101 then 16
  else if i = 102 then 45 else 0

/-- The tree of S1. -/
def treeS1 : OptTree :=
  .node (.leaf 102) (.node (.node (.leaf 99) (.leaf 100)) (.node (.node (.leaf 97) (.leaf 98)) (.leaf 101)))

/-- The tree of V-B2. -/
def treeB2 : OptTree := .node (.leaf 65) .absent

/-- The tree of V-L25. -/
def treeL25 : OptTree := .node (.node (.leaf 1) .absent) (.leaf 2)

/-- The tree of V-B12, "abracadabra". -/
def treeB12 : OptTree :=
  .node (.leaf 97) (.node (.node (.leaf 99) (.leaf 100)) (.node (.leaf 98) (.leaf 114)))

/-- "01101110100010101101110", V-E7 and V-D12. -/
def bitsE7 : List Bool :=
  [false, true, true, false, true, true, true, false, true, false, false, false, true, false, true, false, true, true,
   false, true, true, true, false]

/-- "abracadabra". -/
def symsE7 : List Nat := [97, 98, 114, 97, 99, 97, 100, 97, 98, 114, 97]

/-! ## The command word (30_encoding.md R81 to R83): words written out bit by bit -/

theorem test_decode_build : decodeTableWord 32 0b00000000000000000000000000000001 = some .build := by decide

theorem test_decode_save : decodeTableWord 32 0b00000000000000000000000000000010 = some .save := by decide

theorem test_decode_load : decodeTableWord 32 0b00000000000000000000000000000011 = some .load := by decide

theorem test_decode_encode : decodeTableWord 32 0b00000000000000000000000000000100 = some .encode := by decide

theorem test_decode_decode : decodeTableWord 32 0b00000000000000000000000000000101 = some .decode := by decide

/-- V-C1, V-C2: OP 0 and OP 6. -/
theorem test_reject_op : decodeCmd 0x00000000 = .error (.reservedOp 0) ∧ decodeCmd 0x00000006 = .error (.reservedOp 6) := by decide

/-- V-C3, V-C4: a bit of 31:8 is set. -/
theorem test_reject_reserved : decodeCmd 0x00000101 = .error .reservedBits ∧ decodeCmd 0x80000001 = .error .reservedBits := by decide

/-! ## Well-formedness (00_scope.md R6, 20_memory.md R59, R62): each check refuses -/

theorem test_wf_params : Config.params.wf = true := by decide

/-- R50: the widths in the types of the memories are those of the record of parameters (log 1). -/
theorem test_cell_widths : [Space.reg, .freq, .sym, .bit, .tbl].map Space.width = [32, 32, 8, 1, 8] := by decide

theorem test_wf_alphabet : { Config.params with alphabet := 1, codeLenMax := 255 }.wf = false ∧
    { Config.params with alphabet := 257, codeLenMax := 256 }.wf = false := by decide

theorem test_wf_widths : { Config.params with symBits := 33 }.wf = false ∧ { Config.params with freqBits := 0 }.wf = false ∧
    { Config.params with freqBits := 33 }.wf = false ∧ { Config.params with codeLenMax := 254 }.wf = false := by decide

theorem test_wf_capacities : { Config.params with symCap := 0 }.wf = false ∧ { Config.params with symCap := 2 ^ 32 }.wf = false ∧
    { Config.params with bitCap := 0 }.wf = false ∧ { Config.params with bitCap := 2 ^ 32 }.wf = false ∧
    { Config.params with tblCap := 0 }.wf = false ∧ { Config.params with tblCap := 2 ^ 32 }.wf = false := by decide

theorem test_wf_index : (HostEvent.read .reg 8).wf = false ∧ (HostEvent.read .freq 256).wf = false ∧
    (HostEvent.read .sym 65536).wf = false ∧ (HostEvent.write .bit 1048576 0).wf = false ∧
    (HostEvent.write .tbl 131072 0).wf = false := by decide

theorem test_wf_value : (HostEvent.write .reg 4 (2 ^ 32)).wf = false ∧ (HostEvent.write .freq 0 (2 ^ 32)).wf = false ∧
    (HostEvent.write .sym 0 256).wf = false ∧ (HostEvent.write .bit 0 2).wf = false ∧
    (HostEvent.write .tbl 0 256).wf = false ∧ (HostEvent.start (2 ^ 32)).wf = false := by decide

/-! ## Each command placed by `withFetchWord` as the first after reset -/

theorem test_fetch_build : after (step (State.reset.withFetchWord 32 1)) (fun _ => true) = true := rfl

/-- V-C10. -/
theorem test_fetch_save : after (step (State.reset.withFetchWord 32 2)) (fun t => t.err == 6 && t.tblLen == 0) = true := by decide

/-- V-C11. -/
theorem test_fetch_load : after (step (State.reset.withFetchWord 32 3)) (fun t => t.err == 0x602 && t.errpos == 0) = true := by
  decide

/-- R232: NoTree also with the length 0. -/
theorem test_fetch_encode : after (step (State.reset.withFetchWord 32 4)) (fun t => t.err == 6) = true := by decide

theorem test_fetch_decode : after (step (State.reset.withFetchWord 32 5)) (fun t => t.err == 6) = true := by decide

/-! ## The commands -/

/-- S1. -/
theorem test_build_S1 : after (exec .build (freqState freqS1)) (fun t => t.tree == treeS1 && t.nleaf == 6) = true := by
  decide +kernel

/-- V-B12, with ties. -/
theorem test_build_V_B12 :
    (buildTree 256 ((List.range 256).map fun i =>
      if i = 97 then 5 else if i = 98 then 2 else if i = 99 then 1 else if i = 100 then 1 else if i = 114 then 2 else 0)) =
      .ok (treeB12, 5) := by
  decide +kernel

/-- V-S3: the 45 bytes. -/
theorem test_save_V_S3 :
    after (exec .save (treeState treeS1)) (fun t => t.tblLen == 45 && tblInput t ==
      [0x31, 0x30, 0x32, 0x0A, 0x30, 0x0A, 0x39, 0x39, 0x0A, 0x31, 0x30, 0x30, 0x0A, 0x31, 0x30, 0x30, 0x0A, 0x31, 0x30, 0x31,
       0x0A, 0x39, 0x37, 0x0A, 0x31, 0x31, 0x30, 0x30, 0x0A, 0x39, 0x38, 0x0A, 0x31, 0x31, 0x30, 0x31, 0x0A, 0x31, 0x30, 0x31,
       0x0A, 0x31, 0x31, 0x31, 0x0A]) = true := by
  decide +kernel

/-- V-L29: "4294967361\n0\n" does not wrap to 65. -/
theorem test_load_V_L29 :
    after (exec .load (putText State.reset [0x34, 0x32, 0x39, 0x34, 0x39, 0x36, 0x37, 0x33, 0x36, 0x31, 0x0A, 0x30, 0x0A]))
      (fun t => t.err == 0x102 && t.errpos == 0 && t.tree == .absent) = true := by
  decide +kernel

/-- V-L16: "65\n01\n66\n0\n", a code that is a prefix of an earlier one. -/
theorem test_load_V_L16 :
    after (exec .load (putText State.reset [0x36, 0x35, 0x0A, 0x30, 0x31, 0x0A, 0x36, 0x36, 0x0A, 0x30, 0x0A]))
      (fun t => t.err == 0x502 && t.errpos == 1 && t.nleaf == 0) = true := by
  decide +kernel

/-- V-E7. -/
theorem test_encode_V_E7 :
    after (exec .encode (putSyms (treeState treeB12) symsE7)) (fun t => t.bitLen == 23 && bitInput t == bitsE7) = true := by
  decide +kernel

/-- V-E3: 103 has no leaf. -/
theorem test_encode_V_E3 :
    after (exec .encode (putSyms (treeState treeS1) [102, 103])) (fun t => t.err == 3 && t.errpos == 1 && t.bitLen == 0) = true := by
  decide +kernel

/-- V-D12. -/
theorem test_decode_V_D12 :
    after (exec .decode (putBits (treeState treeB12) bitsE7)) (fun t => t.symLen == 11 && symInput t == symsE7) = true := by
  decide +kernel

/-- V-D9: under the tree of V-L25 "01" meets a missing child at bit 1. -/
theorem test_decode_V_D9 :
    after (exec .decode (putBits (treeState treeL25) [false, true])) (fun t => t.err == 5 && t.errpos == 1 && t.symLen == 0) = true := by
  decide +kernel

/-- R174, as V-E11 at a smaller size: 24 codes of one bit, 23 cells; the last code does not fit. -/
theorem test_encode_capacity :
    encodeLoop 23 (.node (.leaf 0) (.leaf 1)) (List.replicate 24 0) 0 0 = .error { failure := .outputFull, pos := 23 } := by decide

/-! ## Witnesses: states and operands that meet the hypotheses of the statements -/

theorem lookupCell_map {w : Nat} (g : Nat → BitVec w) {l : List Nat} {a : Nat} (h : a ∈ l) :
    lookupCell (l.map fun i => (i, g i)) a = some (g a) := by
  induction l with
  | nil => cases h
  | cons x l ih =>
    rw [List.map_cons, lookupCell]
    by_cases hx : x = a
    · rw [if_pos hx, hx]
    · rw [if_neg hx]
      exact ih ((List.mem_cons.mp h).resolve_left (Ne.symm hx))

theorem read_freqState (f : Nat → Nat) {a : Nat} (h : a < 256) : (freqState f).freq.read .freq a = BitVec.ofNat 32 (f a) := by
  simp only [freqState, Memory.read, Memory.known, lookupCell_map (fun i => BitVec.ofNat 32 (f i)) (List.mem_range.mpr h),
    Option.getD_some]

theorem exec_next (i : Instr) (s : State) : ∃ t, exec i s = .next t := (exec_done i s).imp fun _ h => h.1

theorem inv_treeState {t : OptTree} (h : ValidTree t) : Inv (treeState t) where
  freqWf := Memory.wf_unwritten
  symWf := Memory.wf_unwritten
  bitWf := Memory.wf_unwritten
  tblWf := Memory.wf_unwritten
  freqIn := Memory.within_unwritten _
  symIn := Memory.within_unwritten _
  bitIn := Memory.within_unwritten _
  tblIn := Memory.within_unwritten _
  tree := .inr h
  nleaf := ofNat_leafCount h
  err := .inl ⟨rfl, rfl⟩

theorem valid_treeS1 : ValidTree treeS1 := by decide

theorem valid_treeB2 : ValidTree treeB2 := by decide

theorem valid_treeL25 : ValidTree treeL25 := by decide

/-- A tree of one leaf at depth 255 (V-L22). -/
def chain : Nat → OptTree
  | 0 => .leaf 1
  | n + 1 => .node (chain n) .absent

theorem codeOf_chain (n : Nat) : (chain n).pairs = [(1, List.replicate n false)] := by
  induction n with
  | zero => rfl
  | succ n ih => rw [chain, OptTree.pairs_node, ih, OptTree.pairs_absent]; rfl

theorem symLen_putSyms (s : State) {x : List Nat} (h : x.length < 2 ^ 32) : (putSyms s x).symLen.toNat = x.length := by
  rw [putSyms_symLen, BitVec.toNat_ofNat, Nat.mod_eq_of_lt h]

theorem bitLen_putBits (s : State) {x : List Bool} (h : x.length < 2 ^ 32) : (putBits s x).bitLen.toNat = x.length := by
  rw [putBits_bitLen, BitVec.toNat_ofNat, Nat.mod_eq_of_lt h]

/-! ### Reset, registers and memories -/

/-- The reset event, while the core is idle and while a command is in progress. -/
theorem witness_ResetEventGivesTheResetState :
    ({ treeState treeS1 with pending := [.reset] } : State).pending = .reset :: [] ∧
    ({ treeState treeS1 with pending := [.reset], running := some .build } : State).pending = .reset :: [] := ⟨rfl, rfl⟩

theorem witness_HostReadOfRegister :
    ({ State.reset with pending := [.read .reg 0] } : State).pending = .read .reg 0 :: [] ∧
    ({ treeState treeS1 with pending := [.read .reg 7] } : State).pending = .read .reg 7 :: [] ∧
    (treeState treeS1).running = none ∧ Inv (treeState treeS1) := ⟨rfl, rfl, rfl, inv_treeState valid_treeS1⟩

theorem witness_HostWriteOfRegister :
    ({ State.reset with pending := [.write .reg 0 1] } : State).pending = .write .reg 0 1 :: [] ∧
    ({ State.reset with pending := [.write .reg 7 0xFFFFFFFF] } : State).pending = .write .reg 7 0xFFFFFFFF :: [] ∧
    State.reset.running = none ∧ 0xFFFFFFFF < 2 ^ 32 := by decide

/-- The last cell of each memory, written; and a known value. -/
theorem witness_HostReadOfCell :
    (255 < Space.freq.cells ∧ (freqState fun i => i).freq.known 255 = some 255) ∧
    (65535 < Space.sym.cells ∧ (State.reset.sym.write 65535 255).known 65535 = some 255) ∧
    (1048575 < Space.bit.cells ∧ (State.reset.bit.write 1048575 1).known 1048575 = some 1) ∧
    (131071 < Space.tbl.cells ∧ (State.reset.tbl.write 131071 10).known 131071 = some 10) ∧
    ({ State.reset with pending := [.read .tbl 131071] } : State).pending = .read .tbl 131071 :: [] := by
  refine ⟨⟨by decide, ?_⟩, ⟨by decide, by decide⟩, ⟨by decide, by decide⟩, ⟨by decide, by decide⟩, rfl⟩
  exact lookupCell_map (fun i => BitVec.ofNat 32 i) (List.mem_range.mpr (by decide))

theorem witness_HostWriteOfCell :
    255 < Space.freq.cells ∧ 2 ^ 32 - 1 < 2 ^ Space.freq.width ∧ 65535 < Space.sym.cells ∧ 255 < 2 ^ Space.sym.width ∧
    1048575 < Space.bit.cells ∧ 1 < 2 ^ Space.bit.width ∧ 131071 < Space.tbl.cells ∧ 255 < 2 ^ Space.tbl.width ∧
    ({ State.reset with pending := [.write .bit 1048575 1] } : State).pending = .write .bit 1048575 1 :: [] ∧
    State.reset.running = none := by decide

/-- The first index outside, the first value too wide, and another register than STATUS while BUSY is 1. -/
theorem witness_StepGoesOnIffHostObeys :
    Space.reg.cells ≤ 8 ∧ ({ State.reset with pending := [.read .reg 8] } : State).pending = .read .reg 8 :: [] ∧
    0 < Space.sym.cells ∧ 2 ^ Space.sym.width ≤ 256 ∧
    ({ State.reset with pending := [.write .sym 0 256] } : State).pending = .write .sym 0 256 :: [] ∧
    ({ State.reset with running := some .save, pending := [.read .reg 2] } : State).running ≠ none ∧
    (2 ^ 32 ≤ 2 ^ 32 ∧ ({ State.reset with pending := [.start (2 ^ 32)] } : State).pending = .start (2 ^ 32) :: []) ∧
    (HostEvent.read .reg 2).allowed true = false ∧ (HostEvent.read .reg 1).allowed true = true := by decide

/-! ### The command word -/

theorem witness_CommandWordRoundTrip : decodeCmd 0x00000005 = .ok .decode := by decide

theorem witness_IllegalCommandOnlyReports :
    (0x00000006 : Word) ≠ 1 ∧ (0x00000006 : Word) ≠ 5 ∧ (2 ^ 32 - 1 < 2 ^ 32 ∧ 6 ≤ 2 ^ 32 - 1) ∧ State.reset.running = none ∧
    ({ State.reset with pending := [.write .reg 0 0] } : State).pending = .write .reg 0 0 :: [] := by decide

theorem witness_StepRunsTheIssuedCommand :
    ({ State.reset with pending := [.write .reg 0 5] } : State).pending = .write .reg 0 5 :: [] ∧ State.reset.running = none ∧
    decodeCmd (BitVec.ofNat 32 5) = .ok .decode ∧ decodeTableWord 32 1 = some .build := by decide

/-! ### BUILD -/

/-- Only the last symbol occurs. -/
theorem witness_BuildSucceeds : (freqState fun i => if i = 255 then 1 else 0).freq.read .freq 255 ≠ 0 := by
  rw [read_freqState _ (by decide)]; decide

theorem witness_BuildOfZerosFails : ∀ a, a < 256 → (freqState fun _ => 0).freq.read .freq a = 0 := fun _ h =>
  read_freqState _ h

theorem witness_BuildOfSingleSymbol :
    (freqState fun i => if i = 65 then 7 else 0).freq.read .freq 65 ≠ 0 ∧
    ∀ b, b < 256 → b ≠ 65 → (freqState fun i => if i = 65 then 7 else 0).freq.read .freq b = 0 :=
  ⟨by rw [read_freqState _ (by decide)]; decide, fun b hb hne => by rw [read_freqState _ hb, if_neg hne]; rfl⟩

/-- A table of two symbols, the first and the last (used for several statements). -/
def freqTwo (i : Nat) : Nat := if i = 0 then 3 else if i = 255 then 2 else 0

/-- Two symbols, the higher one with the lower frequency; and the other way round. -/
theorem witness_BuildOfTwoSymbols :
    (freqState freqTwo).freq.read .freq 0 ≠ 0 ∧ (freqState freqTwo).freq.read .freq 255 ≠ 0 ∧
    (∀ c, c < 256 → c ≠ 0 → c ≠ 255 → (freqState freqTwo).freq.read .freq c = 0) ∧
    (freqState fun i => if i = 10 ∨ i = 20 then 3 else 0).freq.read .freq 10 ≠ 0 ∧
    (freqState fun i => if i = 10 ∨ i = 20 then 3 else 0).freq.read .freq 20 ≠ 0 ∧
    ∀ c, c < 256 → c ≠ 10 → c ≠ 20 → (freqState fun i => if i = 10 ∨ i = 20 then 3 else 0).freq.read .freq c = 0 := by
  refine ⟨?_, ?_, ?_, ?_, ?_, ?_⟩
  · rw [read_freqState _ (by decide)]; decide
  · rw [read_freqState _ (by decide)]; decide
  · intro c hc h0 h1
    rw [read_freqState _ hc, freqTwo, if_neg h0, if_neg h1]; rfl
  · rw [read_freqState _ (by decide)]; decide
  · rw [read_freqState _ (by decide)]; decide
  · intro c hc h0 h1
    rw [read_freqState _ hc, if_neg (by omega)]; rfl

theorem witness_BuildOfManyIsFull :
    ∃ t, (freqState freqTwo).freq.read .freq 0 ≠ 0 ∧ (freqState freqTwo).freq.read .freq 255 ≠ 0 ∧
      exec .build (freqState freqTwo) = .next t :=
  (exec_next _ _).imp fun _ h => ⟨witness_BuildOfTwoSymbols.1, witness_BuildOfTwoSymbols.2.1, h⟩

/-- A BUILD that succeeds, as the hypotheses of several statements ask for. -/
theorem build_freqTwo : ∃ t, exec .build (freqState freqTwo) = .next t ∧ t.err = 0 := by
  have h := two_le_present (s := freqState freqTwo) (by decide) (by decide) witness_BuildOfTwoSymbols.1
    witness_BuildOfTwoSymbols.2.1
  obtain ⟨u, hu, -⟩ := buildTree_two (A := 256) h
  exact ⟨_, exec_build_ok hu, rfl⟩

/-- A prefix code for the two symbols: 0 for the symbol 0, and 10 for every other. -/
theorem witness_BuildIsOptimal :
    (∃ t, exec .build (freqState freqTwo) = .next t ∧ t.err = 0) ∧
    (∀ a b, a < 256 → b < 256 → (freqState freqTwo).freq.read .freq a ≠ 0 → (freqState freqTwo).freq.read .freq b ≠ 0 →
      a ≠ b → ¬ (if a = 0 then [false] else [true, false]) <+: (if b = 0 then [false] else [true, false])) ∧
    ∀ a, a < 256 → (freqState freqTwo).freq.read .freq a ≠ 0 → (if a = 0 then [false] else [true, false]) ≠ [] := by
  refine ⟨build_freqTwo, ?_, ?_⟩
  · intro a b ha hb hfa hfb hab
    have h := witness_BuildOfTwoSymbols.2.2.1
    have h1 : a = 0 ∨ a = 255 := by
      by_contra hn; simp only [not_or] at hn; exact hfa (h a ha hn.1 hn.2)
    have h2 : b = 0 ∨ b = 255 := by
      by_contra hn; simp only [not_or] at hn; exact hfb (h b hb hn.1 hn.2)
    rcases h1 with rfl | rfl <;> rcases h2 with rfl | rfl <;> first | exact absurd rfl hab | decide
  · intro a _ _; split <;> simp

theorem witness_BuildCostIsInternalSum : ∃ t, exec .build (freqState freqTwo) = .next t ∧ t.err = 0 := build_freqTwo

/-- Two states that differ in everything BUILD does not read. -/
theorem witness_BuildDependsOnFreqOnly :
    (∀ a, a < 256 → (freqState freqTwo).freq.read .freq a = { treeState treeS1 with freq := (freqState freqTwo).freq }.freq.read .freq a) ∧
    (∃ t, exec .build (freqState freqTwo) = .next t) ∧
    ∃ t, exec .build { treeState treeS1 with freq := (freqState freqTwo).freq } = .next t :=
  ⟨fun _ _ => rfl, exec_next _ _, exec_next _ _⟩

theorem witness_BuildOfEqualFrequencies :
    (0xFFFFFFFF : Word) ≠ 0 ∧ (∀ a, a < 256 → (freqState fun _ => 0xFFFFFFFF).freq.read .freq a = 0xFFFFFFFF) ∧
    ∀ a, a < 256 → (freqState fun _ => 1).freq.read .freq a = 1 :=
  ⟨by decide, fun _ h => read_freqState _ h, fun _ h => read_freqState _ h⟩

/-- Two items of equal frequency and a permutation. -/
theorem witness_QueueRemovesTheLeast :
    removeMin [⟨2, 256, .absent⟩, ⟨2, 2, .leaf 2⟩] = some (⟨2, 2, .leaf 2⟩, [⟨2, 256, .absent⟩]) ∧
    (([⟨2, 256, .absent⟩, ⟨2, 2, .leaf 2⟩] : List Item).map Item.seq).Nodup ∧
    ([⟨2, 256, .absent⟩, ⟨2, 2, .leaf 2⟩] : List Item).Perm [⟨2, 2, .leaf 2⟩, ⟨2, 256, .absent⟩] ∧
    ∀ x ∈ ([⟨2, 256, .absent⟩, ⟨2, 2, .leaf 2⟩] : List Item), x.seq < 257 := by decide

theorem witness_TreeWritersFrame :
    (∃ t, exec .build (treeState treeS1) = .next t) ∧ ∃ t, exec .load (treeState treeS1) = .next t := ⟨exec_next _ _, exec_next _ _⟩

/-! ### SAVE -/

/-- A SAVE that succeeds, and one that fails. -/
theorem witness_SaveWritesTheTable :
    (Inv (treeState treeS1) ∧ (treeState treeS1).tree ≠ .absent) ∧ (∃ t, exec .save (treeState treeS1) = .next t ∧ t.err = 0) ∧
    ∃ t, exec .save State.reset = .next t ∧ t.err ≠ 0 :=
  ⟨⟨inv_treeState valid_treeS1, by decide⟩, ⟨_, exec_save_ok (saveTree_of_valid valid_treeS1), rfl⟩,
    ⟨_, exec_save_error (r := ⟨.noTree, 0⟩) rfl, errWord_ne_zero _⟩⟩

theorem witness_NoTreeComesFirst : State.reset.tree = .absent := rfl

/-- The text of V-S2 has 5 bytes: the capacity 5 holds it, the capacity 4 does not. -/
theorem witness_SaveFailsAtFirstPairThatDoesNotFit :
    treeB2 ≠ .absent ∧ (fmt treeB2.pairs).length ≤ 5 ∧ 4 < (fmt treeB2.pairs).length ∧ ValidTree treeB2 := by decide

/-! ### The table text and LOAD -/

theorem witness_DecimalIsShortest :
    0 < 65 ∧ ([0x30, 0x36, 0x35] : List Byte) ≠ [] ∧ (∀ c ∈ ([0x30, 0x36, 0x35] : List Byte), 0x30 ≤ c.toNat ∧ c.toNat ≤ 0x39) ∧
    Nat.ofDigits 10 (([0x30, 0x36, 0x35] : List Byte).map fun c => c.toNat - 0x30).reverse = 65 := by decide

/-- A code line of 255 characters and one of 256, and one with another character. -/
theorem witness_EntriesAndCodeLines :
    (List.replicate 255 (0x30 : Byte)).length ≤ 255 ∧ 255 < (List.replicate 256 (0x30 : Byte)).length ∧
    (∀ c ∈ List.replicate 256 (0x30 : Byte), c = 0x30 ∨ c = 0x31) ∧
    (∃ c ∈ ([0x30, 0x32] : List Byte), c ≠ 0x30 ∧ c ≠ 0x31) ∧ 0 < ([[]] : List (List Byte)).length := by
  refine ⟨Nat.le_of_eq List.length_replicate, by rw [List.length_replicate]; decide, fun c hc => .inl (List.eq_of_mem_replicate hc), by decide, by decide⟩

/-- The greatest symbol with the longest code. -/
theorem witness_FormatRoundTrip :
    ∀ e ∈ [(255, List.replicate 255 true), (0, [false])], e.1 < 256 ∧ e.2 ≠ [] ∧ e.2.length ≤ 255 := by
  intro e he
  simp only [List.mem_cons, List.not_mem_nil, or_false] at he
  rcases he with rfl | rfl
  · exact ⟨by decide, by rw [List.replicate_succ]; exact List.cons_ne_nil _ _, Nat.le_of_eq List.length_replicate⟩
  · decide

/-- An insertion that conflicts and one that does not. -/
theorem witness_InsertionConflictsOnPrefixes :
    treeL25.isNode = true ∧ (∀ b, (treeL25.child b).noBareNode = true) ∧ [true] ≠ [] ∧ insertPath 3 [true] treeL25 = none ∧
    insertPath 3 [false, true] treeL25 = some (.node (.node (.leaf 1) (.leaf 3)) (.leaf 2)) := by decide

/-- "65\n0\n66\n01\n" (V-L15). -/
def textL15 : List Byte := [0x36, 0x35, 0x0A, 0x30, 0x0A, 0x36, 0x36, 0x0A, 0x30, 0x31, 0x0A]

theorem tblInput_textL15 : tblInput (putText State.reset textL15) = textL15 := tblInput_putText (by decide)

/-- Each of the six checks, and the second entry of V-L15 as the first that fails. -/
theorem witness_LoadReportsFirstFailingEntry :
    parseSym 256 [] = none ∧ parseSym 256 [0x36, 0x35] = some 65 ∧
    (∃ c ∈ ([0x30, 0x32] : List Byte), c ≠ 0x30 ∧ c ≠ 0x31) ∧ 255 < (List.replicate 256 (0x30 : Byte)).length ∧ 65 ∈ [65] ∧
    65 ∉ ([] : List Nat) ∧ insertPath 66 ([0x30, 0x31].map fun c : Byte => decide (c = 0x31)) treeB2 = none ∧
    (insertPath 65 ([0x30].map fun c : Byte => decide (c = 0x31)) (.node .absent .absent)) = some treeB2 ∧
    (putText State.reset textL15).tblLen.toNat ≤ 131072 ∧
    entries (tblInput (putText State.reset textL15)) =
      [([0x36, 0x35], some [0x30])] ++ ([0x36, 0x36], some [0x30, 0x31]) :: [] ∧
    loadLoop 256 255 [([0x36, 0x35], some [0x30])] 0 (.node .absent .absent) [] = .ok treeB2 ∧
    loadEntry 256 255 ([0x36, 0x36], some [0x30, 0x31]) treeB2 treeB2.symbols = .error .pathConflict := by
  rw [tblInput_textL15]
  refine ⟨by decide, by decide, by decide, by rw [List.length_replicate]; decide, by decide, by decide, by decide, by decide, by decide, by decide, by decide,
    by decide⟩

/-- "66\n1\n65\n0\n" (V-L24) and the same entries in the other order. -/
def textL24 : List Byte := [0x36, 0x36, 0x0A, 0x31, 0x0A, 0x36, 0x35, 0x0A, 0x30, 0x0A]

def textS8 : List Byte := [0x36, 0x35, 0x0A, 0x30, 0x0A, 0x36, 0x36, 0x0A, 0x31, 0x0A]

theorem witness_LoadAcceptsEveryPrefixCode :
    (putText State.reset textL24).tblLen.toNat ≤ 131072 ∧ [(66, [true]), (65, [false])] ≠ [] ∧
    (entries (tblInput (putText State.reset textL24))).map readEntry =
      [(66, [true]), (65, [false])].map (fun e => (some e.1, .ok e.2)) ∧
    (∀ e ∈ [(66, [true]), (65, [false])], e.1 < 256 ∧ e.2 ≠ [] ∧ e.2.length ≤ 255) ∧
    ([(66, [true]), (65, [false])].map Prod.fst).Nodup ∧
    [(66, [true]), (65, [false])].Pairwise (fun x y => ¬ x.2 <+: y.2 ∧ ¬ y.2 <+: x.2) := by
  rw [tblInput_putText (by decide)]
  refine ⟨by decide, by decide, by rfl, by decide, by decide, by decide⟩

theorem load_of_text {x : List Byte} {t : OptTree} {n : Nat} (hx : x.length ≤ 131072) (h : loadTable 256 255 x = .ok (t, n)) :
    ∃ u, exec .load (putText State.reset x) = .next u ∧ u.err = 0 := by
  have hi : loadInput (putText State.reset x) = .ok (t, n) := by
    have hl : (putText State.reset x).tblLen.toNat = x.length := by
      rw [putText_tblLen, BitVec.toNat_ofNat, Nat.mod_eq_of_lt (by omega)]
    rw [loadInput, hl, if_neg (by simpa using hx), tblInput_putText (by omega)]
    exact h
  exact ⟨_, exec_load_ok hi, rfl⟩

theorem witness_LoadedTreeIsTheTable :
    (∃ t, exec .load (putText State.reset textL24) = .next t ∧ t.err = 0) ∧
    (∃ t, exec .load (putText State.reset textS8) = .next t ∧ t.err = 0) ∧
    ((entries (tblInput (putText State.reset textL24))).map fun e => (parseSym 256 e.1, (parseCode 255 e.2).toOption)).Perm
      ((entries (tblInput (putText State.reset textS8))).map fun e => (parseSym 256 e.1, (parseCode 255 e.2).toOption)) := by
  refine ⟨load_of_text (t := .node (.leaf 65) (.leaf 66)) (n := 2) (by decide) (by rfl),
    load_of_text (t := .node (.leaf 65) (.leaf 66)) (n := 2) (by decide) (by rfl), ?_⟩
  rw [tblInput_putText (by decide), tblInput_putText (by decide)]
  decide

theorem witness_LoadLengthChecks :
    131072 < ({ State.reset with tblLen := 131073 } : State).tblLen.toNat ∧ State.reset.tblLen = 0 := by decide

theorem witness_SaveThenLoadRestoresTheTree : Inv (treeState treeL25) ∧ (treeState treeL25).tree ≠ .absent :=
  ⟨inv_treeState valid_treeL25, by decide⟩

/-! ### ENCODE -/

/-- The greatest input, 65536 symbols, under the tree of V-B2. -/
def symState (k : Nat) : State := putSyms (treeState treeB2) (List.replicate k 65)

theorem symInput_symState {k : Nat} (h : k ≤ 65536) : symInput (symState k) = List.replicate k 65 :=
  symInput_putSyms (by simp; omega) fun a ha => by rw [List.eq_of_mem_replicate ha]; decide

theorem codes_treeB2 (k : Nat) : treeB2.codes (List.replicate k 65) = List.replicate k false := by
  induction k with
  | zero => rfl
  | succ k ih => rw [List.replicate_succ, OptTree.codes_cons, ih]; rfl

theorem encodable (k : Nat) (h : k ≤ 65536) :
    (symState k).tree ≠ .absent ∧ (symState k).symLen.toNat ≤ 65536 ∧
    (∀ a ∈ symInput (symState k), (symState k).tree.codeOf a ≠ none) ∧
    ((symState k).tree.codes (symInput (symState k))).length ≤ 1048576 := by
  rw [symInput_symState h]
  refine ⟨?_, ?_, ?_, ?_⟩
  · show treeB2 ≠ .absent; decide
  · rw [symState, symLen_putSyms _ (by simp; omega)]; simpa using h
  · intro a ha; rw [List.eq_of_mem_replicate ha]; show treeB2.codeOf 65 ≠ none; decide
  · show (treeB2.codes _).length ≤ _
    rw [codes_treeB2]; simp; omega

theorem witness_EncodeWritesTheCodes :
    ((symState 65536).tree ≠ .absent ∧ (symState 65536).symLen.toNat ≤ 65536 ∧
      (∀ a ∈ symInput (symState 65536), (symState 65536).tree.codeOf a ≠ none) ∧
      ((symState 65536).tree.codes (symInput (symState 65536))).length ≤ 1048576) ∧
    (∃ t, exec .encode (symState 65536) = .next t ∧ t.err = 0) ∧ ∃ t, exec .encode State.reset = .next t ∧ t.err ≠ 0 := by
  have h := encodable 65536 (le_refl _)
  exact ⟨h, ⟨_, exec_encode_ok (encodeInput_codes h.1 h.2.1 h.2.2.1 h.2.2.2), rfl⟩,
    ⟨_, exec_encode_error (r := ⟨.noTree, 0⟩) rfl, errWord_ne_zero _⟩⟩

/-- No tree; a length of 65537; V-E5; and 4113 codes of 255 bits, of which 4112 fit in 1048576 cells. -/
theorem witness_EncodeChecksInOrder :
    State.reset.tree = .absent ∧
    ((treeState treeB2).tree ≠ .absent ∧ 65536 < ({ treeState treeB2 with symLen := 65537 } : State).symLen.toNat) ∧
    (symInput (putSyms (treeState treeB2) [65, 66]) = [65] ++ 66 :: [] ∧ (∀ b ∈ [65], treeB2.codeOf b ≠ none) ∧
      (treeB2.codes [65]).length ≤ 1048576 ∧ treeB2.codeOf 66 = none) ∧
    (symInput (putSyms (treeState (chain 255)) (List.replicate 4113 1)) = List.replicate 4112 1 ++ 1 :: [] ∧
      (∀ b ∈ List.replicate 4112 1, (chain 255).codeOf b ≠ none) ∧ ((chain 255).codes (List.replicate 4112 1)).length ≤ 1048576 ∧
      (chain 255).codeOf 1 = some (List.replicate 255 false) ∧
      1048576 < ((chain 255).codes (List.replicate 4112 1)).length + (List.replicate 255 false).length) := by
  have hc : (chain 255).codeOf 1 = some (List.replicate 255 false) := by
    rw [OptTree.codeOf, codeOf_chain]; rfl
  have hl : ((chain 255).codes (List.replicate 4112 1)).length = 4112 * 255 := by
    rw [OptTree.length_codes, List.map_replicate, List.sum_replicate, hc, Option.getD_some, List.length_replicate, smul_eq_mul]
  refine ⟨rfl, ⟨by decide, by decide⟩, ⟨?_, by decide, by decide, by decide⟩, ?_, ?_, ?_, hc, ?_⟩
  · exact symInput_putSyms (by decide) (by decide)
  · rw [symInput_putSyms (by rw [List.length_replicate]; decide) (fun a ha => by rw [List.eq_of_mem_replicate ha]; decide)]
    exact List.replicate_succ' ..
  · intro b hb; rw [List.eq_of_mem_replicate hb, hc]; exact Option.some_ne_none _
  · rw [hl]; decide
  · rw [hl, List.length_replicate]; decide

theorem witness_EncodedLengthIsWeightedSum :
    Inv (treeState treeS1) ∧ ∃ t, exec .encode (treeState treeS1) = .next t ∧ t.err = 0 :=
  ⟨inv_treeState valid_treeS1, ⟨_, exec_encode_ok (x := []) rfl, rfl⟩⟩

theorem witness_OutputWritersFrame :
    (∃ t, exec .save (treeState treeS1) = .next t ∧ t.err = 0) ∧ (∃ t, exec .encode (treeState treeS1) = .next t ∧ t.err = 0) ∧
    ∃ t, exec .decode (treeState treeS1) = .next t ∧ t.err = 0 :=
  ⟨⟨_, exec_save_ok (saveTree_of_valid valid_treeS1), rfl⟩, ⟨_, exec_encode_ok (x := []) rfl, rfl⟩,
    ⟨_, exec_decode_ok (x := []) rfl, rfl⟩⟩

/-! ### DECODE -/

/-- `k` zeros under the tree of V-B2, then `rest`. -/
def bitState (k : Nat) (rest : List Bool) : State := putBits (treeState treeB2) (List.replicate k false ++ rest)

theorem bitInput_bitState {k : Nat} {rest : List Bool} (h : k + rest.length < 2 ^ 32) :
    bitInput (bitState k rest) = List.replicate k false ++ rest := bitInput_putBits (by simpa using h)

theorem bitLen_bitState {k : Nat} {rest : List Bool} (h : k + rest.length < 2 ^ 32) :
    (bitState k rest).bitLen.toNat = k + rest.length := by
  rw [bitState, bitLen_putBits _ (by simpa using h)]; simp

/-- 65536 symbols, as many as SYM holds; a success; a failure. -/
theorem witness_DecodeWritesTheSymbols :
    (ValidTree (bitState 65536 []).tree ∧ (bitState 65536 []).bitLen.toNat ≤ 1048576 ∧
      (∀ a ∈ List.replicate 65536 65, a ∈ (bitState 65536 []).tree.symbols) ∧ (List.replicate 65536 65).length ≤ 65536 ∧
      bitInput (bitState 65536 []) = (bitState 65536 []).tree.codes (List.replicate 65536 65)) ∧
    (∃ t, exec .decode (bitState 65536 []) = .next t ∧ t.err = 0) ∧ ∃ t, exec .decode State.reset = .next t ∧ t.err ≠ 0 := by
  have hl : (bitState 65536 []).bitLen.toNat ≤ 1048576 := by rw [bitLen_bitState (by simp)]; simp
  have hm : ∀ a ∈ List.replicate 65536 65, a ∈ (bitState 65536 []).tree.symbols := by
    intro a ha; rw [List.eq_of_mem_replicate ha]; decide
  have hb : bitInput (bitState 65536 []) = (bitState 65536 []).tree.codes (List.replicate 65536 65) := by
    rw [bitInput_bitState (by simp), List.append_nil]; exact (codes_treeB2 _).symm
  have hc : (List.replicate 65536 65).length ≤ 65536 := by rw [List.length_replicate]
  exact ⟨⟨valid_treeB2, hl, hm, hc, hb⟩, ⟨_, exec_decode_ok (decode_ok valid_treeB2 hl hm hc hb), rfl⟩,
    ⟨_, exec_decode_error (r := ⟨.noTree, 0⟩) rfl, errWord_ne_zero _⟩⟩

/-- V-D6, "001": two symbols, then a bit with no child; V-D9, one level below the root; and a full tree. -/
theorem witness_DecodeMalformedStream :
    (ValidTree treeB2 ∧ (bitState 2 [true]).bitLen.toNat ≤ 1048576 ∧ (∀ a ∈ [65, 65], a ∈ treeB2.symbols) ∧
      bitInput (bitState 2 [true]) = treeB2.codes [65, 65] ++ [] ++ true :: [] ∧ (treeB2.descend []).isNode = true ∧
      (treeB2.descend []).child true = .absent) ∧
    (ValidTree treeL25 ∧ bitInput (putBits (treeState treeL25) [false, true]) = treeL25.codes [] ++ [false] ++ true :: [] ∧
      (treeL25.descend [false]).isNode = true ∧ (treeL25.descend [false]).child true = .absent) ∧
    (treeState treeS1).tree.full = true ∧ (treeState treeS1).tree.isNode = true ∧
    ∃ t, exec .decode (treeState treeS1) = .next t := by
  refine ⟨⟨valid_treeB2, ?_, by decide, ?_, rfl, rfl⟩, ⟨valid_treeL25, ?_, rfl, rfl⟩, rfl, rfl, exec_next _ _⟩
  · rw [bitLen_bitState (by simp)]; simp
  · rw [bitInput_bitState (by simp)]; rfl
  · exact bitInput_putBits (by decide)

/-- V-D10, "0" under the tree of V-L25. -/
theorem witness_DecodeIncompleteCode :
    ValidTree treeL25 ∧ (putBits (treeState treeL25) [false]).bitLen.toNat ≤ 1048576 ∧
    bitInput (putBits (treeState treeL25) [false]) = treeL25.codes [] ++ [false] ∧ [false] ≠ [] ∧
    (treeL25.descend [false]).isNode = true :=
  ⟨valid_treeL25, by decide, bitInput_putBits (by decide), by decide, rfl⟩

/-- No tree; V-D15; a symbol too many; and a failure with no more bits than cells. -/
theorem witness_DecodeOtherFailures :
    State.reset.tree = .absent ∧
    ((treeState treeS1).tree ≠ .absent ∧ 1048576 < ({ treeState treeS1 with bitLen := 1048577 } : State).bitLen.toNat) ∧
    (ValidTree treeB2 ∧ (bitState 65536 [false]).bitLen.toNat ≤ 1048576 ∧ (∀ b ∈ List.replicate 65536 65, b ∈ treeB2.symbols) ∧
      (List.replicate 65536 65).length = 65536 ∧ (65, [false]) ∈ treeB2.pairs ∧
      bitInput (bitState 65536 [false]) = treeB2.codes (List.replicate 65536 65) ++ [false] ++ []) ∧
    ([true] : List Bool).length ≤ 1 ∧
    decodeLoop 1 treeB2 [true] 0 treeB2 0 0 = .error { failure := .malformedStream, pos := 0 } := by
  refine ⟨rfl, ⟨by decide, by decide⟩, ⟨valid_treeB2, ?_, ?_, List.length_replicate, by decide, ?_⟩, by decide, by decide⟩
  · rw [bitLen_bitState (by simp)]; simp
  · intro a ha; rw [List.eq_of_mem_replicate ha]; decide
  · rw [bitInput_bitState (by simp), codes_treeB2, List.append_nil]

/-- 65536 zeros; and 65536 zeros and a one. -/
theorem witness_DecodeOfDegenerateTree :
    (treeState treeB2).tree = .node (.leaf 65) .absent ∧ (bitState 65536 [true]).bitLen.toNat ≤ 1048576 ∧
    bitInput (bitState 65536 []) = List.replicate 65536 false ∧
    bitInput (bitState 65536 [true]) = List.replicate 65536 false ++ true :: [] ∧ ∃ t, exec .decode (bitState 0 []) = .next t := by
  refine ⟨rfl, ?_, ?_, bitInput_bitState (by simp), exec_next _ _⟩
  · rw [bitLen_bitState (by simp)]; simp
  · rw [bitInput_bitState (by simp), List.append_nil]

theorem witness_EncodeAndDecodeAreInverse :
    (ValidTree (symState 65536).tree ∧ (symState 65536).symLen.toNat ≤ 65536 ∧
      (∀ a ∈ symInput (symState 65536), (symState 65536).tree.codeOf a ≠ none) ∧
      ((symState 65536).tree.codes (symInput (symState 65536))).length ≤ 1048576) ∧
    ValidTree (bitState 65536 []).tree ∧ ∃ t, exec .decode (bitState 65536 []) = .next t ∧ t.err = 0 :=
  ⟨⟨valid_treeB2, (encodable 65536 (le_refl _)).2⟩, valid_treeB2, witness_DecodeWritesTheSymbols.2.1⟩

/-! ### Outcomes and failures -/

/-- A failure of each command. -/
theorem witness_FailureWritesExactly :
    (∃ t, exec .build (freqState fun _ => 0) = .next t ∧ t.err ≠ 0) ∧ (∃ t, exec .save State.reset = .next t ∧ t.err ≠ 0) ∧
    (∃ t, exec .load State.reset = .next t ∧ t.err ≠ 0) ∧ (∃ t, exec .encode State.reset = .next t ∧ t.err ≠ 0) ∧
    ∃ t, exec .decode State.reset = .next t ∧ t.err ≠ 0 := by
  refine ⟨⟨_, exec_build_error (buildTree_zero ?_), errWord_ne_zero _⟩, ⟨_, exec_save_error (r := ⟨.noTree, 0⟩) rfl, errWord_ne_zero _⟩,
    ⟨_, exec_load_error (r := ⟨.emptyTable, 0⟩) rfl, errWord_ne_zero _⟩,
    ⟨_, exec_encode_error (r := ⟨.noTree, 0⟩) rfl, errWord_ne_zero _⟩, ⟨_, exec_decode_error (r := ⟨.noTree, 0⟩) rfl, errWord_ne_zero _⟩⟩
  rw [present_input, List.filter_eq_nil_iff]
  intro b hb
  simp [witness_BuildOfZerosFails b (List.mem_range.mp hb)]

theorem witness_FailedCommandFailsAgain :
    (∃ t, exec .build (freqState fun _ => 0) = .next t ∧ t.err ≠ 0) ∧ ∃ t, exec .load State.reset = .next t ∧ t.err ≠ 0 :=
  ⟨witness_FailureWritesExactly.1, witness_FailureWritesExactly.2.2.1⟩

/-- ENCODE of the same input in two states with another host side, other FREQ, BIT and TBL. -/
theorem witness_CommandsReadOnlyTheirOperands :
    (∃ t, exec .encode (symState 3) = .next t) ∧ (∃ t, exec .encode { symState 3 with bitLen := 7, pending := [.reset] } = .next t) ∧
    (symState 3).tree = ({ symState 3 with bitLen := 7, pending := [.reset] } : State).tree ∧
    (symState 3).symLen = ({ symState 3 with bitLen := 7, pending := [.reset] } : State).symLen ∧
    symInput (symState 3) = symInput { symState 3 with bitLen := 7, pending := [.reset] } :=
  ⟨exec_next _ _, exec_next _ _, rfl, rfl, rfl⟩

/-! ### The whole machine -/

/-- A reset that discards a tree. -/
theorem witness_OnlyBuildLoadAndResetWriteTheTree :
    ∃ t, step { treeState treeS1 with pending := [.reset] } = .next t ∧ t.tree ≠ treeS1 := ⟨_, rfl, by decide⟩

/-- An idle step, a host write, and a command that completes. -/
theorem witness_StepKeepsTheInvariant :
    Inv (treeState treeS1) ∧ (∃ t, step (treeState treeS1) = .next t) ∧
    (Inv { treeState treeS1 with pending := [.write .bit 1048575 1] } ∧
      ∃ t, step { treeState treeS1 with pending := [.write .bit 1048575 1] } = .next t) ∧
    Inv { treeState treeS1 with running := some .save } ∧ ∃ t, step { treeState treeS1 with running := some .save } = .next t := by
  have h := inv_treeState valid_treeS1
  exact ⟨h, ⟨_, rfl⟩, ⟨{ h with }, ⟨_, rfl⟩⟩, { h with }, ⟨_, rfl⟩⟩

/-- A code of one bit, one of 255, and two symbols with codes. -/
theorem witness_CodesAreAPrefixCode :
    ValidTree treeB2 ∧ treeB2.codeOf 65 = some [false] ∧ ValidTree (chain 255) ∧
    (chain 255).codeOf 1 = some (List.replicate 255 false) ∧ treeL25.codeOf 1 = some [false, false] ∧ treeL25.codeOf 2 = some [true] := by
  refine ⟨valid_treeB2, by decide, by decide +kernel, ?_, by decide, by decide⟩
  rw [OptTree.codeOf, codeOf_chain]; rfl

theorem witness_TreeIsDeterminedByItsPairs :
    treeL25.isNode = true ∧ treeL25.noBareNode = true ∧
    (OptTree.node (.node (.leaf 1) .absent) (.leaf 2)).pairs = treeL25.pairs := by decide

/-- A command that starts, and a word that is none. -/
theorem witness_PollingHostSeesTheAtomicCommand :
    State.reset.running = none ∧ decodeCmd (BitVec.ofNat 32 2) = .ok .save ∧
    (∃ u, step { State.reset with pending := .write .reg 0 2 :: [] } = .next u) ∧
    ∃ u, step { State.reset with pending := .write .reg 0 0 :: [] } = .next u := ⟨rfl, by decide, ⟨_, rfl⟩, ⟨_, rfl⟩⟩

theorem witness_PutScriptsStoreTheSequence :
    State.reset.running = none ∧ State.reset.pending = [] ∧ (∀ v ∈ List.replicate 65536 255, v < 256) ∧
    (List.replicate 65536 255).length ≤ 65536 ∧ (List.replicate 1048576 true).length ≤ 1048576 ∧
    (List.replicate 131072 (0x0A : Byte)).length ≤ 131072 := by
  refine ⟨rfl, rfl, fun v hv => by rw [List.eq_of_mem_replicate hv]; decide, ?_, ?_, ?_⟩ <;> rw [List.length_replicate]

/-- The least parameters R6 allows, with a code of `A - 1` = 1 bit; a BUILD that succeeds; and a code of 255 bits. -/
theorem witness_BuiltTableFitsAndLoads :
    (2 ≤ 2 ∧ [3, 5].length ≤ 2 ∧ 2 - 1 ≤ 1 ∧ buildTree 2 [3, 5] = .ok (.node (.leaf 0) (.leaf 1), 2)) ∧
    (∃ t, exec .build (freqState freqTwo) = .next t ∧ t.err = 0) ∧ ValidTree (chain 255) :=
  ⟨by decide, build_freqTwo, witness_CodesAreAPrefixCode.2.2.1⟩

end Sys2Proof.Tests
end

section
/-! The statements of 00_scope.md: one step runs one command (R13), every command completes (R12), and the table of a
valid tree fits TBL and loads again (R7). -/

namespace Sys2Proof.Proofs

open Sys2Proof.Machine

/-! ## The table of a valid tree -/

/-- LOAD after a SAVE reads the text SAVE wrote. -/
theorem loadInput_succeed_putText (s : State) {x : List Byte} (hx : x.length ≤ 131072) :
    loadInput (succeed (putText s x)) = loadTable 256 255 x := by
  have hlen : (succeed (putText s x)).tblLen.toNat = x.length := by
    rw [succeed_tblLen, putText_tblLen, BitVec.toNat_ofNat, Nat.mod_eq_of_lt (by omega)]
  have htext : tblInput (succeed (putText s x)) = x := by
    rw [tblInput_congr (succeed_tbl _) (succeed_tblLen _), tblInput_putText (by omega)]
  rw [loadInput, hlen, htext, params_tblCap, if_neg (Nat.not_lt.mpr hx), params_alphabet, params_codeLenMax]

/-- SAVE writes the table of a valid TREE whole, whatever else the state holds. -/
theorem exec_save_of_valid {s : State} (hv : s.tree.Valid 256 255) :
    exec .save s = .next (succeed (putText s (fmt s.tree.pairs))) :=
  exec_save_ok (saveTree_of_valid hv)

/-- LOAD of the table of a valid tree, stored by a SAVE, gives that tree and its number of leaves. -/
theorem exec_load_of_valid_table (s : State) {t : OptTree} (hv : t.Valid 256 255) :
    exec .load (succeed (putText s (fmt t.pairs))) =
      .next (succeed (putTree (succeed (putText s (fmt t.pairs))) t t.leafCount)) := by
  have hlen := (length_fmt_pairs_le hv).trans_eq tableBytesMax_eq
  refine exec_load_ok ?_
  rw [loadInput_succeed_putText s (by omega), loadTable_fmt_pairs hv]

/-- Settles O60. A built tree is valid, with codes of at most `A - 1` bits; SAVE has room for the table of every valid
tree, and LOAD of that table restores the tree. -/
theorem builtTableFitsAndLoads : Obligations.BuiltTableFitsAndLoads := by
  refine ⟨fun A lenMax freqs t n hA2 hA hl hb => ?_, fun s t hx he => ?_, tableBytesMax_eq, ?_, fun t hv => ?_⟩
  · exact ⟨fun e => length_path_of_built hb hA hA2, loadTable_of_built hb hA hA2 hl⟩
  · obtain ⟨u, -, rfl, hv, -⟩ := build_next hx he
    exact ⟨fun e h => (length_entry_le hv h).2, _, _, exec_save_of_valid hv, succeed_err _,
      exec_load_of_valid_table _ hv, succeed_err _, rfl, rfl⟩
  · rw [tableBytesMax_eq]
    decide
  · exact ⟨(OptTree.length_pairs t).trans_le (leafCount_le hv), fun e => length_entry_le hv, length_fmt_pairs_le hv,
      saveTree_of_valid hv⟩

/-! ## One command -/

/-- A table word is the command `i` when its low bits fit a command word that decodes to `i`. -/
theorem decodeTableWord_eq_some {nbits w : Nat} {i : Instr} :
    decodeTableWord nbits w = some i ↔
      tableWord nbits w < 2 ^ 32 ∧ decodeCmd (BitVec.ofNat 32 (tableWord nbits w)) = .ok i := by
  unfold decodeTableWord
  cases decodeCmd (BitVec.ofNat 32 (tableWord nbits w)) <;> simp

/-- While the core is idle, a CMD write of a legal word is one step that is the command's meaning (R13, R22). -/
theorem step_cmd_write {s : State} {rest : List HostEvent} {w : Nat} {i : Instr} (hr : s.running = none)
    (hp : s.pending = .write .reg 0 w :: rest) (hw : w < 2 ^ 32) (hd : decodeCmd (BitVec.ofNat 32 w) = .ok i) :
    step s = exec i { s with pending := rest } := by
  rw [step_idle hr hp, idleEvent_cmd hw, issue, hd]

/-- Settles O11: `withFetchWord` puts a CMD write of the table word in front of an idle core. -/
theorem stepRunsTheIssuedCommand : Obligations.StepRunsTheIssuedCommand := by
  refine ⟨fun s rest w i hr hp hw hd => step_cmd_write hr hp hw hd, fun s nbits w i hdec => ?_⟩
  obtain ⟨hw, hd⟩ := decodeTableWord_eq_some.mp hdec
  exact step_cmd_write (s := s.withFetchWord nbits w) rfl rfl hw hd

/-- A command ends idle, with ERR and ERRPOS 0 after a success and the word of the failure in ERR otherwise (R206,
R207). -/
theorem outcome_of_done {i : Instr} {s t : State} (h : Done i s t) :
    t.running = none ∧ ((t.err = 0 ∧ t.errpos = 0) ∨ ∃ f, t.err = errWord f) := by
  cases h with
  | tree u n hi ht | text x hi ht | bits x hi ht | syms x hi ht =>
    subst ht
    exact ⟨succeed_running _, .inl ⟨succeed_err _, succeed_errpos _⟩⟩
  | failed r ht =>
    subst ht
    exact ⟨fail_running i r s, .inr ⟨r.failure, fail_err i r s⟩⟩

/-- Settles O49, from the ways a command can complete. -/
theorem everyCommandCompletes : Obligations.EveryCommandCompletes := fun i s => by
  obtain ⟨t, ht, hdone⟩ := exec_done i s
  exact ⟨t, ht, outcome_of_done hdone⟩

end Sys2Proof.Proofs
end

section
/-! The statements of 10_state.md: every step keeps the invariant of the machine (R24, R26, R36 to R39), what may change
TREE (R35), and what a valid TREE is: full after a BUILD of many symbols (R40), with codes none of which begins another
(R41, R42), determined by its pair list (R46). -/

namespace Sys2Proof.Proofs

open Sys2Proof.Machine

/-! ## The invariant -/

/-- The host's side and the command in progress are no part of the invariant. -/
theorem inv_withHostSide {s : State} (hs : Inv s) (p : List HostEvent) (d : Option Word) (n : Nat) (r : Option Instr) :
    Inv { s with pending := p, rdata := d, polls := n, running := r } :=
  { hs with }

/-- Settles O54, along the ways a step can go on. -/
theorem stepKeepsTheInvariant : Obligations.StepKeepsTheInvariant := fun s t hs hstep => by
  have hq (p : List HostEvent) : Inv { s with pending := p } := inv_withHostSide hs p s.rdata s.polls s.running
  cases stepKind_of_step hstep with
  | host p d n ht => subst ht; exact inv_withHostSide hs p d n s.running
  | write p sp i v hi ht => subst ht; exact (hq p).cellWrite hi v
  | illegal p ht => subst ht; exact (hq p).illegalCommand
  | start p i ht => subst ht; exact inv_withHostSide hs p s.rdata s.polls (some i)
  | command p i _ hexec => exact (hq p).exec hexec
  | reset p _ ht => subst ht; exact Inv.resetCore _

/-- Settles O55: the memories are empty, TREE is absent and the registers are 0. -/
theorem resetMeetsTheInvariant : Obligations.ResetMeetsTheInvariant := fun _ =>
  { freqWf := Memory.wf_unwritten, symWf := Memory.wf_unwritten, bitWf := Memory.wf_unwritten
    tblWf := Memory.wf_unwritten
    freqIn := Memory.within_unwritten _, symIn := Memory.within_unwritten _
    bitIn := Memory.within_unwritten _, tblIn := Memory.within_unwritten _
    tree := .inl rfl, nleaf := rfl, err := .inl ⟨rfl, rfl⟩ }

/-! ## What changes TREE -/

/-- A host write of a register or a memory cell leaves TREE alone (R35). -/
@[simp] theorem cellWrite_tree (s : State) (sp : Space) (i v : Nat) : (cellWrite s sp i v).tree = s.tree := by
  cases sp with
  | reg =>
    simp only [cellWrite, regWrite]
    split_ifs <;> rfl
  | freq | sym | bit | tbl => rfl

/-- The commands that write TREE (R52). -/
theorem writesTree_iff {i : Instr} : writesTree i = true ↔ i = .build ∨ i = .load := by
  cases i <;> simp [writesTree]

/-- A command that changes TREE is one that writes it, and leaves none when it fails (R52, R206 (b)). -/
theorem writesTree_of_tree_ne {i : Instr} {s t : State} (hexec : exec i s = .next t) (hne : t.tree ≠ s.tree) :
    writesTree i = true ∧ (t.err ≠ 0 → t.tree = .absent) := by
  cases done_of_exec hexec with
  | tree u n hi ht => subst ht; exact ⟨hi, fun herr => absurd (succeed_err _) herr⟩
  | text x hi ht | bits x hi ht | syms x hi ht => subst ht; exact absurd rfl hne
  | failed r ht =>
    subst ht
    rw [fail_tree] at hne ⊢
    split_ifs at hne ⊢ with hi
    · exact ⟨hi, fun _ => rfl⟩
    · exact absurd rfl hne

/-- Settles O53, along the ways a step can go on. -/
theorem onlyBuildLoadAndResetWriteTheTree : Obligations.OnlyBuildLoadAndResetWriteTheTree := fun s t hstep hne => by
  cases stepKind_of_step hstep with
  | host p d n ht => subst ht; exact absurd rfl hne
  | write p sp i v hi ht => subst ht; exact absurd (cellWrite_tree _ sp i v) hne
  | illegal p ht => subst ht; exact absurd rfl hne
  | start p i ht => subst ht; exact absurd rfl hne
  | command p i hissued hexec =>
    obtain ⟨hi, hfail⟩ := writesTree_of_tree_ne hexec hne
    exact .inr ⟨i, writesTree_iff.mp hi, hissued, hfail⟩
  | reset p hp _ => exact .inl hp

/-! ## Valid trees -/

/-- Settles O16. -/
theorem buildOfManyIsFull : Obligations.BuildOfManyIsFull := fun s t a b hab hb hfa hfb hexec => by
  obtain ⟨u, hbuild, hfull, -, -⟩ := buildTree_two (A := 256) (two_le_present hab hb hfa hfb)
  rw [exec_build_ok hbuild] at hexec
  cases hexec
  exact ⟨hfull, depth_lt_leafCount hfull⟩

/-- Settles O56: a code is the path of its symbol's leaf, and no leaf's path begins another's (R39). -/
theorem codesAreAPrefixCode : Obligations.CodesAreAPrefixCode := fun t ⟨hroot, _, _, hnodup, hdepth⟩ => by
  refine ⟨fun s p => OptTree.codeOf_eq_some_iff hnodup, fun s p hs => ?_, fun a b p q ha hb hab hpq => ?_,
    OptTree.length_pairs t⟩
  · have hp := OptTree.codeOf_mem hs
    exact ⟨List.length_pos_iff.mpr (OptTree.path_ne_nil hroot hp), (OptTree.length_le_depth hp).trans hdepth⟩
  · exact hab (OptTree.pairs_prefix (OptTree.codeOf_mem ha) (OptTree.codeOf_mem hb) hpq).1

/-- Settles O57: equal pair lists are a permutation of each other. -/
theorem treeIsDeterminedByItsPairs : Obligations.TreeIsDeterminedByItsPairs := fun _ _ _ ht _ hu hpairs =>
  OptTree.eq_of_pairs_perm ht hu (.of_eq hpairs)

end Sys2Proof.Proofs
end

section
/-! The statements of 20_memory.md: what a host access does to the registers and the memories (R58 to R61), which access
goes on and how any other one stops (R59, R62, R239), and which memories and registers each command leaves alone (R52). -/

namespace Sys2Proof.Proofs

open Sys2Proof.Machine

/-! ## Cells that read as before -/

/-- Equal memories have the same cells (R70). -/
theorem sameCells_freq {s t : State} (h : t.freq = s.freq) : SameCells .freq s t := fun i => by
  simp only [cellRead, State.unspecified, h, and_self]

theorem sameCells_sym {s t : State} (h : t.sym = s.sym) : SameCells .sym s t := fun i => by
  simp only [cellRead, State.unspecified, h, and_self]

theorem sameCells_bit {s t : State} (h : t.bit = s.bit) : SameCells .bit s t := fun i => by
  simp only [cellRead, State.unspecified, h, and_self]

theorem sameCells_tbl {s t : State} (h : t.tbl = s.tbl) : SameCells .tbl s t := fun i => by
  simp only [cellRead, State.unspecified, h, and_self]

/-! ## What a command leaves alone -/

/-- Between `s` and `t` only the outputs of the command `i` have changed, besides ERR, ERRPOS and BUSY (R52). -/
structure CommandFrame (i : Instr) (s t : State) : Prop where
  freq : t.freq = s.freq
  sym : i ≠ .decode → t.sym = s.sym ∧ t.symLen = s.symLen
  bit : i ≠ .encode → t.bit = s.bit ∧ t.bitLen = s.bitLen
  tbl : i ≠ .save → t.tbl = s.tbl ∧ t.tblLen = s.tblLen
  tree : writesTree i = false → t.tree = s.tree ∧ t.nleaf = s.nleaf
  host : t.pending = s.pending ∧ t.rdata = s.rdata

/-- A failure changes nothing but the output it invalidates (R206 (c)). -/
theorem commandFrame_fail (i : Instr) (r : Raise) (s : State) : CommandFrame i s (fail i r s) where
  freq := fail_freq i r s
  sym hi := by simp [hi]
  bit hi := by simp [hi]
  tbl hi := by simp [hi]
  tree hi := by simp [hi]
  host := ⟨fail_pending i r s, fail_rdata i r s⟩

/-- Every command keeps its frame, whether it succeeds or fails (R52, R206 (c)). -/
theorem commandFrame_of_exec {i : Instr} {s t : State} (h : exec i s = .next t) : CommandFrame i s t := by
  cases done_of_exec h with
  | tree u n hi ht =>
    subst ht
    exact { freq := rfl, sym := fun _ => ⟨rfl, rfl⟩, bit := fun _ => ⟨rfl, rfl⟩, tbl := fun _ => ⟨rfl, rfl⟩,
            tree := fun hn => absurd (hi.symm.trans hn) (by decide), host := ⟨rfl, rfl⟩ }
  | text x hi ht =>
    subst ht
    exact { freq := rfl, sym := fun _ => ⟨rfl, rfl⟩, bit := fun _ => ⟨rfl, rfl⟩, tbl := fun hn => absurd hi hn,
            tree := fun _ => ⟨rfl, rfl⟩, host := ⟨rfl, rfl⟩ }
  | bits x hi ht =>
    subst ht
    exact { freq := rfl, sym := fun _ => ⟨rfl, rfl⟩, bit := fun hn => absurd hi hn, tbl := fun _ => ⟨rfl, rfl⟩,
            tree := fun _ => ⟨rfl, rfl⟩, host := ⟨rfl, rfl⟩ }
  | syms x hi ht =>
    subst ht
    exact { freq := rfl, sym := fun hn => absurd hi hn, bit := fun _ => ⟨rfl, rfl⟩, tbl := fun _ => ⟨rfl, rfl⟩,
            tree := fun _ => ⟨rfl, rfl⟩, host := ⟨rfl, rfl⟩ }
  | failed r ht => subst ht; exact commandFrame_fail i r s

/-- Settles O22: the outputs of BUILD and LOAD are TREE and NLEAF. -/
theorem treeWritersFrame : Obligations.TreeWritersFrame := fun i s t hi hexec => by
  have hframe := commandFrame_of_exec hexec
  obtain ⟨hsym, hsymLen⟩ := hframe.sym (by rcases hi with rfl | rfl <;> decide)
  obtain ⟨hbit, hbitLen⟩ := hframe.bit (by rcases hi with rfl | rfl <;> decide)
  obtain ⟨htbl, htblLen⟩ := hframe.tbl (by rcases hi with rfl | rfl <;> decide)
  exact ⟨sameCells_freq hframe.freq, sameCells_sym hsym, sameCells_bit hbit, sameCells_tbl htbl, hsymLen, hbitLen, htblLen,
    hframe.host⟩

/-! ## The output of SAVE, ENCODE and DECODE -/

/-- `m'` is `m` after a sequence of `n` values was written from cell 0 on (R55). -/
def WrittenFromZero {w : Nat} (m m' : Memory w) (n : Nat) : Prop :=
  ∃ vs : List (BitVec w), m' = m.writeList 0 vs ∧ n = vs.length

/-- The cells beyond the written sequence read, and are specified, as before. -/
theorem WrittenFromZero.beyond {w n : Nat} {m m' : Memory w} (h : WrittenFromZero m m' n) (sp : Space) {k : Nat}
    (hk : n ≤ k) : m'.read sp k = m.read sp k ∧ (m'.known k).isNone = (m.known k).isNone := by
  obtain ⟨vs, rfl, rfl⟩ := h
  have hout : k < 0 ∨ 0 + vs.length ≤ k := .inr (by omega)
  exact ⟨Memory.read_writeList_outside hout, by rw [Memory.known_writeList_outside hout]⟩

/-- A length that fits its register is the number the register holds. -/
theorem toNat_ofNat_length {n cap : Nat} (hn : n ≤ cap) (hcap : cap < 2 ^ 32) : (BitVec.ofNat 32 n).toNat = n := by
  rw [BitVec.toNat_ofNat, Nat.mod_eq_of_lt (by omega)]

/-- A SAVE that succeeds writes a sequence of TBL_LEN bytes from TBL[0] on (R144, R145). -/
theorem save_writes_tbl {s t : State} (hexec : exec .save s = .next t) (herr : t.err = 0) :
    WrittenFromZero s.tbl t.tbl t.tblLen.toNat := by
  rcases exec_save_cases s with ⟨x, hx, he⟩ | ⟨r, -, he⟩ <;> rw [he] at hexec <;> cases hexec
  · obtain ⟨-, -, hlen⟩ := saveTree_ok hx
    exact ⟨x, rfl, toNat_ofNat_length hlen (by decide)⟩
  · exact absurd herr (errWord_ne_zero r.failure)

/-- An ENCODE that succeeds writes a sequence of BIT_LEN bits from BIT[0] on (R172, R176). -/
theorem encode_writes_bit {s t : State} (hexec : exec .encode s = .next t) (herr : t.err = 0) :
    WrittenFromZero s.bit t.bit t.bitLen.toNat := by
  rcases exec_encode_cases s with ⟨x, hx, he⟩ | ⟨r, -, he⟩ <;> rw [he] at hexec <;> cases hexec
  · obtain ⟨-, -, -, hlen⟩ := encodeInput_ok hx
    exact ⟨x.map BitVec.ofBool, rfl, by simpa using toNat_ofNat_length hlen (by decide)⟩
  · exact absurd herr (errWord_ne_zero r.failure)

/-- A DECODE that succeeds writes a sequence of SYM_LEN symbols from SYM[0] on (R186, R187). -/
theorem decode_writes_sym {s t : State} (hexec : exec .decode s = .next t) (herr : t.err = 0) :
    WrittenFromZero s.sym t.sym t.symLen.toNat := by
  rcases exec_decode_cases s with ⟨x, hx, he⟩ | ⟨r, -, he⟩ <;> rw [he] at hexec <;> cases hexec
  · exact ⟨x.map (BitVec.ofNat 8), rfl, by simpa using toNat_ofNat_length (decodeInput_length_le hx) (by decide)⟩
  · exact absurd herr (errWord_ne_zero r.failure)

/-- Settles O41: a success writes a sequence as long as the new length register says, from cell 0 on. -/
theorem outputWritersFrame : Obligations.OutputWritersFrame := fun i s t hexec => by
  have hframe := commandFrame_of_exec hexec
  refine ⟨?_, ?_, ?_, fun hi => ?_⟩
  · rintro rfl
    obtain ⟨hsym, hsymLen⟩ := hframe.sym (by decide)
    obtain ⟨hbit, hbitLen⟩ := hframe.bit (by decide)
    exact ⟨sameCells_freq hframe.freq, sameCells_sym hsym, sameCells_bit hbit, hsymLen, hbitLen,
      fun herr _ => (save_writes_tbl hexec herr).beyond .tbl⟩
  · rintro rfl
    obtain ⟨hsym, hsymLen⟩ := hframe.sym (by decide)
    obtain ⟨htbl, htblLen⟩ := hframe.tbl (by decide)
    exact ⟨sameCells_freq hframe.freq, sameCells_sym hsym, sameCells_tbl htbl, hsymLen, htblLen,
      fun herr _ => (encode_writes_bit hexec herr).beyond .bit⟩
  · rintro rfl
    obtain ⟨hbit, hbitLen⟩ := hframe.bit (by decide)
    obtain ⟨htbl, htblLen⟩ := hframe.tbl (by decide)
    exact ⟨sameCells_freq hframe.freq, sameCells_bit hbit, sameCells_tbl htbl, hbitLen, htblLen,
      fun herr _ => (decode_writes_sym hexec herr).beyond .sym⟩
  · obtain ⟨htree, hnleaf⟩ := hframe.tree (by rcases hi with rfl | rfl | rfl <;> rfl)
    exact ⟨htree, hnleaf, hframe.host⟩

/-! ## Which access goes on -/

/-- An access outside its space has no meaning (R62). -/
theorem idleEvent_read_noSuchCell {sp : Space} {i : Nat} (s : State) (hi : sp.cells ≤ i) :
    idleEvent (.read sp i) s = .refused (.noSuchCell sp i) := if_neg (Nat.not_lt.mpr hi)

theorem idleEvent_write_noSuchCell {sp : Space} {i : Nat} (s : State) (v : Nat) (hi : sp.cells ≤ i) :
    idleEvent (.write sp i v) s = .refused (.noSuchCell sp i) := if_pos hi

/-- A value that does not fit its cell cannot be written (R59). -/
theorem idleEvent_write_valueTooWide {sp : Space} {i v : Nat} (s : State) (hi : i < sp.cells) (hv : 2 ^ sp.width ≤ v) :
    idleEvent (.write sp i v) s = .refused (.valueTooWide sp v) := by
  simp only [idleEvent, if_neg (Nat.not_le.mpr hi), if_pos hv]

theorem idleEvent_start_valueTooWide {w : Nat} (s : State) (hw : 2 ^ 32 ≤ w) :
    idleEvent (.start w) s = .refused (.valueTooWide .reg w) := if_pos hw

/-- While a command is in progress, an access other than a read of STATUS is a fault (R239). -/
theorem busyEvent_fault {ev : HostEvent} (i : Instr) (s : State) (h : ev.allowed true = false) :
    busyEvent i ev s = .fault .hostAccessWhileBusy := by
  cases ev with
  | read sp n =>
    have hne : ¬ (sp = .reg ∧ n = 1) := by simpa [HostEvent.allowed] using h
    exact if_neg hne
  | write _ _ _ | start _ => rfl
  | complete | reset => cases h

/-- Every well-formed event goes on while the core is idle, and no other one does. -/
theorem idleEvent_next_iff (ev : HostEvent) (s : State) : (∃ t, idleEvent ev s = .next t) ↔ ev.wf = true := by
  cases ev with
  | read sp i =>
    by_cases hi : i < sp.cells
    · simp [idleEvent_read hi, HostEvent.wf, hi]
    · simp [idleEvent_read_noSuchCell s (Nat.not_lt.mp hi), HostEvent.wf, hi]
  | write sp i v =>
    by_cases hi : i < sp.cells
    · by_cases hv : v < 2 ^ sp.width
      · by_cases hcmd : sp = .reg ∧ i = 0
        · obtain ⟨rfl, rfl⟩ := hcmd
          simp [idleEvent_cmd hv, issue_next, HostEvent.wf, hi, hv]
        · simp [idleEvent_write hi hv hcmd, HostEvent.wf, hi, hv]
      · simp [idleEvent_write_valueTooWide s hi (Nat.not_lt.mp hv), HostEvent.wf, hv]
    · simp [idleEvent_write_noSuchCell s v (Nat.not_lt.mp hi), HostEvent.wf, hi]
  | start w =>
    by_cases hw : w < 2 ^ 32
    · exact iff_of_true ⟨_, if_neg (Nat.not_le.mpr hw)⟩ (decide_eq_true hw)
    · rw [idleEvent_start_valueTooWide s (Nat.not_lt.mp hw)]
      exact iff_of_false nofun fun hwf => hw (of_decide_eq_true hwf)
  | complete => exact iff_of_true (finish_next s) rfl
  | reset => exact iff_of_true ⟨resetCore s, rfl⟩ rfl

/-- While a command is in progress, a poll, the completion and reset go on, and nothing else does (R239). -/
theorem busyEvent_next_iff (i : Instr) (ev : HostEvent) (s : State) :
    (∃ t, busyEvent i ev s = .next t) ↔ ev.allowed true = true := by
  by_cases hev : ev.allowed true = true
  · refine iff_of_true ?_ hev
    cases ev with
    | read sp n =>
      have hpoll : sp = .reg ∧ n = 1 := by simpa [HostEvent.allowed] using hev
      exact ⟨_, if_pos hpoll⟩
    | write _ _ _ | start _ => cases hev
    | complete => exact finish_next s
    | reset => exact ⟨resetCore s, rfl⟩
  · simp [busyEvent_fault i s (Bool.eq_false_iff.mpr hev), hev]

/-- A step goes on exactly when the host obeys: by the next event, and whether a command is in progress. -/
theorem safe_iff_hostObeys (s : State) : Safe s ↔ HostObeys s := by
  cases hp : s.pending with
  | nil => exact iff_of_true (by rw [Safe, step_nil hp]; exact finish_next s) (by simp [HostObeys, hp])
  | cons ev rest =>
    have hobeys : HostObeys s ↔ ev.allowed s.running.isSome = true := by simp [HostObeys, hp]
    cases hr : s.running with
    | none =>
      rw [hobeys, Safe, step_idle hr hp, idleEvent_next_iff, hr]
      rfl
    | some i =>
      rw [hobeys, Safe, step_busy hr hp, busyEvent_next_iff, hr]
      rfl

/-- Settles O7. -/
theorem stepGoesOnIffHostObeys : Obligations.StepGoesOnIffHostObeys := by
  refine ⟨safe_iff_hostObeys, fun s rest sp i v hr => ⟨fun hi => ⟨fun hp => ?_, fun hp => ?_⟩, fun hi hv hp => ?_⟩,
    fun s rest w hr hw hp => ?_, fun s rest ev hr hp hev => ?_⟩
  · rw [step_idle hr hp, idleEvent_read_noSuchCell _ hi]
  · rw [step_idle hr hp, idleEvent_write_noSuchCell _ v hi]
  · rw [step_idle hr hp, idleEvent_write_valueTooWide _ hi hv]
  · rw [step_idle hr hp, idleEvent_start_valueTooWide _ hw]
  · obtain ⟨i, hi⟩ := Option.ne_none_iff_exists'.mp hr
    rw [step_busy hi hp, busyEvent_fault i _ hev]

/-! ## Registers -/

/-- While the core is idle, a host read of an existing cell or register returns its value and changes nothing else. -/
theorem step_read {s : State} {rest : List HostEvent} {sp : Space} {i : Nat} (hr : s.running = none)
    (hp : s.pending = .read sp i :: rest) (hi : i < sp.cells) :
    step s = .next { s with pending := rest, rdata := some (cellRead s sp i) } := by
  rw [step_idle hr hp, idleEvent_read hi]
  cases sp <;> rfl

/-- STATUS of an idle core, bit by bit (R23). -/
theorem status_bits_idle {s : State} (hr : s.running = none) :
    s.status.getLsbD 0 = false ∧ (s.status.getLsbD 1 = true ↔ s.tree ≠ .absent) ∧
      ∀ k, 2 ≤ k → s.status.getLsbD k = false := by
  obtain ⟨hbusy, htree, hzero⟩ := mkStatus_bits false s.treeValid
  rw [status_idle hr]
  exact ⟨hbusy, by rw [htree, treeValid_iff], hzero⟩

/-- Settles O3. -/
theorem hostReadOfRegister : Obligations.HostReadOfRegister := fun s rest n hr hp hn => by
  refine ⟨regRead s n, step_read hr hp hn, ?_, ?_, ?_, ?_, ?_, ?_, ?_, ?_⟩ <;> rintro rfl
  · rfl
  · exact status_bits_idle hr
  iterate 5
    · rfl
  · exact ⟨rfl, Inv.nleaf⟩

/-- The registers that ignore a write (R61). -/
theorem regWrite_readOnly {n : Nat} (h : n = 1 ∨ n = 2 ∨ n = 3 ∨ n = 7) (s : State) (v : Word) : regWrite s n v = s := by
  rcases h with rfl | rfl | rfl | rfl <;> rfl

/-- Settles O4. -/
theorem hostWriteOfRegister : Obligations.HostWriteOfRegister := fun s rest n v hr hp hn hv => by
  have hstep (h0 : n ≠ 0) := wr_step n v hr hn h0 hv hp
  refine ⟨?_, ?_, ?_, ?_, fun hro => ?_⟩
  · rintro rfl
    rw [step_idle hr hp, idleEvent_cmd hv]
  iterate 3
    · rintro rfl
      exact hstep (by decide)
  · rw [hstep (by omega), regWrite_readOnly hro]

/-! ## Memory cells -/

/-- A known value is what a read gives (R51). -/
theorem read_of_known {w : Nat} {m : Memory w} {i : Nat} {x : BitVec w} (sp : Space) (h : m.known i = some x) :
    m.read sp i = x := by
  rw [Memory.read, h, Option.getD_some]

/-- The 32-bit value a host read gives is the number in the cell (R58). -/
theorem toNat_cellRead_sym (s : State) (i : Nat) : (cellRead s .sym i).toNat = (s.sym.read .sym i).toNat :=
  BitVec.toNat_setWidth_of_le (by decide)

theorem toNat_cellRead_bit (s : State) (i : Nat) : (cellRead s .bit i).toNat = (s.bit.read .bit i).toNat :=
  BitVec.toNat_setWidth_of_le (by decide)

theorem toNat_cellRead_tbl (s : State) (i : Nat) : (cellRead s .tbl i).toNat = (s.tbl.read .tbl i).toNat :=
  BitVec.toNat_setWidth_of_le (by decide)

/-- A host read gives a value of the cell's width (R58). -/
theorem toNat_cellRead_lt (s : State) (sp : Space) (i : Nat) : (cellRead s sp i).toNat < 2 ^ sp.width := by
  cases sp with
  | reg | freq => exact BitVec.isLt _
  | sym => rw [toNat_cellRead_sym]; exact BitVec.isLt _
  | bit => rw [toNat_cellRead_bit]; exact BitVec.isLt _
  | tbl => rw [toNat_cellRead_tbl]; exact BitVec.isLt _

/-- Settles O5. -/
theorem hostReadOfCell : Obligations.HostReadOfCell := fun s rest sp i hr hp _ hi => by
  refine ⟨cellRead s sp i, step_read hr hp hi, toNat_cellRead_lt s sp i, ?_, ?_, ?_, ?_⟩ <;> rintro x rfl hx
  · rw [cellRead, read_of_known .freq hx]
  · rw [toNat_cellRead_sym, read_of_known .sym hx]
  · rw [toNat_cellRead_bit, read_of_known .bit hx]
  · rw [toNat_cellRead_tbl, read_of_known .tbl hx]

/-- The host's queue is no part of what a cell holds. -/
@[simp] theorem cellRead_withPending (s : State) (p : List HostEvent) (sp : Space) (i : Nat) :
    cellRead { s with pending := p } sp i = cellRead s sp i := by
  cases sp <;> rfl

@[simp] theorem unspecified_withPending (s : State) (p : List HostEvent) (sp : Space) (i : Nat) :
    State.unspecified { s with pending := p } sp i = s.unspecified sp i := by
  cases sp <;> rfl

/-- A cell that was written reads as the value written (R59), and is specified. -/
theorem cellRead_cellWrite_self (s : State) {sp : Space} (i : Nat) {v : Nat} (hsp : sp ≠ .reg) (hv : v < 2 ^ sp.width) :
    (cellRead (cellWrite s sp i v) sp i).toNat = v ∧ (cellWrite s sp i v).unspecified sp i = false := by
  cases sp with
  | reg => exact absurd rfl hsp
  | freq => simpa [cellWrite, State.unspecified, cellRead, Space.width, Config.params] using hv
  | sym => simpa [cellWrite, State.unspecified, toNat_cellRead_sym, Space.width, Config.params] using hv
  | bit => simpa [cellWrite, State.unspecified, toNat_cellRead_bit, Space.width] using hv
  | tbl => simpa [cellWrite, State.unspecified, toNat_cellRead_tbl, Space.width] using hv

/-- A write of one cell leaves the other cells of its memory as they were (R59). -/
theorem cellRead_cellWrite_other (s : State) {sp : Space} {i j : Nat} (v : Nat) (hsp : sp ≠ .reg) (hj : j ≠ i) :
    cellRead (cellWrite s sp i v) sp j = cellRead s sp j ∧
      (cellWrite s sp i v).unspecified sp j = s.unspecified sp j := by
  cases sp with
  | reg => exact absurd rfl hsp
  | freq | sym | bit | tbl =>
    simp [cellWrite, cellRead, State.unspecified, Memory.read_write_other hj, Memory.known_write_other hj]

/-- A write of a memory cell leaves the registers and the other memories as they were (R59, R68). -/
theorem sameCells_cellWrite (s : State) {sp sp' : Space} (i v : Nat) (hsp : sp ≠ .reg) (hne : sp' ≠ sp) :
    SameCells sp' s (cellWrite s sp i v) := fun j => by
  cases sp with
  | reg => exact absurd rfl hsp
  | freq => cases sp' with
    | freq => exact absurd rfl hne
    | reg | sym | bit | tbl => exact ⟨rfl, rfl⟩
  | sym => cases sp' with
    | sym => exact absurd rfl hne
    | reg | freq | bit | tbl => exact ⟨rfl, rfl⟩
  | bit => cases sp' with
    | bit => exact absurd rfl hne
    | reg | freq | sym | tbl => exact ⟨rfl, rfl⟩
  | tbl => cases sp' with
    | tbl => exact absurd rfl hne
    | reg | freq | sym | bit => exact ⟨rfl, rfl⟩

/-- A write of a memory cell is no command, and no business of the host's side. -/
theorem cellWrite_host (s : State) {sp : Space} (i v : Nat) (hsp : sp ≠ .reg) :
    (cellWrite s sp i v).running = s.running ∧ (cellWrite s sp i v).pending = s.pending ∧
      (cellWrite s sp i v).rdata = s.rdata := by
  cases sp with
  | reg => exact absurd rfl hsp
  | freq | sym | bit | tbl => exact ⟨rfl, rfl, rfl⟩

/-- Settles O6: the step is a write of that one cell. -/
theorem hostWriteOfCell : Obligations.HostWriteOfCell := fun s rest sp i v hr hp hsp hi hv => by
  have hstep := (step_idle hr hp).trans (idleEvent_write hi hv fun h => hsp h.1)
  obtain ⟨hvalue, hspecified⟩ := cellRead_cellWrite_self { s with pending := rest } i hsp hv
  obtain ⟨hrunning, hhost⟩ := cellWrite_host { s with pending := rest } i v hsp
  refine ⟨_, hstep, hvalue, hspecified, fun j hj => ?_, fun sp' hne j => ?_, cellWrite_tree _ sp i v,
    hrunning.trans hr, hhost⟩
  · simpa using cellRead_cellWrite_other { s with pending := rest } v hsp hj
  · simpa using sameCells_cellWrite { s with pending := rest } i v hsp hne j

end Sys2Proof.Proofs
end

section
/-! The statements of 30_encoding.md: the command word (R81 to R84), the ERR word (R85, R86), the operands of a command (R84),
the table text (R96 to R105), and the pseudo-operations of the host script (R107). -/

namespace Sys2Proof.Proofs

open Sys2Proof.Machine

/-! ## The command word -/

/-- A command word is its reserved field above its operation code (R81). -/
theorem zeroField_append_opField (w : Word) : zeroField w ++ opField w = w := by
  apply BitVec.eq_of_toNat_eq
  simp only [zeroField, opField, BitVec.toNat_append, BitVec.extractLsb'_toNat]
  rw [← Nat.shiftLeft_add_eq_or_of_lt (Nat.mod_lt _ (by decide))]
  omega

/-- The codes 1 to 5 are the commands' (R82). -/
theorem exists_opcode {op : BitVec 8} (h1 : 1 ≤ op.toNat) (h5 : op.toNat ≤ 5) : ∃ i, opcode i = op := by
  have hop : op.toNat = 1 ∨ op.toNat = 2 ∨ op.toNat = 3 ∨ op.toNat = 4 ∨ op.toNat = 5 := by omega
  rcases hop with h | h | h | h | h
  · exact ⟨.build, BitVec.eq_of_toNat_eq h.symm⟩
  · exact ⟨.save, BitVec.eq_of_toNat_eq h.symm⟩
  · exact ⟨.load, BitVec.eq_of_toNat_eq h.symm⟩
  · exact ⟨.encode, BitVec.eq_of_toNat_eq h.symm⟩
  · exact ⟨.decode, BitVec.eq_of_toNat_eq h.symm⟩

/-- The fields of a command's word, from the laws of each command. -/
theorem commandWord_fields (i : Instr) : Laws.CommandWord.Statement i := by
  cases i with
  | build => exact Laws.CommandWord.build
  | save => exact Laws.CommandWord.save
  | load => exact Laws.CommandWord.load
  | encode => exact Laws.CommandWord.encode
  | decode => exact Laws.CommandWord.decode

/-- The decoder accepts a word by its two fields (R82). -/
theorem exists_decodeCmd_iff (w : Word) :
    (∃ i, decodeCmd w = .ok i) ↔ zeroField w = 0 ∧ 1 ≤ (opField w).toNat ∧ (opField w).toNat ≤ 5 := by
  constructor
  · rintro ⟨i, hi⟩
    obtain ⟨hzero, hop, h1, h5, -⟩ := commandWord_fields i
    rw [decodeCmd_eq_ok.mp hi, hop]
    exact ⟨hzero, h1, h5⟩
  · rintro ⟨hzero, h1, h5⟩
    obtain ⟨i, hi⟩ := exists_opcode h1 h5
    refine ⟨i, decodeCmd_eq_ok.mpr ?_⟩
    rw [← zeroField_append_opField w, hzero, ← hi, encode]

/-- Settles O8: the decoder accepts just the words of the encoder. -/
theorem legalCommandWords : Obligations.LegalCommandWords :=
  ⟨exists_decodeCmd_iff, fun _ => ⟨decodeCmd_eq_ok, decodeCmd_eq_ok, decodeCmd_eq_ok, decodeCmd_eq_ok, decodeCmd_eq_ok⟩⟩

/-- Settles O9. -/
theorem commandWordRoundTrip : Obligations.CommandWordRoundTrip := by
  refine ⟨fun i => ⟨?_, decodeCmd_encode i⟩, fun _ _ => decodeCmd_eq_ok.mp⟩
  obtain ⟨-, -, -, -, hwf⟩ := commandWord_fields i
  exact hwf

/-- A word the decoder rejects writes ERR and ERRPOS alone (R83). -/
theorem issue_of_error {w : Word} {r : DecodeReject} (h : decodeCmd w = .error r) (s : State) :
    issue w s = .next { s with err := 0x00000008, errpos := 0 } := by
  rw [issue, h]
  rfl

/-- Settles O10. -/
theorem illegalCommandOnlyReports : Obligations.IllegalCommandOnlyReports := by
  refine ⟨fun s w h1 h2 h3 h4 h5 => ?_, fun s rest w hr hp hw hword => ?_⟩
  · cases hd : decodeCmd w with
    | error r => exact issue_of_error hd s
    | ok i =>
      have hw := decodeCmd_eq_ok.mp hd
      cases i with
      | build => exact absurd hw h1
      | save => exact absurd hw h2
      | load => exact absurd hw h3
      | encode => exact absurd hw h4
      | decode => exact absurd hw h5
  · obtain ⟨r, hd⟩ := decodeCmd_error hw hword
    rw [step_idle hr hp, idleEvent_cmd hw, issue_of_error hd]

/-- Settles O48, word by word. -/
theorem errorWords : Obligations.ErrorWords := by
  unfold Obligations.ErrorWords
  decide

/-! ## The operands of a command -/

/-- The states `t` and `t'` agree on what the command `i` reports and on its output (R84). -/
def SameResult (i : Instr) (t t' : State) : Prop :=
  t.err = t'.err ∧ t.errpos = t'.errpos ∧
    match i with
    | .build | .load => t.tree = t'.tree ∧ t.nleaf = t'.nleaf
    | .save => t.tblLen = t'.tblLen ∧ tblInput t = tblInput t'
    | .encode => t.bitLen = t'.bitLen ∧ bitInput t = bitInput t'
    | .decode => t.symLen = t'.symLen ∧ symInput t = symInput t'

/-- The same failure leaves the same result: no tree, or an output of length 0 (R206). -/
theorem sameResult_fail (i : Instr) (r : Raise) (s s' : State) : SameResult i (fail i r s) (fail i r s') := by
  cases i with
  | build | load | save | encode | decode => exact ⟨rfl, rfl, rfl, rfl⟩

/-- A success leaves the output it writes, whatever else the state holds (R207). -/
theorem sameResult_putTree {i : Instr} (hi : writesTree i = true) (u : OptTree) (n : Nat) (s s' : State) :
    SameResult i (succeed (putTree s u n)) (succeed (putTree s' u n)) := by
  rcases writesTree_iff.mp hi with rfl | rfl <;> exact ⟨rfl, rfl, rfl, rfl⟩

theorem sameResult_putText {x : List Byte} (hx : x.length < 2 ^ 32) (s s' : State) :
    SameResult .save (succeed (putText s x)) (succeed (putText s' x)) :=
  ⟨rfl, rfl, rfl, (tblInput_putText hx).trans (tblInput_putText hx).symm⟩

theorem sameResult_putBits {x : List Bool} (hx : x.length < 2 ^ 32) (s s' : State) :
    SameResult .encode (succeed (putBits s x)) (succeed (putBits s' x)) :=
  ⟨rfl, rfl, rfl, (bitInput_putBits hx).trans (bitInput_putBits hx).symm⟩

theorem sameResult_putSyms {x : List Nat} (hx : x.length < 2 ^ 32) (s s' : State) :
    SameResult .decode (succeed (putSyms s x)) (succeed (putSyms s' x)) :=
  ⟨rfl, rfl, rfl, (symInput_putSyms_mod hx).trans (symInput_putSyms_mod hx).symm⟩

/-- Two runs that compute the same result `R` from their operands end alike, if a success writes an output that reads the
same in both; `hok` and `herr` are the two outcomes of the command. -/
theorem sameResult_of_exec {α : Type} {i : Instr} {R : State → Result α} {put : State → α → State} {s s' t t' : State}
    (hok : ∀ s x, R s = .ok x → exec i s = .next (succeed (put s x)))
    (herr : ∀ s r, R s = .error r → exec i s = .next (fail i r s))
    (h : exec i s = .next t) (h' : exec i s' = .next t') (hres : R s = R s')
    (hput : ∀ x, R s = .ok x → SameResult i (succeed (put s x)) (succeed (put s' x))) : SameResult i t t' := by
  cases hR : R s with
  | ok x =>
    cases (hok s x hR).symm.trans h
    cases (hok s' x (hres ▸ hR)).symm.trans h'
    exact hput x hR
  | error r =>
    cases (herr s r hR).symm.trans h
    cases (herr s' r (hres ▸ hR)).symm.trans h'
    exact sameResult_fail i r s s'

/-- Settles O52: a command computes its result from its operands alone, and an output that fits its memory reads back whole. -/
theorem commandsReadOnlyTheirOperands : Obligations.CommandsReadOnlyTheirOperands := fun i s s' t t' h h' hin => by
  cases i with
  | build =>
    exact sameResult_of_exec (R := fun u => buildTree 256 (freqInput u)) (put := fun u x => putTree u x.1 x.2)
      (fun _ _ => exec_build_ok) (fun _ _ => exec_build_error) h h' (congrArg (buildTree 256) hin)
      fun x _ => sameResult_putTree rfl x.1 x.2 s s'
  | save =>
    refine sameResult_of_exec (R := fun u => saveTree 131072 u.tree)
      (fun _ _ => exec_save_ok) (fun _ _ => exec_save_error) h h' (congrArg (saveTree 131072) hin) fun x hx => ?_
    obtain ⟨-, -, hout⟩ := saveTree_ok hx
    exact sameResult_putText (by omega) s s'
  | load =>
    obtain ⟨hlen, htext⟩ := hin
    exact sameResult_of_exec (R := loadInput) (put := fun u x => putTree u x.1 x.2)
      (fun _ _ => exec_load_ok) (fun _ _ => exec_load_error) h h' (by rw [loadInput, loadInput, hlen, htext])
      fun x _ => sameResult_putTree rfl x.1 x.2 s s'
  | encode =>
    obtain ⟨htree, hlen, hsyms⟩ := hin
    refine sameResult_of_exec (R := encodeInput) (fun _ _ => exec_encode_ok) (fun _ _ => exec_encode_error) h h'
      (by rw [encodeInput, encodeInput, htree, hlen, hsyms]) fun x hx => ?_
    obtain ⟨-, -, -, hout⟩ := encodeInput_ok hx
    exact sameResult_putBits (by omega) s s'
  | decode =>
    obtain ⟨htree, hlen, hbits⟩ := hin
    refine sameResult_of_exec (R := decodeInput) (fun _ _ => exec_decode_ok) (fun _ _ => exec_decode_error) h h'
      (by rw [decodeInput, decodeInput, htree, hlen, hbits]) fun x hx => ?_
    have hout := decodeInput_length_le hx
    exact sameResult_putSyms (by omega) s s'

/-! ## The table text -/

/-- Settles O31: SAVE's lines are the symbol line and the code line of each pair, and each reads as what it was written
from. -/
theorem formatRoundTrip : Obligations.FormatRoundTrip := fun A lenMax P hP => by
  rw [lines_fmt, pairLines_flatMap, List.map_map]
  refine ⟨by simp [List.length_flatMap, Nat.mul_comm], List.map_congr_left fun e he => ?_⟩
  obtain ⟨hsym, hne, hlen⟩ := hP e he
  rw [Function.comp_apply, parseSym_decText hsym, parseCode_chars hne hlen]

/-- Settles O26. -/
theorem textOfPairList : Obligations.TextOfPairList := ⟨rfl, fun _ _ _ => rfl, length_fmt⟩

/-- Settles O27: `k` digits write a number below `10 ^ k`, and `dec(s)` needs no more than `k` for such a number. -/
theorem decimalIsShortest : Obligations.DecimalIsShortest := by
  refine ⟨by decide, by decide, by decide, by decide, fun n => ⟨decText_ne_nil n,
    fun c hc => isDigit_iff.mp (isDigit_of_mem_decText hc), (ofDigits_decValue _).trans (decValue_decText n), head_decText,
    fun line hne hdigits hvalue => ?_⟩⟩
  refine length_decText_le_of_lt (List.length_pos_iff.mpr hne) ?_
  rw [← hvalue, ofDigits_decValue]
  exact decValue_lt hdigits

/-- Lines that hold no line feed, each followed by one, hold as many line feeds as they are (R100). -/
theorem count_lineFeed_flatMap {L : List (List Byte)} (h : ∀ l ∈ L, lineFeed ∉ l) :
    (L.flatMap fun l => l ++ [lineFeed]).count lineFeed = L.length := by
  induction L with
  | nil => rfl
  | cons l L ih =>
    obtain ⟨hl, hL⟩ := List.forall_mem_cons.mp h
    rw [List.flatMap_cons, List.count_append, List.count_append, List.count_eq_zero.mpr hl, ih hL,
      List.count_singleton_self, List.length_cons]
    omega

/-- A text has as many lines as line feeds, and one more for an end without one (R100). -/
theorem length_lines (t : List Byte) :
    (lines t).length = t.count lineFeed + if t = [] ∨ t.getLast? = some lineFeed then 0 else 1 := by
  rw [← count_lineFeed_flatMap fun _ => lineFeed_not_mem_lines, flatMap_lines]
  split
  · rfl
  · rw [List.count_append, List.count_singleton_self]

/-- Settles O28. -/
theorem linesOfText : Obligations.LinesOfText :=
  ⟨fun t => ⟨fun _ => lineFeed_not_mem_lines, flatMap_lines t, length_lines t⟩,
    by decide, by decide, by decide, by decide, by decide, by decide⟩

/-- A symbol line reads as the number its digits write (R101). -/
theorem parseSym_eq_some {A v : Nat} {line : List Byte} :
    parseSym A line = some v ↔ line ≠ [] ∧ line.all isDigit = true ∧ decValue line = v ∧ v < A := by
  unfold parseSym
  split
  · next hbad =>
    refine iff_of_false nofun fun ⟨hne, hdigits, _⟩ => ?_
    rcases hbad with h | h
    · exact hne h
    · exact absurd (hdigits.symm.trans h) (by decide)
  · next hgood =>
    obtain ⟨hne, hdigits⟩ := not_or.mp hgood
    split
    · next hlt =>
      simp only [Option.some.injEq]
      exact ⟨fun h => ⟨hne, Bool.of_not_eq_false hdigits, h, h ▸ hlt⟩, fun ⟨_, _, h, _⟩ => h⟩
    · next hge => exact iff_of_false nofun fun ⟨_, _, h, hlt⟩ => hge (h ▸ hlt)

/-- Settles O29. -/
theorem symbolLineReads : Obligations.SymbolLineReads := fun A line v => by
  simp only [parseSym_eq_some, List.all_eq_true, isDigit_iff, ofDigits_decValue]

/-- `L` lines are `⌈L / 2⌉` entries (R103). -/
theorem length_pairLines (L : List (List Byte)) : (pairLines L).length = (L.length + 1) / 2 := by
  induction L using pairLines.induct with
  | case1 => rfl
  | case2 sl => simp [pairLines]
  | case3 sl cl rest ih =>
    rw [pairLines, List.length_cons, ih, List.length_cons, List.length_cons]
    omega

/-- Entry `k` is the symbol line `2k` and the code line `2k + 1`, if there is one (R103). -/
theorem getElem?_pairLines {L : List (List Byte)} {k : Nat} (hk : k < (L.length + 1) / 2) :
    (pairLines L)[k]? = some (L.getD (2 * k) [], L[2 * k + 1]?) := by
  induction L using pairLines.induct generalizing k with
  | case1 => exact absurd hk (Nat.not_lt_zero k)
  | case2 sl =>
    obtain rfl : k = 0 := by rw [List.length_singleton] at hk; omega
    rfl
  | case3 sl cl rest ih =>
    cases k with
    | zero => rfl
    | succ k =>
      rw [List.length_cons, List.length_cons] at hk
      exact ih (by omega)

theorem isBitChar_eq_false_iff {c : Byte} : isBitChar c = false ↔ c ≠ 0x30 ∧ c ≠ 0x31 := by
  rw [← Bool.not_eq_true, bitChar_iff, not_or]

section
variable {lenMax : Nat} {line : List Byte}

/-- A code line with a character that is no bit (R102). -/
theorem parseCode_badCodeChar (hne : line ≠ []) (h : ∃ c ∈ line, c ≠ 0x30 ∧ c ≠ 0x31) :
    parseCode lenMax (some line) = .error .badCodeChar := by
  obtain ⟨c, hc, hbad⟩ := h
  have hall : line.all isBitChar = false := List.all_eq_false.mpr ⟨c, hc, by simp [isBitChar_eq_false_iff.mpr hbad]⟩
  rw [parseCode, if_neg hne, if_pos hall]

/-- A line of code characters is too long, or reads as one branch per byte (R102). -/
theorem parseCode_codeTooLong (hne : line ≠ []) (h : ∀ c ∈ line, c = 0x30 ∨ c = 0x31) (hlen : lenMax < line.length) :
    parseCode lenMax (some line) = .error .codeTooLong := by
  have hall : line.all isBitChar = true := List.all_eq_true.mpr fun c hc => bitChar_iff.mpr (h c hc)
  rw [parseCode, if_neg hne, if_neg (by simp [hall]), if_pos hlen]

theorem parseCode_ok (hne : line ≠ []) (h : ∀ c ∈ line, c = 0x30 ∨ c = 0x31) (hlen : line.length ≤ lenMax) :
    parseCode lenMax (some line) = .ok (line.map charBit) := by
  have hall : line.all isBitChar = true := List.all_eq_true.mpr fun c hc => bitChar_iff.mpr (h c hc)
  rw [parseCode, if_neg hne, if_neg (by simp [hall]), if_neg (Nat.not_lt.mpr hlen)]

end

/-- Settles O30. -/
theorem entriesAndCodeLines : Obligations.EntriesAndCodeLines := by
  refine ⟨fun L => ⟨length_pairLines L, fun k => getElem?_pairLines⟩, fun lenMax => ⟨rfl, rfl, fun line hne =>
    ⟨parseCode_badCodeChar hne, fun hbits => ⟨parseCode_codeTooLong hne hbits, fun hlen => ?_⟩⟩⟩⟩
  rw [parseCode_ok hne hbits hlen, map_charBit]

/-! ## The host script -/

/-- A PUT from cell 0 followed by the write of its length register (R107) is a run: the writes of the cells, then one more
step. -/
theorem run_put_then_length {n m v : Nat} {s u : State} {rest : List HostEvent} (hn : n < 8) (h0 : n ≠ 0) (hv : v < 2 ^ 32)
    (hrun : Host.Core.run Sys2Proof.core m s = .next u) (hr : u.running = none) (hp : u.pending = .write .reg n v :: rest) :
    Host.Core.run Sys2Proof.core (m + 1) s = .next (regWrite { u with pending := rest } n (BitVec.ofNat 32 v)) :=
  (run_add hrun).trans (run_one (wr_step n v hr hn h0 hv hp))

/-- The bits a host writes as 0 and 1 are the cells of BIT (R32). -/
theorem map_ofNat_toNat (bs : List Bool) : (bs.map Bool.toNat).map (BitVec.ofNat 1) = bs.map BitVec.ofBool := by
  rw [List.map_map]
  refine List.map_congr_left fun b _ => ?_
  cases b <;> rfl

/-- Settles O59: the run ends in the state with the sequence from cell 0 on, and its length in the length register. -/
theorem putScriptsStoreTheSequence : Obligations.PutScriptsStoreTheSequence := fun s rest hr hp => by
  subst hp
  refine ⟨fun vs hvs hlen => ?_, fun bs hlen => ?_, fun text hlen => ?_⟩
  · have hput := run_put_sym vs 0 (s.withScript (putSymLines vs)) (wrSymLen vs.length :: s.pending) hr
      (List.append_assoc ..) hvs (by omega)
    refine ⟨_, run_put_then_length (by decide) (by decide) (by omega) hput hr rfl, ?_, rfl, rfl⟩
    exact symInput_putSyms (s := s) (by omega) hvs
  · have hput := run_put_bit (bs.map Bool.toNat) 0 (s.withScript (putBitsLines bs)) (wrBitLen bs.length :: s.pending) hr
      (List.append_assoc ..) (List.forall_mem_map.mpr fun b _ => Bool.toNat_lt b) (by simpa using hlen)
    rw [List.length_map, map_ofNat_toNat] at hput
    refine ⟨_, run_put_then_length (by decide) (by decide) (by omega) hput hr rfl, ?_, rfl, rfl⟩
    exact bitInput_putBits (s := s) (by omega)
  · have hput := run_put_tbl (text.map BitVec.toNat) 0 (s.withScript (putTblLines text)) (wrTblLen text.length :: s.pending)
      hr (List.append_assoc ..) (List.forall_mem_map.mpr fun c _ => c.isLt) (by simpa using hlen)
    rw [List.length_map, ofNat_toNat_map] at hput
    refine ⟨_, run_put_then_length (by decide) (by decide) (by omega) hput hr rfl, ?_, rfl, rfl⟩
    exact tblInput_putText (s := s) (by omega)

end Sys2Proof.Proofs
end

section
/-! The statements of 40_builder.md: what BUILD leaves when it succeeds and when it fails (R122, R127, R128, R131), the
tree it makes of one symbol, of two, and of 256 equally frequent ones (R125, R133), that its collection has no order of
its own (R123, R126), and that the tree is optimal (R130). -/

namespace Sys2Proof.Proofs

open Sys2Proof.Machine

/-! ## The collection -/

/-- An item that comes before every other is the one removed (R123, R126). -/
theorem removeMin_cons_of_before {x : Item} {q : List Item} (h : ∀ y ∈ q, x.before y = true) :
    removeMin (x :: q) = some (x, q) := by
  rw [removeMin]
  cases hq : removeMin q with
  | none => rw [removeMin_eq_none.mp hq]
  | some mr =>
    obtain ⟨m, rest⟩ := mr
    have hm : m ∈ q := (removeMin_some hq).1.symm.subset List.mem_cons_self
    exact if_pos (h m hm)

/-- A pass on a collection listed in its order joins the first two items (R124). -/
theorem combine_cons_cons {A fuel k : Nat} {x y : Item} {q : List Item} (hx : ∀ z ∈ y :: q, x.before z = true)
    (hy : ∀ z ∈ q, y.before z = true) :
    combine A (fuel + 1) k (x :: y :: q) =
      combine A fuel (k + 1) (q ++ [{ freq := x.freq + y.freq, seq := A + k, tree := .node x.tree y.tree }]) := by
  rw [combine, removeMin_cons_of_before hx]
  simp only [removeMin_cons_of_before hy]

/-- The combine loop ends with one item (R124, R245). -/
theorem combine_eq_singleton {A k : Nat} {q : List Item} (hq : q ≠ []) : ∃ r, combine A q.length k q = [r] := by
  obtain ⟨r, hr, -⟩ := combine_induct (A := A) (fuel := q.length) (k := k) (I := fun _ => True)
    (fun _ _ _ _ => trivial) (fun _ _ _ _ _ _ => trivial) hq (by omega) trivial
  exact ⟨r, hr⟩

/-- The tree made of a collection does not depend on the order in which its items are listed (R126). -/
theorem itemsTree_perm {A : Nat} {q q' : List Item} (hp : q.Perm q') (hnd : (q.map Item.seq).Nodup)
    (hlt : ∀ x ∈ q, x.seq < A) : itemsTree A q = itemsTree A q' := by
  match q with
  | [] => rw [hp.symm.eq_nil]
  | [x] => rw [List.perm_singleton.mp hp.symm]
  | x :: y :: rest =>
    have hlen := hp.length_eq
    obtain ⟨r, hr⟩ := combine_eq_singleton (A := A) (k := 0) (q := x :: y :: rest) (by simp)
    have hr' := combine_perm (A := A) (fuel := (x :: y :: rest).length) (k := 0) hp hnd hlt
    rw [hr, hlen] at hr'
    rw [itemsTree_of_two (by simp) hr,
      itemsTree_of_two (by rw [← hlen]; simp) (List.perm_singleton.mp hr'.symm)]

/-- Settles O21. With distinct sequence numbers an item before which none of the others comes is before each of them. -/
theorem queueRemovesTheLeast : Obligations.QueueRemovesTheLeast := by
  refine ⟨fun q rest x hx hnd => ?_, fun q => removeMin_of_ne_nil, fun A q q' => itemsTree_perm⟩
  obtain ⟨hp, hmin⟩ := removeMin_some hx
  refine ⟨hp, fun y hy => ?_⟩
  have hseq : x.seq ≠ y.seq := by
    have hnd' := ((hp.map Item.seq).nodup_iff).mp hnd
    rw [List.map_cons, List.nodup_cons] at hnd'
    exact fun he => hnd'.1 (he ▸ List.mem_map_of_mem hy)
  have hyx := hmin y hy
  rw [Bool.eq_false_iff, ne_eq, Item.before_iff] at hyx
  omega

/-! ## Success and failure of BUILD -/

/-- STATUS of an idle core with a tree: TREE_VALID alone (R23). -/
theorem status_of_tree {t : State} (hr : t.running = none) (ht : t.tree ≠ .absent) : t.status = 0x00000002 := by
  rw [status_idle hr, treeValid_iff.mpr ht]
  rfl

/-- STATUS of an idle core without a tree (R23). -/
theorem status_of_no_tree {t : State} (hr : t.running = none) (ht : t.tree = .absent) : t.status = 0 := by
  rw [status_idle hr, State.treeValid, ht]
  rfl

/-- BUILD of a table in which a symbol occurs succeeds (R127). -/
theorem exec_build_of_present {s : State} (h : present (freqInput s) ≠ []) :
    ∃ t, exec .build s = .next t ∧ t.err = 0 := by
  rcases exec_build_cases s with ⟨t, n, -, he⟩ | ⟨r, hr, -⟩
  · exact ⟨_, he, succeed_err _⟩
  · rw [buildTree, if_neg (mt leafItems_eq_nil.mp h)] at hr
    cases hr

/-- Settles O12. -/
theorem buildSucceeds : Obligations.BuildSucceeds := fun s a ha hfa => by
  have hocc : a ∈ present (freqInput s) := by
    rw [present_input]
    simpa using ⟨ha, hfa⟩
  obtain ⟨u, hexec, herr⟩ := exec_build_of_present (List.ne_nil_of_mem hocc)
  obtain ⟨t, hbuild, rfl, hvalid, hsyms⟩ := build_next hexec herr
  have htree : t ≠ .absent := OptTree.ne_absent_of_isNode hvalid.1
  exact ⟨t, _, hbuild, hexec, rfl, status_of_tree rfl htree, hvalid, leafCount_le hvalid, present_input s ▸ hsyms⟩

/-- Settles O13: no symbol occurs. -/
theorem buildOfZerosFails : Obligations.BuildOfZerosFails := fun s hzero => by
  have hocc : present (freqInput s) = [] := by
    rw [present_input, List.filter_eq_nil_iff]
    intro b hb
    simp [hzero b (List.mem_range.mp hb)]
  exact ⟨_, exec_build_error (buildTree_zero hocc), status_of_no_tree rfl rfl, rfl⟩

/-- Settles O19: FREQ is the operand of BUILD. -/
theorem buildDependsOnFreqOnly : Obligations.BuildDependsOnFreqOnly := fun s s' t t' hcells h h' => by
  have hin : freqInput s = freqInput s' := List.map_congr_left fun a ha => by
    rw [hcells a (List.mem_range.mp ha)]
  obtain ⟨herr, hpos, htree, hleaves⟩ := commandsReadOnlyTheirOperands .build s s' t t' h h' hin
  exact ⟨htree, hleaves, herr, hpos⟩

/-! ## One symbol and two symbols -/

/-- Settles O14. -/
theorem buildOfSingleSymbol : Obligations.BuildOfSingleSymbol := fun s a ha hfa hother => by
  have hocc : present (freqInput s) = [a] := by
    rw [present_input]
    exact filter_range_singleton ha (by simpa using hfa) fun b hb hne => by simpa using hother b hb hne
  exact ⟨exec_build_ok (buildTree_one hocc), by simp [OptTree.codeOf, OptTree.pairs_node]⟩

/-- Of two items the one that comes first becomes the left child (R123, R124). -/
theorem itemsTree_pair (A : Nat) (x y : Item) :
    itemsTree A [x, y] = if x.before y then .node x.tree y.tree else .node y.tree x.tree := by
  cases h : x.before y <;> simp [itemsTree, combine, removeMin, h]

/-- BUILD of two symbols: the less frequent one is the left child, and of equal ones the lower (R123, R133). -/
theorem buildTree_pair {A a b : Nat} {freqs : List Nat} (hab : a < b) (h : present freqs = [a, b]) :
    buildTree A freqs = .ok
      (if freqs.getD a 0 ≤ freqs.getD b 0 then .node (.leaf a) (.leaf b) else .node (.leaf b) (.leaf a), 2) := by
  have hfirst : (Item.mk (freqs.getD a 0) a (.leaf a)).before ⟨freqs.getD b 0, b, .leaf b⟩ = true ↔
      freqs.getD a 0 ≤ freqs.getD b 0 := by
    rw [Item.before_iff]
    dsimp only
    omega
  rw [buildTree, leafItems_eq, h, List.map_cons, List.map_cons, List.map_nil, if_neg (List.cons_ne_nil _ _),
    itemsTree_pair, if_congr hfirst rfl rfl]
  rfl

/-- Settles O15. -/
theorem buildOfTwoSymbols : Obligations.BuildOfTwoSymbols := fun s a b hab hb hfa hfb hother => by
  have hocc : present (freqInput s) = [a, b] := by
    rw [present_input]
    exact filter_range_pair hab hb (by simpa using hfa) (by simpa using hfb) fun c hc hca hcb => by
      simpa using hother c hc hca hcb
  have hbuild := buildTree_pair (A := 256) hab hocc
  rw [getD_freqInput, getD_freqInput, if_pos (hab.trans hb), if_pos hb] at hbuild
  exact exec_build_ok hbuild

/-! ## Equal frequencies -/

/-- The item a pass makes of the items `2 * b` and `2 * b + 1` of a round that began with the counter `k` (R124). -/
def joinedItem (A k : Nat) (g : Nat → Item) (b : Nat) : Item :=
  { freq := (g (2 * b)).freq + (g (2 * b + 1)).freq, seq := A + (k + b)
    tree := .node (g (2 * b)).tree (g (2 * b + 1)).tree }

/-- The tree of depth `d` over the first `2 ^ d` of the subtrees `t`, left to right. -/
def perfectTree : Nat → (Nat → OptTree) → OptTree
  | 0, t => t 0
  | d + 1, t => perfectTree d fun b => .node (t (2 * b)) (t (2 * b + 1))

/-- The binary digits of a number, `d` of them, most significant first. -/
def binaryDigits (d a : Nat) : List Bool := (List.range d).map fun k => a.testBit (d - 1 - k)

theorem binaryDigits_succ (d a : Nat) : binaryDigits (d + 1) a = binaryDigits d (a / 2) ++ [a.testBit 0] := by
  rw [binaryDigits, List.range_succ, List.map_append, binaryDigits]
  congr 1
  · refine List.map_congr_left fun k hk => ?_
    have hk := List.mem_range.mp hk
    rw [Nat.testBit_div_two]
    congr 1
    omega
  · simp

/-- The digits of `a` lead to the subtree `a` of a perfect tree. -/
theorem descend_perfectTree (d : Nat) (t : Nat → OptTree) {a : Nat} (ha : a < 2 ^ d) :
    (perfectTree d t).descend (binaryDigits d a) = t a := by
  induction d generalizing t a with
  | zero =>
    obtain rfl : a = 0 := by simpa using ha
    rfl
  | succ d ih =>
    rw [binaryDigits_succ, OptTree.descend_append, perfectTree, ih _ (by rw [pow_succ] at ha; omega)]
    simp only [OptTree.descend, OptTree.child, Nat.testBit_zero, decide_eq_true_eq]
    split
    · congr 1; omega
    · congr 1; omega

/-- A round of the combine loop over items of one positive frequency, the first `j` joined items at the end of the
collection: each pass joins the next two (R123: every joined item is heavier). -/
theorem combine_round {A k w : Nat} {g : Nat → Item} (hw : 0 < w) (hfreq : ∀ b, (g b).freq = w)
    (hseq : StrictMono fun b => (g b).seq) (fuel m j : Nat) :
    combine A (fuel + m) (k + j) ((List.range' (2 * j) (2 * m)).map g ++ (List.range j).map (joinedItem A k g)) =
      combine A fuel (k + (j + m)) ((List.range (j + m)).map (joinedItem A k g)) := by
  induction m generalizing j with
  | zero => rfl
  | succ m ih =>
    have hbefore {b c : Nat} (hbc : b < c) : (g b).before (g c) = true :=
      Item.before_iff.mpr (.inr ⟨by rw [hfreq, hfreq], hseq hbc⟩)
    have hjoined (b c : Nat) : (g b).before (joinedItem A k g c) = true :=
      Item.before_iff.mpr (.inl (by simp only [joinedItem, hfreq]; omega))
    have hmin (b n : Nat) : ∀ y ∈ (List.range' (b + 1) n).map g ++ (List.range j).map (joinedItem A k g),
        (g b).before y = true := by
      simp only [List.mem_append, List.mem_map, List.mem_range'_1]
      rintro y (⟨c, hc, rfl⟩ | ⟨c, -, rfl⟩)
      · exact hbefore (by omega)
      · exact hjoined b c
    have hx := hmin (2 * j) (2 * m + 1)
    rw [List.range'_succ, List.map_cons, List.cons_append] at hx
    have hlast : (List.range (j + 1)).map (joinedItem A k g) =
        (List.range j).map (joinedItem A k g) ++ [joinedItem A k g j] := by
      rw [List.range_succ, List.map_append, List.map_singleton]
    have hnext := ih (j + 1)
    rw [hlast, ← List.append_assoc] at hnext
    rw [Nat.mul_succ, List.range'_succ, List.range'_succ, List.map_cons, List.map_cons, List.cons_append,
      List.cons_append, ← Nat.add_assoc, combine_cons_cons hx (hmin (2 * j + 1) (2 * m)),
      show j + (m + 1) = j + 1 + m by omega]
    exact hnext

/-- The combine loop makes a perfect tree of `2 ^ d` items of one positive frequency, in the order of their sequence
numbers. -/
theorem combine_equal {A w : Nat} {g : Nat → Item} (hw : 0 < w) (hfreq : ∀ b, (g b).freq = w)
    (hseq : StrictMono fun b => (g b).seq) {d fuel : Nat} (k : Nat) (hf : 2 ^ d ≤ fuel + 1) :
    ∃ r, combine A fuel k ((List.range (2 ^ d)).map g) = [r] ∧ r.tree = perfectTree d fun b => (g b).tree := by
  induction d generalizing g w fuel k with
  | zero => exact ⟨g 0, combine_short (by simp), rfl⟩
  | succ d ih =>
    rw [pow_succ] at hf ⊢
    have hpos : 0 < 2 ^ d := by positivity
    have hround := combine_round (A := A) (k := k) hw hfreq hseq (fuel - 2 ^ d) (2 ^ d) 0
    rw [Nat.sub_add_cancel (by omega), Nat.mul_zero, ← List.range_eq_range', Nat.mul_comm, List.range_zero,
      List.map_nil, List.append_nil, Nat.zero_add] at hround
    have hseq' : StrictMono fun b => (joinedItem A k g b).seq := fun b c hbc => by
      simp only [joinedItem]; omega
    obtain ⟨r, hr, htree⟩ := ih (g := joinedItem A k g) (w := w + w) (by omega)
      (fun b => by simp only [joinedItem, hfreq]) hseq' (k + 2 ^ d) (fuel := fuel - 2 ^ d) (by omega)
    exact ⟨r, hround.trans hr, htree⟩

/-- BUILD of `2 ^ d` symbols, two or more, of one positive frequency (R133). -/
theorem buildTree_equal {A d f : Nat} {freqs : List Nat} (hd : 1 ≤ d) (hf : 0 < f) (hlen : freqs.length = 2 ^ d)
    (hfreqs : ∀ a, a < 2 ^ d → freqs.getD a 0 = f) : buildTree A freqs = .ok (perfectTree d .leaf, 2 ^ d) := by
  have hocc : present freqs = List.range (2 ^ d) := by
    rw [present, hlen, List.filter_eq_self]
    intro a ha
    rw [hfreqs a (List.mem_range.mp ha)]
    exact decide_eq_true hf
  have hitems : leafItems freqs = (List.range (2 ^ d)).map fun a => { freq := f, seq := a, tree := .leaf a } := by
    rw [leafItems_eq, hocc]
    exact List.map_congr_left fun a ha => by rw [hfreqs a (List.mem_range.mp ha)]
  have hcount : (leafItems freqs).length = 2 ^ d := by rw [hitems, List.length_map, List.length_range]
  have htwo : 2 ≤ (leafItems freqs).length := hcount ▸ Nat.le_self_pow (by omega) 2
  obtain ⟨r, hr, htree⟩ := combine_equal (A := A) hf (g := fun a => { freq := f, seq := a, tree := .leaf a })
    (fun _ => rfl) strictMono_id 0 (Nat.le_succ_of_le hcount.ge)
  rw [← hitems] at hr
  rw [buildTree, if_neg (List.ne_nil_of_length_pos (by omega)), itemsTree_of_two htwo hr, htree, hcount]

/-- Settles O20: the tree is perfect, and the binary digits of a symbol lead to its leaf. -/
theorem buildOfEqualFrequencies : Obligations.BuildOfEqualFrequencies := fun s f hf hcells => by
  have hpos : 0 < f.toNat := Nat.pos_of_ne_zero fun h0 => hf (BitVec.eq_of_toNat_eq h0)
  have hbuild := buildTree_equal (A := 256) (d := 8) (by decide) hpos (length_freqInput s) fun a ha => by
    rw [getD_freqInput, if_pos (show a < 256 from ha), hcells a ha]
  have hexec := exec_build_ok hbuild
  refine ⟨_, hexec, rfl, fun a ha => ?_⟩
  obtain ⟨t, hbuild', -, hvalid, -⟩ := build_next hexec (succeed_err _)
  cases hbuild.symm.trans hbuild'
  obtain ⟨-, -, -, hnodup, -⟩ := hvalid
  exact (OptTree.codeOf_eq_some_iff hnodup).mpr (OptTree.mem_pairs_iff_descend.mpr (descend_perfectTree 8 .leaf ha))

/-! ## The weighted sum -/

/-- Settles O17. -/
theorem buildIsOptimal : Obligations.BuildIsOptimal := fun s t hexec herr c hprefix hne => by
  obtain ⟨u, hbuild, rfl, hvalid, hsyms⟩ := build_next hexec herr
  have hocc {a : Nat} (ha : a ∈ present (freqInput s)) : a < 256 ∧ s.freq.read .freq a ≠ 0 := by
    simpa [present_input] using ha
  have hfree : (present (freqInput s)).Pairwise fun a b => ¬ Collide (c a) (c b) :=
    (nodup_present _).imp_of_mem fun {a b} ha hb hab hcol => by
      obtain ⟨ha, hfa⟩ := hocc ha
      obtain ⟨hb, hfb⟩ := hocc hb
      rcases hcol with hcol | hcol
      · exact hprefix a b ha hb hfa hfb hab hcol
      · exact hprefix b a hb ha hfb hfa hab.symm hcol
  calc ((List.range 256).map fun a => (s.freq.read .freq a).toNat * ((u.codeOf a).getD []).length).sum
    _ = u.cost fun a => (freqInput s).getD a 0 := weighted_eq_cost hvalid hsyms
    _ ≤ ((present (freqInput s)).map fun a => (freqInput s).getD a 0 * (c a).length).sum :=
      cost_buildTree_le hbuild hfree fun a ha => hne a (hocc ha).1 (hocc ha).2
    _ = ((List.range 256).map fun a => (s.freq.read .freq a).toNat * (c a).length).sum := (sum_range_present s _).symm

/-- The weighted sum of a tree depends on the frequencies of its own symbols only. -/
theorem cost_congr {f g : Nat → Nat} {t : OptTree} (h : ∀ a ∈ t.symbols, f a = g a) : t.cost f = t.cost g := by
  refine congrArg List.sum (List.map_congr_left fun e he => ?_)
  rw [h e.1 (OptTree.mem_symbols_iff.mpr ⟨e.2, he⟩)]

/-- Settles O18. -/
theorem buildCostIsInternalSum : Obligations.BuildCostIsInternalSum := fun s t hexec herr => by
  obtain ⟨u, -, rfl, hvalid, hsyms⟩ := build_next hexec herr
  have ⟨_, _, hbelow, _, _⟩ := hvalid
  have hfreq (a : Nat) (ha : a ∈ u.symbols) : (freqInput s).getD a 0 = (s.freq.read .freq a).toNat := by
    rw [getD_freqInput, if_pos (hbelow a ha)]
  refine ⟨?_, ?_⟩
  · exact (weighted_eq_cost hvalid hsyms).trans ((cost_congr hfreq).trans (OptTree.cost_eq_internalSum _ u))
  · calc (u.symbols.map fun a => (s.freq.read .freq a).toNat).sum
      _ = (u.symbols.map fun a => (freqInput s).getD a 0).sum :=
        congrArg List.sum (List.map_congr_left fun a ha => (hfreq a ha).symm)
      _ = ((present (freqInput s)).map fun a => (freqInput s).getD a 0).sum := (hsyms.map _).sum_eq
      _ = ((List.range 256).map fun a => (s.freq.read .freq a).toNat).sum := by
        simpa using (sum_range_present s fun _ => 1).symm

end Sys2Proof.Proofs
end

section
/-! The statements of 41_codec.md: what SAVE writes and where it stops (R141 to R145), what an insertion does and when it
conflicts (R153, R154), which check ends a LOAD (R151, R152, R156), which tables load and with what (R157 to R160), and
that LOAD after SAVE restores TREE (R159). -/

namespace Sys2Proof.Proofs

open Sys2Proof.Machine

/-! ## LOAD after SAVE -/

/-- The invariant makes a TREE that is there a valid one. -/
theorem valid_of_inv {s : State} (hs : Inv s) (htree : s.tree ≠ .absent) : s.tree.Valid 256 255 :=
  hs.tree.resolve_left htree

/-- A text that is not longer than TBL is read whole (R151). -/
theorem loadInput_of_le {s : State} (hlen : s.tblLen.toNat ≤ 131072) :
    loadInput s = loadTable 256 255 (tblInput s) := if_neg (Nat.not_lt.mpr hlen)

/-- What LOAD computes depends on TBL and TBL_LEN alone (R84). -/
theorem loadInput_congr {s t : State} (htbl : t.tbl = s.tbl) (hlen : t.tblLen = s.tblLen) :
    loadInput t = loadInput s := by
  rw [loadInput, loadInput, hlen, tblInput_congr htbl hlen]

/-- Settles O37: LOAD reads the text of the pairs of the saved tree, which is determined by them. -/
theorem saveThenLoadRestoresTheTree : Obligations.SaveThenLoadRestoresTheTree := fun s hs htree => by
  have hv := valid_of_inv hs htree
  refine ⟨_, exec_save_of_valid hv, succeed_err _, fun s₂ htbl hlen => ?_⟩
  have hload : loadInput s₂ = .ok (s.tree, s.tree.leafCount) := by
    have hfits := (length_fmt_pairs_le hv).trans_eq tableBytesMax_eq
    rw [loadInput_congr htbl hlen, loadInput_succeed_putText s (by omega), loadTable_fmt_pairs hv]
  have hnleaf : BitVec.ofNat 32 s.tree.leafCount = s.nleaf := by
    rw [← hs.nleaf, BitVec.ofNat_toNat, BitVec.setWidth_eq]
  exact ⟨_, exec_load_ok hload, succeed_err _, rfl, hnleaf⟩

/-! ## SAVE -/

/-- SAVE: it writes the text of the pairs of TREE, which fits TBL, or it fails (R143 to R145). -/
theorem save_next {s t : State} (hexec : exec .save s = .next t) :
    ((fmt s.tree.pairs).length ≤ 131072 ∧ t = succeed (putText s (fmt s.tree.pairs))) ∨
    ∃ r, saveTree 131072 s.tree = .error r ∧ t = fail .save r s := by
  rcases exec_save_cases s with ⟨x, hx, he⟩ | ⟨r, hr, he⟩ <;> rw [he] at hexec <;> cases hexec
  · obtain ⟨-, rfl, hlen⟩ := saveTree_ok hx
    exact .inl ⟨hlen, rfl⟩
  · exact .inr ⟨r, hr, rfl⟩

/-- Settles O23. -/
theorem saveWritesTheTable : Obligations.SaveWritesTheTable := by
  refine ⟨fun s hs htree => ⟨_, exec_save_of_valid (valid_of_inv hs htree), succeed_err _⟩, fun s t hexec herr => ?_,
    fun s t hexec herr => ?_⟩
  · obtain ⟨hlen, rfl⟩ | ⟨r, -, rfl⟩ := save_next hexec
    · exact ⟨succeed_errpos _, toNat_ofNat_length hlen (by decide),
        (tblInput_congr (succeed_tbl _) (succeed_tblLen _)).trans (tblInput_putText (by omega)),
        fun k hk => Memory.read_writeList_outside (.inr (by omega)), succeed_tree _⟩
    · exact absurd herr (errWord_ne_zero r.failure)
  · obtain ⟨-, rfl⟩ | ⟨r, hr, rfl⟩ := save_next hexec
    · exact absurd (succeed_err _) herr
    · exact ⟨fail_tblLen .save r s, fun _ => rfl, ⟨r, hr, fail_err .save r s, fail_errpos .save r s⟩, fail_tree .save r s⟩

/-- Settles O25. -/
theorem saveFailsAtFirstPairThatDoesNotFit : Obligations.SaveFailsAtFirstPairThatDoesNotFit := by
  refine ⟨fun cap t htree hfits => ?_, fun cap t htree hover => ?_, fun t hv => ?_⟩
  · rw [saveTree, if_neg htree]
    exact saveLoop_ok (by omega)
  · rw [saveTree, if_neg htree]
    simpa using saveLoop_error (k := 0) (Nat.zero_le cap) (by omega : cap < 0 + (fmt t.pairs).length)
  · have hbound := (length_fmt_pairs_le hv).trans_eq tableBytesMax_eq
    omega

/-- Settles O24: the check for a tree is the first one of each of the three commands (R141, R174, R185). -/
theorem noTreeComesFirst : Obligations.NoTreeComesFirst := fun _ htree =>
  ⟨exec_save_error (r := ⟨.noTree, 0⟩) (if_pos htree), exec_encode_error (r := ⟨.noTree, 0⟩) (if_pos htree),
    exec_decode_error (r := ⟨.noTree, 0⟩) (if_pos htree)⟩

/-! ## An insertion -/

/-- Settles O32. -/
theorem insertionConflictsOnPrefixes : Obligations.InsertionConflictsOnPrefixes := fun s p n hp hn hchildren => by
  refine ⟨(insertPath_none_iff hn hchildren hp).trans Prod.exists, fun t ht => ?_⟩
  obtain ⟨hnode, hpairs, hbare⟩ := insertPath_some hn ht
  exact ⟨hnode, hbare hchildren, hpairs⟩

/-! ## One entry -/

section
variable {A lenMax s : Nat} {e : List Byte × Option (List Byte)} {n : OptTree} {placed : List Nat} {c : List Bool}

/-- The first check (R152): the symbol line. -/
theorem loadEntry_badSymbol (hsym : parseSym A e.1 = none) : loadEntry A lenMax e n placed = .error .badSymbol := by
  rw [loadEntry, hsym]

/-- The three checks of the code line come next (R152). -/
theorem loadEntry_of_parseCode_error {f : Failure} (hsym : parseSym A e.1 = some s)
    (hcode : parseCode lenMax e.2 = .error f) : loadEntry A lenMax e n placed = .error f := by
  simp only [loadEntry, hsym, hcode]

/-- The fifth check (R152): the symbol is new. -/
theorem loadEntry_dupSymbol (hsym : parseSym A e.1 = some s) (hcode : parseCode lenMax e.2 = .ok c)
    (hdup : s ∈ placed) : loadEntry A lenMax e n placed = .error .dupSymbol := by
  simp only [loadEntry, hsym, hcode, if_pos hdup]

/-- The last check (R152): the insertion. -/
theorem loadEntry_pathConflict (hsym : parseSym A e.1 = some s) (hcode : parseCode lenMax e.2 = .ok c)
    (hnew : s ∉ placed) (hins : insertPath s c n = none) : loadEntry A lenMax e n placed = .error .pathConflict := by
  simp only [loadEntry, hsym, hcode, if_neg hnew, hins]

end

/-- LOAD's failure at an entry is the failure of its loop (R152, R157). -/
theorem loadTable_of_loadLoop_error {A lenMax : Nat} {text : List Byte} {r : Raise}
    (h : loadLoop A lenMax (entries text) 0 (.node .absent .absent) [] = .error r) : loadTable A lenMax text = .error r := by
  have hne : entries text ≠ [] := fun h0 => by rw [h0, loadLoop] at h; cases h
  rw [loadTable, if_neg hne, h]

/-- Settles O33: the six checks one by one, then the loop up to the entry that fails. -/
theorem loadReportsFirstFailingEntry : Obligations.LoadReportsFirstFailingEntry := by
  refine ⟨fun A lenMax sl cl n placed => ⟨fun hsym => loadEntry_badSymbol hsym, fun s hsym => ⟨?_, ?_⟩⟩,
    fun s pre post e t f hlen hentries hpre hfail => ?_⟩
  · rintro (rfl | rfl)
    · exact loadEntry_of_parseCode_error hsym rfl
    · exact loadEntry_of_parseCode_error hsym rfl
  · rintro line rfl hne
    refine ⟨fun hbad => loadEntry_of_parseCode_error hsym (parseCode_badCodeChar hne hbad), fun hbits =>
      ⟨fun hlong => loadEntry_of_parseCode_error hsym (parseCode_codeTooLong hne hbits hlong), fun hlen => ?_⟩⟩
    have hcode := parseCode_ok hne hbits hlen
    rw [map_charBit]
    exact ⟨loadEntry_dupSymbol hsym hcode, fun hnew => ⟨loadEntry_pathConflict hsym hcode hnew,
      fun t hins => loadEntry_ok.mpr ⟨_, hsym, hcode, hnew, hins⟩⟩⟩
  · have hloop := loadLoop_first_error (post := post) (loadInv_root 256 255) hpre hfail
    rw [← hentries, Nat.zero_add] at hloop
    exact exec_load_error ((loadInput_of_le hlen).trans (loadTable_of_loadLoop_error hloop))

/-! ## The whole table -/

/-- Settles O34: no insertion conflicts. -/
theorem loadAcceptsEveryPrefixCode : Obligations.LoadAcceptsEveryPrefixCode :=
  fun s P hlen hne hread hP hnodup hprefix => by
    obtain ⟨t, ht, hpairs, -⟩ := loadTable_of_loadable hne hread (loadable_root hP hnodup hprefix)
    exact ⟨t, exec_load_ok ((loadInput_of_le hlen).trans ht), (loadTable_ok ht).1, hpairs⟩

/-- A table that loads reads as a list of pairs, those of the tree (R152, R159). -/
theorem loadTable_pairs {A lenMax k : Nat} {text : List Byte} {t : OptTree} (h : loadTable A lenMax text = .ok (t, k)) :
    ∃ P : List (Nat × List Bool),
      ((entries text).map fun e => (parseSym A e.1, parseCode lenMax e.2)) = P.map (fun e => (some e.1, .ok e.2)) ∧
      t.pairs.Perm P := by
  rw [loadTable] at h
  split at h
  · cases h
  · split at h
    · next u hloop =>
      cases h
      simpa [OptTree.pairs_node] using loadLoop_pairs (loadInv_root A lenMax) hloop
    · cases h

/-- What a LOAD that succeeds leaves (R158, R159). -/
theorem load_next {s t : State} (hexec : exec .load s = .next t) (herr : t.err = 0) :
    ∃ P : List (Nat × List Bool), (entries (tblInput s)).map readEntry = P.map (fun e => (some e.1, .ok e.2)) ∧
      t.tree.pairs.Perm P ∧ t.nleaf = BitVec.ofNat 32 P.length ∧ ValidTree t.tree := by
  rcases exec_load_cases s with ⟨u, n, hu, he⟩ | ⟨r, -, he⟩ <;> rw [he] at hexec <;> cases hexec
  · obtain ⟨hv, rfl, htable⟩ := loadInput_ok hu
    obtain ⟨P, hread, hpairs⟩ := loadTable_pairs htable
    refine ⟨P, hread, hpairs, congrArg (BitVec.ofNat 32) ?_, hv⟩
    rw [← OptTree.length_pairs, hpairs.length_eq]
  · exact absurd herr (errWord_ne_zero r.failure)

/-- What the entries of a table that loads read as, their failures left out. -/
theorem readEntry_toOption {s : State} {P : List (Nat × List Bool)}
    (hread : (entries (tblInput s)).map readEntry = P.map fun e => (some e.1, .ok e.2)) :
    ((entries (tblInput s)).map fun e => (parseSym 256 e.1, (parseCode 255 e.2).toOption)) =
      P.map fun e => (some e.1, some e.2) := by
  have h := congrArg (List.map (Prod.map id Except.toOption)) hread
  rwa [List.map_map, List.map_map] at h

/-- Settles O35: the pairs of a valid tree determine it, in whatever order they are listed. -/
theorem loadedTreeIsTheTable : Obligations.LoadedTreeIsTheTable := by
  refine ⟨fun s t => load_next, fun s s' t t' hexec herr hexec' herr' hperm => ?_⟩
  obtain ⟨P, hread, hpairs, -, -, hbare, -⟩ := load_next hexec herr
  obtain ⟨P', hread', hpairs', -, -, hbare', -⟩ := load_next hexec' herr'
  have hinj : Function.Injective fun e : Nat × List Bool => (some e.1, some e.2) := fun a b hab => by
    simpa [Prod.ext_iff] using hab
  rw [readEntry_toOption hread, readEntry_toOption hread', List.map_perm_map_iff hinj] at hperm
  exact OptTree.eq_of_pairs_perm hbare hbare' ((hpairs.trans hperm).trans hpairs'.symm)

/-- Settles O36. -/
theorem loadLengthChecks : Obligations.LoadLengthChecks := fun s => by
  refine ⟨fun hlong => exec_load_error (r := ⟨.inputLen, 0⟩) (if_pos hlong), fun hzero =>
    exec_load_error (r := ⟨.emptyTable, 0⟩) ?_⟩
  have hlen : s.tblLen.toNat = 0 := congrArg BitVec.toNat hzero
  have htext : tblInput s = [] := List.eq_nil_of_length_eq_zero ((length_tblInput s).trans hlen)
  rw [loadInput_of_le (by omega), htext]
  rfl

end Sys2Proof.Proofs
end

section
/-! The statements of 42_transcoder.md: that ENCODE and DECODE undo each other (R190), what each writes on success and on
failure (R172, R176, R187), how many bits ENCODE produces (R192), and with which failure, at which position, a bad input
ends (R173, R174, R183 to R185, R188). -/

namespace Sys2Proof.Proofs

open Sys2Proof.Machine

/-! ## What the two commands leave -/

/-- ENCODE: it writes the codes of its symbols, which all have a leaf and fit BIT, or it fails (R172, R175, R176). -/
theorem encode_next {s t : State} (hexec : exec .encode s = .next t) :
    (s.tree ≠ .absent ∧ (∀ a ∈ symInput s, a ∈ s.tree.symbols) ∧ (s.tree.codes (symInput s)).length ≤ 1048576 ∧
      t = succeed (putBits s (s.tree.codes (symInput s)))) ∨
    ∃ r, encodeInput s = .error r ∧ t = fail .encode r s := by
  rcases exec_encode_cases s with ⟨x, hx, he⟩ | ⟨r, hr, he⟩ <;> rw [he] at hexec <;> cases hexec
  · obtain ⟨htree, rfl, hsyms, hlen⟩ := encodeInput_ok hx
    exact .inl ⟨htree, hsyms, hlen, rfl⟩
  · exact .inr ⟨r, hr, rfl⟩

/-- DECODE: it writes symbols or it fails (R186, R187). -/
theorem decode_next {s t : State} (hexec : exec .decode s = .next t) :
    (∃ x, decodeInput s = .ok x ∧ t = succeed (putSyms s x)) ∨ ∃ r, decodeInput s = .error r ∧ t = fail .decode r s := by
  rcases exec_decode_cases s with ⟨x, hx, he⟩ | ⟨r, hr, he⟩ <;> rw [he] at hexec <;> cases hexec
  · exact .inl ⟨x, hx, rfl⟩
  · exact .inr ⟨r, hr, rfl⟩

/-- A DECODE under a valid tree that leaves ERR 0 has written the symbols whose codes its bits are (R182, R187). -/
theorem decode_next_of_err_zero {s t : State} (hv : ValidTree s.tree) (hexec : exec .decode s = .next t)
    (herr : t.err = 0) :
    ∃ x, decodeInput s = .ok x ∧ t = succeed (putSyms s x) ∧ s.tree.codes x = bitInput s ∧
      (∀ a ∈ x, a ∈ s.tree.symbols) ∧ x.length ≤ 65536 := by
  obtain ⟨x, hx, rfl⟩ | ⟨r, -, rfl⟩ := decode_next hexec
  · exact ⟨x, hx, rfl, decodeInput_ok hv hx⟩
  · exact absurd herr (errWord_ne_zero r.failure)

/-- An input that DECODE accepts is no longer than BIT (R185). -/
theorem bitLen_le_of_decodeInput_ok {s : State} {x : List Nat} (h : decodeInput s = .ok x) :
    s.bitLen.toNat ≤ 1048576 := by
  by_contra hlong
  rw [decodeInput, params_bitCap, if_pos (Nat.lt_of_not_le hlong)] at h
  split at h <;> cases h

/-! ## The written sequence read back -/

/-- The bits a successful ENCODE leaves are those it produced (R65, R176). -/
theorem bitInput_succeed_putBits (s : State) {x : List Bool} (hx : x.length ≤ 1048576) :
    bitInput (succeed (putBits s x)) = x :=
  (bitInput_congr (succeed_bit _) (succeed_bitLen _)).trans (bitInput_putBits (by omega))

/-- The symbols a successful DECODE leaves are those it emitted, which fit SYM cells (R38, R65, R187). -/
theorem symInput_succeed_putSyms {s : State} (hv : ValidTree s.tree) {x : List Nat} (hx : x.length ≤ 65536)
    (hsyms : ∀ a ∈ x, a ∈ s.tree.symbols) : symInput (succeed (putSyms s x)) = x := by
  obtain ⟨-, -, hbelow, -, -⟩ := hv
  exact (symInput_congr (succeed_sym _) (succeed_symLen _)).trans
    (symInput_putSyms (by omega) fun a ha => hbelow a (hsyms a ha))

/-- The number of input symbols, put back into its register. -/
theorem ofNat_length_symInput (s : State) : BitVec.ofNat 32 (symInput s).length = s.symLen := by
  rw [length_symInput, BitVec.ofNat_toNat, BitVec.setWidth_eq]

/-- The number of input bits, put back into its register. -/
theorem ofNat_length_bitInput (s : State) : BitVec.ofNat 32 (bitInput s).length = s.bitLen := by
  rw [length_bitInput, BitVec.ofNat_toNat, BitVec.setWidth_eq]

/-! ## ENCODE and DECODE are inverse -/

/-- DECODE of the codes that an ENCODE wrote gives the symbols back (R190). -/
theorem decodeInput_after_encode {s s₂ : State} (hv : ValidTree s.tree) (hlen : s.symLen.toNat ≤ 65536)
    (hsyms : ∀ a ∈ symInput s, a ∈ s.tree.symbols) (hfits : (s.tree.codes (symInput s)).length ≤ 1048576)
    (htree : s₂.tree = s.tree) (hbits : bitInput s₂ = s.tree.codes (symInput s)) :
    decodeInput s₂ = .ok (symInput s) := by
  refine decode_ok (htree ▸ hv) ?_ (htree ▸ hsyms) (by rwa [length_symInput]) (by rw [hbits, htree])
  rwa [← length_bitInput, hbits]

/-- ENCODE of the symbols that a DECODE wrote gives the bits back (R190). -/
theorem encodeInput_after_decode {s s₂ : State} {x : List Nat} (hv : ValidTree s.tree) (hx : decodeInput s = .ok x)
    (htree : s₂.tree = s.tree) (hread : symInput s₂ = x) : encodeInput s₂ = .ok (bitInput s) := by
  obtain ⟨hcodes, hsyms, hlen⟩ := decodeInput_ok hv hx
  have hbits : s₂.tree.codes (symInput s₂) = bitInput s := by rw [htree, hread, hcodes]
  rw [← hbits]
  refine encodeInput_codes (htree ▸ OptTree.ne_absent_of_isNode hv.1) ?_ (fun a ha => ?_) ?_
  · rwa [← length_symInput, hread]
  · exact codeOf_ne_none.mpr (htree ▸ hsyms a (hread ▸ ha))
  · rw [hbits, length_bitInput]
    exact bitLen_le_of_decodeInput_ok hx

/-- Settles O47: the codes of a valid tree are read back since none begins another, and the bits that DECODE accepts are
the codes of what it emits. -/
theorem encodeAndDecodeAreInverse : Obligations.EncodeAndDecodeAreInverse := by
  refine ⟨fun s hv hlen hcodes hfits => ?_, fun s s₁ hv hexec herr s₂ hsym hsymLen htree => ?_⟩
  · have hsyms (a : Nat) (ha : a ∈ symInput s) : a ∈ s.tree.symbols := codeOf_ne_none.mp (hcodes a ha)
    refine ⟨_, exec_encode_ok (encodeInput_codes (OptTree.ne_absent_of_isNode hv.1) hlen hcodes hfits), succeed_err _,
      fun s₂ hbit hbitLen htree => ?_⟩
    replace htree : s₂.tree = s.tree := htree
    have hbits := (bitInput_congr hbit hbitLen).trans (bitInput_succeed_putBits s hfits)
    refine ⟨_, exec_decode_ok (decodeInput_after_encode hv hlen hsyms hfits htree hbits), succeed_err _,
      ofNat_length_symInput s, ?_⟩
    exact symInput_succeed_putSyms (htree ▸ hv) (by rwa [length_symInput]) (htree ▸ hsyms)
  · obtain ⟨x, hx, rfl, -, hsyms, hlen⟩ := decode_next_of_err_zero hv hexec herr
    have hread := (symInput_congr hsym hsymLen).trans (symInput_succeed_putSyms hv hlen hsyms)
    refine ⟨_, exec_encode_ok (encodeInput_after_decode hv hx htree hread), succeed_err _, ofNat_length_bitInput s, ?_⟩
    exact bitInput_succeed_putBits s₂ (by rw [length_bitInput]; exact bitLen_le_of_decodeInput_ok hx)

/-! ## ENCODE -/

/-- Settles O38. -/
theorem encodeWritesTheCodes : Obligations.EncodeWritesTheCodes := by
  refine ⟨fun s htree hlen hcodes hfits => ⟨_, exec_encode_ok (encodeInput_codes htree hlen hcodes hfits), succeed_err _⟩,
    fun s t hexec herr => ?_, fun s t hexec herr => ?_⟩
  · obtain ⟨-, hsyms, hlen, rfl⟩ | ⟨r, -, rfl⟩ := encode_next hexec
    · exact ⟨succeed_errpos _, fun a ha => codeOf_ne_none.mpr (hsyms a ha), toNat_ofNat_length hlen (by decide),
        bitInput_succeed_putBits s hlen, fun k hk => Memory.read_writeList_outside (.inr (by simpa using hk)),
        sameCells_sym rfl, rfl, rfl⟩
    · exact absurd herr (errWord_ne_zero r.failure)
  · obtain ⟨-, -, -, rfl⟩ | ⟨r, hr, rfl⟩ := encode_next hexec
    · exact absurd (succeed_err _) herr
    · exact ⟨rfl, fun _ => rfl, ⟨r, hr, rfl, rfl⟩, sameCells_sym rfl, rfl, rfl⟩

/-- ENCODE up to the first symbol that may fail: those before it have codes that fit BIT (R173, R174). -/
theorem encodeInput_error_after_codes {s : State} {pre post : List Nat} {a : Nat} {r : Raise} (htree : s.tree ≠ .absent)
    (hlen : s.symLen.toNat ≤ 65536) (hin : symInput s = pre ++ a :: post) (hpre : ∀ b ∈ pre, s.tree.codeOf b ≠ none)
    (hfits : (s.tree.codes pre).length ≤ 1048576)
    (hr : encodeLoop 1048576 s.tree (a :: post) pre.length (s.tree.codes pre).length = .error r) :
    encodeInput s = .error r := by
  rw [encodeInput, if_neg htree, params_symCap, if_neg (Nat.not_lt.mpr hlen), params_bitCap, hin,
    encodeLoop_append (fun b hb => codeOf_ne_none.mp (hpre b hb)) (by omega), Nat.zero_add, Nat.zero_add, hr]

/-- Settles O39. -/
theorem encodeChecksInOrder : Obligations.EncodeChecksInOrder := fun s => by
  refine ⟨fun htree => ?_, fun htree hlong => ?_,
    fun pre post a htree hlen hin hpre hfits => ⟨fun hnone => ?_, fun p hp hover => ?_⟩⟩
  · obtain ⟨-, hencode, -⟩ := noTreeComesFirst s htree
    exact ⟨_, hencode, rfl, rfl⟩
  · have hr : encodeInput s = .error ⟨.inputLen, 0⟩ := by
      rw [encodeInput, if_neg htree, params_symCap, if_pos hlong]
    exact ⟨_, exec_encode_error hr, rfl, rfl⟩
  · have hr := encodeInput_error_after_codes (r := ⟨.unknownSymbol, pre.length⟩) htree hlen hin hpre hfits
      (by simp only [encodeLoop, hnone])
    exact ⟨_, exec_encode_error hr, rfl, rfl⟩
  · have hr := encodeInput_error_after_codes (r := ⟨.outputFull, pre.length⟩) htree hlen hin hpre hfits
      (by simp only [encodeLoop, hp, if_pos hover])
    exact ⟨_, exec_encode_error hr, rfl, rfl⟩

/-- A sum over the elements of a list, counted along any list without repeats that holds them all. -/
theorem sum_map_eq_sum_count {l d : List Nat} (hd : d.Nodup) (hl : ∀ a ∈ l, a ∈ d) (g : Nat → Nat) :
    (l.map g).sum = (d.map fun a => l.count a * g a).sum := by
  have hsub : l.toFinset ⊆ d.toFinset := fun a ha => List.mem_toFinset.mpr (hl a (List.mem_toFinset.mp ha))
  calc (l.map g).sum
    _ = ∑ a ∈ l.toFinset, l.count a * g a := Finset.sum_list_map_count l g
    _ = ∑ a ∈ d.toFinset, l.count a * g a := Finset.sum_subset hsub fun a _ ha => by
      rw [List.count_eq_zero_of_not_mem (mt List.mem_toFinset.mpr ha), Nat.zero_mul]
    _ = (d.map fun a => l.count a * g a).sum := List.sum_toFinset _ hd

/-- Settles O40: the three sums count the same code lengths, along the input, along the alphabet and along the leaves. -/
theorem encodedLengthIsWeightedSum : Obligations.EncodedLengthIsWeightedSum := fun s t hs hexec herr => by
  obtain ⟨htree, hsyms, hlen, rfl⟩ | ⟨r, -, rfl⟩ := encode_next hexec
  · obtain ⟨-, -, -, hnodup, -⟩ := valid_of_inv hs htree
    have hsum := (toNat_ofNat_length hlen (by decide)).trans (OptTree.length_codes s.tree (symInput s))
    refine ⟨hsum, hsum.trans (sum_map_count _ _ fun a => lt_of_mem_symInput), hsum.trans ?_⟩
    rw [cost_eq_sum_codeOf hnodup, sum_map_eq_sum_count hnodup hsyms]
  · exact absurd herr (errWord_ne_zero r.failure)

/-! ## DECODE -/

/-- Settles O42. -/
theorem decodeWritesTheSymbols : Obligations.DecodeWritesTheSymbols := by
  refine ⟨fun s syms hv hlen hsyms hcap hbits => ?_, fun s t hv hexec herr => ?_, fun s t hexec herr => ?_⟩
  · exact ⟨_, exec_decode_ok (decode_ok hv hlen hsyms hcap hbits), succeed_err _,
      symInput_succeed_putSyms hv hcap hsyms⟩
  · obtain ⟨x, -, rfl, hcodes, hsyms, hlen⟩ := decode_next_of_err_zero hv hexec herr
    have hread := symInput_succeed_putSyms hv hlen hsyms
    have hcount : (BitVec.ofNat 32 x.length).toNat = x.length := toNat_ofNat_length hlen (by decide)
    refine ⟨succeed_errpos _, (length_symInput _).symm, hread.symm ▸ hsyms, hread.symm ▸ hcodes, fun k hk => ?_,
      sameCells_bit rfl, rfl, rfl⟩
    have hk : x.length ≤ k := hcount ▸ hk
    exact Memory.read_writeList_outside (.inr (by simpa using hk))
  · obtain ⟨x, -, rfl⟩ | ⟨r, hr, rfl⟩ := decode_next hexec
    · exact absurd (succeed_err _) herr
    · exact ⟨rfl, fun _ => rfl, ⟨r, hr, rfl, rfl⟩, sameCells_bit rfl, rfl, rfl⟩

section
variable {cap i m : Nat} {root : OptTree} {p rest : List Bool}

/-- A path to an Internal node, then a bit whose child is missing there (R183). -/
theorem decodeLoop_malformed {b : Bool} (hp : (root.descend p).isNode = true)
    (hb : (root.descend p).child b = .absent) :
    decodeLoop cap root (p ++ b :: rest) i root 0 m = .error ⟨.malformedStream, i + p.length⟩ := by
  rw [decodeLoop_descend hp]
  simp only [decodeLoop, hb]

/-- A path to an Internal node, at which the bits end (R184). -/
theorem decodeLoop_incomplete (hp : (root.descend p).isNode = true) (hne : p ≠ []) :
    decodeLoop cap root p i root 0 m = .error ⟨.incompleteCode, i + p.length⟩ := by
  have hdepth : 0 < 0 + p.length := by simpa using List.length_pos_iff.mpr hne
  have h := decodeLoop_descend (cap := cap) (root := root) (rest := []) (i := i) (depth := 0) (m := m) hp
  rw [List.append_nil] at h
  rw [h, decodeLoop, if_pos hdepth]

/-- A whole code when SYM is full: the last bit of the code is the one that reaches the leaf (R185). -/
theorem decodeLoop_outputFull {a : Nat} (hr : root.isNode = true) (hp : (a, p) ∈ root.pairs) :
    decodeLoop cap root (p ++ rest) i root 0 cap = .error ⟨.outputFull, i + p.length - 1⟩ := by
  obtain ⟨q, b, rfl, hq, hb⟩ := descend_dropLast (OptTree.mem_pairs_iff_descend.mp hp) (OptTree.path_ne_nil hr hp)
  rw [List.append_assoc, decodeLoop_descend hq, List.singleton_append]
  simp only [decodeLoop, hb, if_true, List.length_append, List.length_singleton, ← Nat.add_assoc, Nat.add_sub_cancel]

end

/-- A DECODE whose loop fails after the codes of some symbols (R182 to R185). -/
theorem exec_decode_error_after_codes {s : State} {syms : List Nat} {rest : List Bool} {r : Raise}
    (hv : ValidTree s.tree) (hlen : s.bitLen.toNat ≤ 1048576) (hsyms : ∀ a ∈ syms, a ∈ s.tree.symbols)
    (hcap : syms.length ≤ 65536) (hbits : bitInput s = s.tree.codes syms ++ rest)
    (hr : decodeLoop 65536 s.tree rest (s.tree.codes syms).length s.tree 0 syms.length = .error r) :
    exec .decode s = .next (fail .decode r s) :=
  exec_decode_error (by rw [decodeInput_codes hv hlen hsyms hcap hbits, hr])

/-- A failure of DECODE is one of its first two checks or one of its loop (R185, R186). -/
theorem decodeInput_error_cases {s : State} {r : Raise} (h : decodeInput s = .error r) :
    r = ⟨.noTree, 0⟩ ∨ r = ⟨.inputLen, 0⟩ ∨ decodeLoop 65536 s.tree (bitInput s) 0 s.tree 0 0 = .error r := by
  rw [decodeInput] at h
  split at h
  · cases h; exact .inl rfl
  · split at h
    · cases h; exact .inr (.inl rfl)
    · exact .inr (.inr h)

/-- A failure that neither the first two checks nor the loop can raise is never reported by DECODE. -/
theorem decode_err_ne {s t : State} {f : Failure} (hexec : exec .decode s = .next t) (hnoTree : f ≠ .noTree)
    (hinputLen : f ≠ .inputLen)
    (hloop : ∀ r, decodeLoop 65536 s.tree (bitInput s) 0 s.tree 0 0 = .error r → r.failure ≠ f) : t.err ≠ errWord f := by
  obtain ⟨x, -, rfl⟩ | ⟨r, hr, rfl⟩ := decode_next hexec
  · exact (errWord_ne_zero f).symm
  · intro herr
    have hf : r.failure = f := errWord_injective herr
    rcases decodeInput_error_cases hr with rfl | rfl | hr
    · exact hnoTree hf.symm
    · exact hinputLen hf.symm
    · exact hloop r hr hf

/-- Settles O43. -/
theorem decodeMalformedStream : Obligations.DecodeMalformedStream := by
  refine ⟨fun s syms p rest b hv hlen hsyms hcap hbits hp hb => ?_, fun s t hfull hnode hexec => ?_⟩
  · exact ⟨_, exec_decode_error_after_codes hv hlen hsyms hcap (hbits.trans (List.append_assoc _ _ _))
      (decodeLoop_malformed hp hb), rfl, rfl⟩
  · exact decode_err_ne (f := .malformedStream) hexec (by decide) (by decide)
      fun r => decodeLoop_full hfull hnode hfull hnode

/-- Settles O44. -/
theorem decodeIncompleteCode : Obligations.DecodeIncompleteCode := fun s syms p hv hlen hsyms hcap hbits hne hp => by
  refine ⟨_, exec_decode_error_after_codes hv hlen hsyms hcap hbits (decodeLoop_incomplete hp hne), rfl, ?_⟩
  rw [fail_errpos, ← List.length_append, ← hbits, ofNat_length_bitInput]

/-- Settles O45. -/
theorem decodeOtherFailures : Obligations.DecodeOtherFailures := by
  refine ⟨fun s htree => ?_, fun s htree hlong => ?_, fun s syms a p rest hv hlen hsyms hfull hp hbits => ?_,
    fun cap root bits r hfits hr => ?_⟩
  · obtain ⟨-, -, hdecode⟩ := noTreeComesFirst s htree
    exact ⟨_, hdecode, rfl, rfl⟩
  · have hr : decodeInput s = .error ⟨.inputLen, 0⟩ := by
      rw [decodeInput, if_neg htree, params_bitCap, if_pos hlong]
    exact ⟨_, exec_decode_error hr, rfl, rfl⟩
  · have hr := decodeLoop_outputFull (cap := 65536) (rest := rest) (i := (s.tree.codes syms).length) hv.1 hp
    exact ⟨_, exec_decode_error_after_codes hv hlen hsyms hfull.le (hbits.trans (List.append_assoc _ _ _))
      (by rw [hfull, hr]), rfl, rfl⟩
  · exact decodeLoop_capacity hr (by omega)

/-! ## The degenerate tree -/

section
variable {a : Nat}

/-- The degenerate tree of a symbol of the alphabet is valid, though not full (R36 to R40). -/
theorem validTree_degenerate (ha : a < 256) : ValidTree (.node (.leaf a) .absent) :=
  ⟨rfl, rfl, by simpa [OptTree.symbols] using ha, List.nodup_singleton a, by simp [OptTree.depth]⟩

/-- The symbol of the degenerate tree has the code 0 (R125). -/
theorem codes_degenerate (k : Nat) :
    (OptTree.node (.leaf a) .absent).codes (List.replicate k a) = List.replicate k false := by
  have hcode : (OptTree.node (.leaf a) .absent).codeOf a = some [false] := by
    simp [OptTree.codeOf, OptTree.pairs_node]
  induction k with
  | zero => rfl
  | succ k ih => rw [List.replicate_succ, OptTree.codes_cons, hcode, ih]; rfl

/-- Under the degenerate tree the cursor is at the root before every bit, so the bits cannot end inside a code (R188). -/
theorem decodeLoop_degenerate {cap i m : Nat} {bits : List Bool} {r : Raise}
    (h : decodeLoop cap (.node (.leaf a) .absent) bits i (.node (.leaf a) .absent) 0 m = .error r) :
    r.failure ≠ .incompleteCode := by
  induction bits generalizing i m r with
  | nil => cases h
  | cons b bits ih =>
    cases b with
    | true => cases h; nofun
    | false =>
      simp only [decodeLoop, OptTree.child, Bool.false_eq_true, if_false] at h
      split at h
      · cases h; nofun
      · split at h
        · cases h
        · next hloop => cases h; exact ih hloop

end

/-- Settles O46. -/
theorem decodeOfDegenerateTree : Obligations.DecodeOfDegenerateTree := fun s a ha htree hlen => by
  have hv : ValidTree s.tree := htree ▸ validTree_degenerate ha
  have hsyms (k : Nat) : ∀ b ∈ List.replicate k a, b ∈ s.tree.symbols := fun b hb => by
    rw [List.eq_of_mem_replicate hb, htree]
    exact List.mem_singleton_self a
  have hcodes (k : Nat) : s.tree.codes (List.replicate k a) = List.replicate k false := htree ▸ codes_degenerate k
  refine ⟨fun k hk hbits => ⟨hcodes k, ?_⟩, fun k rest hk hbits => ?_, fun t hexec => ?_⟩
  · exact decodeWritesTheSymbols.1 s _ hv hlen (hsyms k) (by simpa using hk) (hbits.trans (hcodes k).symm)
  · have h := decodeMalformedStream.1 s (List.replicate k a) [] rest true hv hlen (hsyms k) (by simpa using hk)
      (by rw [hcodes, List.append_nil, hbits]) hv.1 (by rw [htree]; rfl)
    simpa [hcodes] using h
  · exact decode_err_ne (f := .incompleteCode) hexec (by decide) (by decide) fun r hr =>
      decodeLoop_degenerate (htree ▸ hr)

end Sys2Proof.Proofs
end

section
/-! The statements of 60_exceptions.md: what a failing command writes (R206), and what the commands after it do (R208). -/

namespace Sys2Proof.Proofs

open Sys2Proof.Machine

/-! ## What a failing command writes -/

/-- The command `i`, run on its operands in `s`, raises `r` (R12, R84). -/
def Raises : Instr → State → Raise → Prop
  | .build, s, r => buildTree 256 (freqInput s) = .error r
  | .save, s, r => saveTree 131072 s.tree = .error r
  | .load, s, r => loadInput s = .error r
  | .encode, s, r => encodeInput s = .error r
  | .decode, s, r => decodeInput s = .error r

/-- A command succeeds, or it fails with the failure its operands raise (R12). -/
theorem succeeds_or_raises (i : Instr) (s : State) :
    (∃ u, exec i s = .next (succeed u)) ∨ ∃ r, Raises i s r ∧ exec i s = .next (fail i r s) := by
  cases i with
  | build => exact (exec_build_cases s).imp_left fun ⟨_, _, _, h⟩ => ⟨_, h⟩
  | save => exact (exec_save_cases s).imp_left fun ⟨_, _, h⟩ => ⟨_, h⟩
  | load => exact (exec_load_cases s).imp_left fun ⟨_, _, _, h⟩ => ⟨_, h⟩
  | encode => exact (exec_encode_cases s).imp_left fun ⟨_, _, h⟩ => ⟨_, h⟩
  | decode => exact (exec_decode_cases s).imp_left fun ⟨_, _, h⟩ => ⟨_, h⟩

/-- A command that leaves ERR not 0 has failed (R206, R207). -/
theorem eq_fail_of_err_ne_zero {i : Instr} {s t : State} (hexec : exec i s = .next t) (herr : t.err ≠ 0) :
    ∃ r, Raises i s r ∧ t = fail i r s := by
  obtain ⟨u, h⟩ | ⟨r, hr, h⟩ := succeeds_or_raises i s <;> cases h.symm.trans hexec
  · exact absurd (succeed_err u) herr
  · exact ⟨r, hr, rfl⟩

/-- Settles O50: the state after a failure is `fail`, which invalidates the one output of the command. -/
theorem failureWritesExactly : Obligations.FailureWritesExactly := fun i s t hexec herr => by
  obtain ⟨r, hr, rfl⟩ := eq_fail_of_err_ne_zero hexec herr
  obtain ⟨hbusy, htree, -⟩ := status_bits_idle (fail_running i r s)
  refine ⟨⟨hbusy, htree⟩, ?_⟩
  cases i with
  | build | load => exact ⟨r, hr, rfl⟩
  | save | encode | decode => exact ⟨r, hr, fun _ => rfl, rfl⟩

/-! ## The commands after a failure -/

/-- The operands of the command `i` are the same in `s` and `s'` (R84). -/
def SameOperands (i : Instr) (s s' : State) : Prop :=
  match i with
  | .build => freqInput s = freqInput s'
  | .save => s.tree = s'.tree
  | .load => s.tblLen = s'.tblLen ∧ tblInput s = tblInput s'
  | .encode => s.tree = s'.tree ∧ s.symLen = s'.symLen ∧ symInput s = symInput s'
  | .decode => s.tree = s'.tree ∧ s.bitLen = s'.bitLen ∧ bitInput s = bitInput s'

/-- No command writes its own operands, whether it succeeds or fails (R52, R84). -/
theorem sameOperands_of_exec {i : Instr} {s t : State} (hexec : exec i s = .next t) : SameOperands i t s := by
  have hframe := commandFrame_of_exec hexec
  cases i with
  | build => exact freqInput_congr hframe.freq
  | save =>
    obtain ⟨htree, -⟩ := hframe.tree rfl
    exact htree
  | load =>
    obtain ⟨htbl, hlen⟩ := hframe.tbl nofun
    exact ⟨hlen, tblInput_congr htbl hlen⟩
  | encode =>
    obtain ⟨htree, -⟩ := hframe.tree rfl
    obtain ⟨hsym, hlen⟩ := hframe.sym nofun
    exact ⟨htree, hlen, symInput_congr hsym hlen⟩
  | decode =>
    obtain ⟨htree, -⟩ := hframe.tree rfl
    obtain ⟨hbit, hlen⟩ := hframe.bit nofun
    exact ⟨htree, hlen, bitInput_congr hbit hlen⟩

/-- A command run again reports the same, since its operands are the same (R208). -/
theorem exec_again {i : Instr} {s t : State} (hexec : exec i s = .next t) :
    ∃ u, exec i t = .next u ∧ u.err = t.err ∧ u.errpos = t.errpos := by
  obtain ⟨u, hu, -⟩ := everyCommandCompletes i t
  obtain ⟨herr, herrpos, -⟩ := commandsReadOnlyTheirOperands i t s u t hu hexec (sameOperands_of_exec hexec)
  exact ⟨u, hu, herr, herrpos⟩

/-- A BUILD or LOAD that fails leaves no tree (R206 (b)). -/
theorem tree_absent_of_failed {i : Instr} {s t : State} (hi : writesTree i = true) (hexec : exec i s = .next t)
    (herr : t.err ≠ 0) : t.tree = .absent := by
  obtain ⟨r, -, rfl⟩ := eq_fail_of_err_ne_zero hexec herr
  rw [fail_tree, if_pos hi]

/-- Settles O51: every command completes in every state, a repeated one reports the same, and the check for a tree comes
first. -/
theorem failedCommandFailsAgain : Obligations.FailedCommandFailsAgain := by
  refine ⟨fun i s t hexec _ => ?_, fun i j s t hexec herr hi hj => ?_⟩
  · obtain ⟨hidle, -⟩ := outcome_of_done (done_of_exec hexec)
    exact ⟨hidle, exec_again hexec, fun j => (everyCommandCompletes j t).imp fun _ ⟨hu, _⟩ => hu⟩
  · obtain ⟨hsave, hencode, hdecode⟩ :=
      noTreeComesFirst t (tree_absent_of_failed (writesTree_iff.mpr hi) hexec herr)
    rcases hj with rfl | rfl | rfl
    · exact ⟨_, hsave, rfl⟩
    · exact ⟨_, hencode, rfl⟩
    · exact ⟨_, hdecode, rfl⟩

end Sys2Proof.Proofs
end

section
/-! The statements of 70_reset_and_hazards.md: the state after reset (R231), a reset event at any time (R230), and a host
that only polls STATUS while a command takes time (R239). -/

namespace Sys2Proof.Proofs

open Sys2Proof.Machine

/-! ## Reset -/

/-- After reset every register reads 0, STATUS among them (R45, R231). -/
theorem regRead_reset (n : Nat) : regRead State.reset n = 0 := by
  unfold regRead
  split_ifs <;> rfl

/-- A reset event is performed whether or not a command is in progress (R230, U10). -/
theorem step_reset {s : State} {rest : List HostEvent} (hp : s.pending = .reset :: rest) :
    step s = .next (resetCore { s with pending := rest }) := by
  cases hr : s.running with
  | none => exact step_idle hr hp
  | some i => exact step_busy hr hp

/-- Settles O1: the four memories have no cell of known value. -/
theorem resetStateIsTheSpecs : Obligations.ResetStateIsTheSpecs := by
  refine ⟨fun n _ => regRead_reset n, rfl, rfl, fun sp hsp i => ?_⟩
  cases sp with
  | reg => exact absurd rfl hsp
  | freq | sym | bit | tbl => rfl

/-- After a reset event the memories have no more known values than in the reset state (R230). -/
theorem unspecified_resetCore (s : State) (sp : Space) (i : Nat) :
    (resetCore s).unspecified sp i = State.reset.unspecified sp i := by
  cases sp <;> rfl

/-- Settles O2: but for the host's side, the step leaves what holds of the reset state. -/
theorem resetEventGivesTheResetState : Obligations.ResetEventGivesTheResetState := fun s rest hp => by
  obtain ⟨hregs, htree, hidle, hcells⟩ := resetStateIsTheSpecs
  exact ⟨_, step_reset hp, hregs, htree, hidle, fun sp hsp i => (unspecified_resetCore _ sp i).trans (hcells sp hsp i), rfl⟩

/-! ## A command that takes time -/

/-- The start of a legal command is one step, after which the command is in progress (R239). -/
theorem step_start_command {s : State} {rest : List HostEvent} {w : Nat} {i : Instr} (hr : s.running = none)
    (hp : s.pending = .start w :: rest) (hw : w < 2 ^ 32) (hd : decodeCmd (BitVec.ofNat 32 w) = .ok i) :
    step s = .next { s with pending := rest, running := some i } := by
  rw [step_idle hr hp, idleEvent, if_neg (Nat.not_le.mpr hw), begin, hd]

/-- The start of an illegal word completes at once (R83). -/
theorem step_start_illegal {s : State} {rest : List HostEvent} {w : Nat} {r : DecodeReject} (hr : s.running = none)
    (hp : s.pending = .start w :: rest) (hw : w < 2 ^ 32) (hd : decodeCmd (BitVec.ofNat 32 w) = .error r) :
    step s = .next (illegalCommand { s with pending := rest }) := by
  rw [step_idle hr hp, idleEvent, if_neg (Nat.not_le.mpr hw), begin, hd]

/-- The completion of the command in progress is the command's meaning (R239). -/
theorem step_complete_command {s : State} {rest : List HostEvent} {i : Instr} (hr : s.running = some i)
    (hp : s.pending = .complete :: rest) : step s = exec i { s with pending := rest } := by
  rw [step_busy hr hp, busyEvent, finish, hr]

/-- A command that is started, polled `n` times and completed leaves what the command leaves when it runs as one step, but
for the host's side. -/
theorem run_start_polls_complete {s u : State} {rest : List HostEvent} {w : Nat} {i : Instr} (n : Nat)
    (hr : s.running = none) (hp : s.pending = .start w :: (List.replicate n (.read .reg 1) ++ .complete :: rest))
    (hw : w < 2 ^ 32) (hd : decodeCmd (BitVec.ofNat 32 w) = .ok i)
    (hexec : exec i { s with pending := rest } = .next u) :
    ∃ t, Host.Core.run Sys2Proof.core (n + 2) s = .next t ∧ t = { u with rdata := t.rdata, polls := t.polls } := by
  have hstart := step_start_command hr hp hw hd
  obtain ⟨d, k, hpolls, -⟩ := run_polls (i := i) n { s with pending := _, running := some i } (.complete :: rest) rfl rfl
  have hcomplete : step { s with pending := .complete :: rest, rdata := d, polls := k, running := some i } =
      .next (u.withHostSide rest d k) :=
    (step_complete_command rfl rfl).trans (exec_withHostSide hexec (some i) rest d k)
  obtain ⟨hpending, hidle⟩ := host_of_done hexec
  refine ⟨_, (run_succ hstart).trans ((run_add hpolls).trans (run_one hcomplete)), ?_⟩
  rw [hidle, hpending]

/-- An illegal word that is started, with `n` reads of STATUS and a completion after it, leaves what the CMD write of that
word leaves, but for what was read. -/
theorem run_start_illegal {s : State} {rest : List HostEvent} {w : Nat} {r : DecodeReject} (n : Nat)
    (hr : s.running = none) (hp : s.pending = .start w :: (List.replicate n (.read .reg 1) ++ .complete :: rest))
    (hw : w < 2 ^ 32) (hd : decodeCmd (BitVec.ofNat 32 w) = .error r) :
    ∃ t, Host.Core.run Sys2Proof.core (n + 2) s = .next t ∧
      t = { illegalCommand { s with pending := rest } with rdata := t.rdata, polls := t.polls } := by
  have hstart := step_start_illegal hr hp hw hd
  obtain ⟨d, hreads⟩ := idle_polls n (illegalCommand { s with pending := _ }) (.complete :: rest) hr rfl
  have hcomplete : step { illegalCommand s with pending := .complete :: rest, rdata := d } =
      .next { illegalCommand { s with pending := rest } with rdata := d } := complete_idle hr rfl
  exact ⟨_, (run_succ hstart).trans ((run_add hreads).trans (run_one hcomplete)), rfl⟩

/-- Each poll of a started command reads BUSY 1 (R239). -/
theorem run_start_polls {s : State} {rest : List HostEvent} {w : Nat} {i : Instr} (n : Nat) (hr : s.running = none)
    (hp : s.pending = .start w :: (List.replicate (n + 1) (.read .reg 1) ++ rest)) (hw : w < 2 ^ 32)
    (hd : decodeCmd (BitVec.ofNat 32 w) = .ok i) :
    ∃ t v, Host.Core.run Sys2Proof.core (n + 2) s = .next t ∧ t.rdata = some v ∧ v.getLsbD 0 = true := by
  obtain ⟨d, k, hpolls, -, hbusy⟩ :=
    run_polls (i := i) (n + 1) { s with pending := _, running := some i } rest rfl rfl
  obtain ⟨v, hv, hbit⟩ := hbusy n.succ_pos
  exact ⟨_, v, (run_succ (step_start_command hr hp hw hd)).trans hpolls, hv, hbit⟩

/-- Settles O58: the CMD write either issues a command, which reads nothing of the host's side, or an illegal word, which
takes no time. -/
theorem pollingHostSeesTheAtomicCommand : Obligations.PollingHostSeesTheAtomicCommand :=
    fun s u rest w n hr hw hstep => by
  refine ⟨?_, fun i hd => run_start_polls n hr rfl hw hd⟩
  rw [step_idle (s := { s with pending := .write .reg 0 w :: rest }) hr rfl, idleEvent_cmd hw] at hstep
  obtain ⟨i, hd, hexec⟩ | ⟨⟨r, hd⟩, hillegal⟩ := issue_cases (BitVec.ofNat 32 w) { s with pending := rest }
  · exact run_start_polls_complete n hr rfl hw hd (hexec.symm.trans hstep)
  · cases hillegal.symm.trans hstep
    exact run_start_illegal n hr rfl hw hd

end Sys2Proof.Proofs
end
